-- ==== Sys2Proof/Word.lean ====
section
/-! DEFINITION. The word types of the block: what the spec treats as bits (00_scope.md R8, R9). -/

namespace Sys2Proof

/-- A byte of the header buffer, of a slot's storage or of a pixel channel (R8, u8). -/
abbrev Byte := BitVec 8

/-- A 32-bit operand or descriptor (R8, u32). -/
abbrev Word32 := BitVec 32

/-- A slot number: the 4-bit fields `A` and `B` of a packet (R61, R68). -/
abbrev SlotNum := BitVec 4

/-- One command packet `CMD`, 128 bits (R60). -/
abbrev Packet := BitVec 128

end Sys2Proof
end

