-- ==== Sys2Proof/Syntax.lean ====
section
/-! DEFINITION. The 22 commands of 30_encoding.md R62 with their operands (R63), in the operand order of R72. -/

namespace Sys2Proof

/-- A colour channel: Blue = 0, Green = 1, Red = 2 (R67). -/
inductive Channel where
  | blue
  | green
  | red
  deriving DecidableEq, Repr

/-- A descriptor selector of `RDDESC`, numbers 0 to 5 (10_state.md R31). -/
inductive Selector where
  | width
  | height
  | bitsPerPixel
  | hRes
  | vRes
  | length
  deriving DecidableEq, Repr

/-- An RgbPixel: three independent channel values (R15, R66). -/
@[ext] structure RgbPixel where
  r : Byte
  g : Byte
  b : Byte
  deriving DecidableEq, Repr

/-- One constructor per row of spec/opcode_table.json. -/
inductive Instr where
  /-- `HBWR idx, byte` (R80) -/
  | hbwr (idx data : Byte)
  /-- `HBRD idx` (R81) -/
  | hbrd (idx : Byte)
  /-- `RDF off, size` (R82) -/
  | rdf (off size : Byte)
  /-- `WRF value, off, size` (R83) -/
  | wrf (value : Word32) (off size : Byte)
  /-- `HPARSE sA` (R84) -/
  | hparse (a : SlotNum)
  /-- `HBUILD sA` (R87) -/
  | hbuild (a : SlotNum)
  /-- `STRIDE width` (R91) -/
  | stride (width : Word32)
  /-- `PADLEN width` (R92) -/
  | padlen (width : Word32)
  /-- `INIT sA, width, height, bpp` (R95) -/
  | init (a : SlotNum) (width height : Word32) (bpp : BitVec 16)
  /-- `CLEAR sA` (R96) -/
  | clear (a : SlotNum)
  /-- `GET sA, x, y, ch` (R98) -/
  | get (a : SlotNum) (x y : Word32) (ch : Channel)
  /-- `GETPX sA, x, y` (R99) -/
  | getpx (a : SlotNum) (x y : Word32)
  /-- `SET sA, x, y, ch, val` (R100) -/
  | set (a : SlotNum) (x y : Word32) (ch : Channel) (val : Byte)
  /-- `SETPX sA, x, y, px(r,g,b)` (R101) -/
  | setpx (a : SlotNum) (x y : Word32) (pix : RgbPixel)
  /-- `FILL sA, ch, val` (R102) -/
  | fill (a : SlotNum) (ch : Channel) (val : Byte)
  /-- `INVERT sA, ch` (R103) -/
  | invert (a : SlotNum) (ch : Channel)
  /-- `CLONE sB, sA`: source first, then the new buffer (R104) -/
  | clone (b a : SlotNum)
  /-- `RDDESC sA, sel` (R105) -/
  | rddesc (a : SlotNum) (sel : Selector)
  /-- `ADDPX px(r,g,b), px(r,g,b)` (R111) -/
  | addpx (pa pb : RgbPixel)
  /-- `OVERLAY sB, sA, x, y`: source first, then destination (R113) -/
  | overlay (b a : SlotNum) (x y : Word32)
  /-- `MASK sB, sA, x, y, px(r,g,b)` (R114) -/
  | mask (b a : SlotNum) (x y : Word32) (pix : RgbPixel)
  /-- `ADD sB, sA, x, y` (R115) -/
  | add (b a : SlotNum) (x y : Word32)
  deriving DecidableEq, Repr

end Sys2Proof
end

