-- ==== Sys2Proof/WellFormed.lean ====
section
/-! DEFINITION. Which commands pass the operand checks of 30_encoding.md R74 steps 4 and 5. The checks of steps 1 to 3
(opcode, reserved bits, CH = 3, SEL ≥ 6) cannot fail on an `Instr`: its types have no such value. -/

namespace Sys2Proof

/-- A slot number names a slot (R68). -/
def slotExists (nbuf : Nat) (a : SlotNum) : Bool := decide (a.toNat < nbuf)

/-- The slots a command names: `A`, or `A` and `B`, or none. -/
def Instr.slotFields : Instr → List SlotNum
  | .hbwr _ _ => []
  | .hbrd _ => []
  | .rdf _ _ => []
  | .wrf _ _ _ => []
  | .hparse a => [a]
  | .hbuild a => [a]
  | .stride _ => []
  | .padlen _ => []
  | .init a _ _ _ => [a]
  | .clear a => [a]
  | .get a _ _ _ => [a]
  | .getpx a _ _ => [a]
  | .set a _ _ _ _ => [a]
  | .setpx a _ _ _ => [a]
  | .fill a _ _ => [a]
  | .invert a _ => [a]
  | .clone b a => [a, b]
  | .rddesc a _ => [a]
  | .addpx _ _ => []
  | .overlay b a _ _ => [a, b]
  | .mask b a _ _ _ => [a, b]
  | .add b a _ _ => [a, b]

/-- Every slot a command names exists (R74 step 4, R68). -/
def Instr.slotsExist (nbuf : Nat) (i : Instr) : Bool := i.slotFields.all (slotExists nbuf)

/-- A two-slot command names two different slots (R74 step 5, R116). -/
def Instr.slotsDiffer (i : Instr) : Bool := decide i.slotFields.Nodup

/-- A well-formed command of a block with `nbuf` slots: it passes R74 steps 1 to 5. -/
def Instr.wellFormed (nbuf : Nat) (i : Instr) : Bool := i.slotsExist nbuf && i.slotsDiffer

end Sys2Proof
end

