-- ==== Sys2Proof/Decode.lean ====
section
/-! DEFINITION. The packet decoder, total on all 128-bit values (30_encoding.md R60 to R74 steps 1 to 3), and the encoder
written from the same tables. Steps 4 and 5 of R74 depend on NBUF and stand in Machine/Operands.lean (log 6). -/

namespace Sys2Proof

/-! ### The opcode map (R62) -/

/-- The 22 opcodes of R62. -/
inductive Opcode where
  | hbwr | hbrd | rdf | wrf | hparse | hbuild
  | stride | padlen
  | init | clear | get | getpx | set | setpx | fill | invert | clone | rddesc
  | addpx | overlay | mask | add
  deriving DecidableEq, Repr

/-- The column OP of R62. -/
def Opcode.code : Opcode → BitVec 8
  | .hbwr => 0x01#8
  | .hbrd => 0x02#8
  | .rdf => 0x03#8
  | .wrf => 0x04#8
  | .hparse => 0x05#8
  | .hbuild => 0x06#8
  | .stride => 0x10#8
  | .padlen => 0x11#8
  | .init => 0x20#8
  | .clear => 0x21#8
  | .get => 0x22#8
  | .getpx => 0x23#8
  | .set => 0x24#8
  | .setpx => 0x25#8
  | .fill => 0x26#8
  | .invert => 0x27#8
  | .clone => 0x28#8
  | .rddesc => 0x29#8
  | .addpx => 0x30#8
  | .overlay => 0x31#8
  | .mask => 0x32#8
  | .add => 0x33#8

/-- The column mask of R62: the opcode bits and every bit the command does not use. -/
def Opcode.reservedMask : Opcode → Packet
  | .hbwr => 0xFFFFFFFFFFFFFFFFFFFFFF00FFFF00FF#128
  | .hbrd => 0xFFFFFFFFFFFFFFFFFFFFFFFFFFFF00FF#128
  | .rdf => 0xFFFFFFFFFFFFFFFFFFFFFFFFFF0000FF#128
  | .wrf => 0xFFFFFFFFFFFFFFFF00000000FF0000FF#128
  | .hparse => 0xFFFFFFFFFFFFFFFFFFFFFFFFFFFFF0FF#128
  | .hbuild => 0xFFFFFFFFFFFFFFFFFFFFFFFFFFFFF0FF#128
  | .stride => 0xFFFFFFFFFFFFFFFF00000000FFFFFFFF#128
  | .padlen => 0xFFFFFFFFFFFFFFFF00000000FFFFFFFF#128
  | .init => 0xFFFF00000000000000000000FFFFF0FF#128
  | .clear => 0xFFFFFFFFFFFFFFFFFFFFFFFFFFFFF0FF#128
  | .get => 0xFFFFFFFF0000000000000000FFFCF0FF#128
  | .getpx => 0xFFFFFFFF0000000000000000FFFFF0FF#128
  | .set => 0xFFFFFF000000000000000000FFFCF0FF#128
  | .setpx => 0xFF0000000000000000000000FFFFF0FF#128
  | .fill => 0xFFFFFF00FFFFFFFFFFFFFFFFFFFCF0FF#128
  | .invert => 0xFFFFFFFFFFFFFFFFFFFFFFFFFFFCF0FF#128
  | .clone => 0xFFFFFFFFFFFFFFFFFFFFFFFFFFFF00FF#128
  | .rddesc => 0xFFFFFFFFFFFFFFFFFFFFFFFFFF8FF0FF#128
  | .addpx => 0xFFFFFFFFFF000000FF000000FFFFFFFF#128
  | .overlay => 0xFFFFFFFF0000000000000000FFFF00FF#128
  | .mask => 0xFF0000000000000000000000FFFF00FF#128
  | .add => 0xFFFFFFFF0000000000000000FFFF00FF#128

/-- Every opcode, in the order of R62. -/
def Opcode.all : List Opcode :=
  [.hbwr, .hbrd, .rdf, .wrf, .hparse, .hbuild, .stride, .padlen,
   .init, .clear, .get, .getpx, .set, .setpx, .fill, .invert, .clone, .rddesc,
   .addpx, .overlay, .mask, .add]

/-- The opcode with a given number; none for a reserved number (R69). -/
def Opcode.ofCode (c : BitVec 8) : Option Opcode := Opcode.all.find? (fun op => op.code == c)

/-! ### Channels, selectors and pixels as bits -/

/-- R67. Also the byte offset of the channel inside a pixel (10_state.md R27). -/
def Channel.code : Channel → BitVec 2
  | .blue => 0#2
  | .green => 1#2
  | .red => 2#2

/-- `CH` = 3 names no channel (R67). -/
def Channel.ofCode (c : BitVec 2) : Option Channel :=
  if c = 0#2 then some .blue else if c = 1#2 then some .green else if c = 2#2 then some .red else none

/-- The selector numbers of 10_state.md R31. -/
def Selector.code : Selector → BitVec 3
  | .width => 0#3
  | .height => 1#3
  | .bitsPerPixel => 2#3
  | .hRes => 3#3
  | .vRes => 4#3
  | .length => 5#3

/-- Selectors 6 and 7 are reserved (R69, 10_state.md R31). -/
def Selector.ofCode (c : BitVec 3) : Option Selector :=
  if c = 0#3 then some .width else if c = 1#3 then some .height else if c = 2#3 then some .bitsPerPixel
  else if c = 3#3 then some .hRes else if c = 4#3 then some .vRes else if c = 5#3 then some .length else none

/-- `pack(r, g, b)`: blue in bits 7:0, green in 15:8, red in 23:16 (R66). -/
def RgbPixel.pack (p : RgbPixel) : BitVec 24 :=
  p.r.setWidth 24 <<< 16 ||| p.g.setWidth 24 <<< 8 ||| p.b.setWidth 24

/-- The pixel a packed number stands for (R66). -/
def RgbPixel.unpack (v : BitVec 24) : RgbPixel where
  r := v.extractLsb' 16 8
  g := v.extractLsb' 8 8
  b := v.extractLsb' 0 8

/-! ### The packet fields (R61): each at one fixed position -/

def Packet.op (w : Packet) : BitVec 8 := w.extractLsb' 0 8
def Packet.idx (w : Packet) : Byte := w.extractLsb' 8 8
def Packet.off (w : Packet) : Byte := w.extractLsb' 8 8
def Packet.size (w : Packet) : Byte := w.extractLsb' 16 8
def Packet.a (w : Packet) : SlotNum := w.extractLsb' 8 4
def Packet.b (w : Packet) : SlotNum := w.extractLsb' 12 4
def Packet.ch (w : Packet) : BitVec 2 := w.extractLsb' 16 2
def Packet.sel (w : Packet) : BitVec 3 := w.extractLsb' 20 3
def Packet.data (w : Packet) : Byte := w.extractLsb' 32 8
def Packet.value (w : Packet) : Word32 := w.extractLsb' 32 32
def Packet.width (w : Packet) : Word32 := w.extractLsb' 32 32
def Packet.x (w : Packet) : Word32 := w.extractLsb' 32 32
def Packet.pa (w : Packet) : BitVec 24 := w.extractLsb' 32 24
def Packet.height (w : Packet) : Word32 := w.extractLsb' 64 32
def Packet.y (w : Packet) : Word32 := w.extractLsb' 64 32
def Packet.pb (w : Packet) : BitVec 24 := w.extractLsb' 64 24
def Packet.bpp (w : Packet) : BitVec 16 := w.extractLsb' 96 16
def Packet.val (w : Packet) : Byte := w.extractLsb' 96 8
def Packet.pix (w : Packet) : BitVec 24 := w.extractLsb' 96 24

/-! ### The decoder (R74 steps 1 to 3) -/

/-- Why a packet is refused; each answers IllegalCommand (R74, 60_exceptions.md R131 code 8). -/
inductive DecodeError where
  /-- Step 1: the opcode is not one of R62. -/
  | reservedOpcode
  /-- Step 2: a reserved bit is set. -/
  | reservedBits
  /-- Step 3: `CH` = 3. -/
  | badChannel
  /-- Step 3: `SEL` is 6 or 7. -/
  | badSelector
  deriving DecidableEq, Repr

/-- What a packet decodes to: one command, or the reason it is refused. -/
inductive Decoded where
  | ok (i : Instr)
  | illegal (e : DecodeError)
  deriving DecidableEq, Repr

/-- Continue with the channel, or refuse `CH` = 3. -/
def withChannel (c : BitVec 2) (k : Channel → Instr) : Decoded :=
  match Channel.ofCode c with
  | some ch => .ok (k ch)
  | none => .illegal .badChannel

/-- Continue with the selector, or refuse `SEL` ≥ 6. -/
def withSelector (c : BitVec 3) (k : Selector → Instr) : Decoded :=
  match Selector.ofCode c with
  | some sel => .ok (k sel)
  | none => .illegal .badSelector

/-- The operands of each command (the column "fields used" of R62). -/
def decodeFields (op : Opcode) (w : Packet) : Decoded :=
  match op with
  | .hbwr => .ok (.hbwr w.idx w.data)
  | .hbrd => .ok (.hbrd w.idx)
  | .rdf => .ok (.rdf w.off w.size)
  | .wrf => .ok (.wrf w.value w.off w.size)
  | .hparse => .ok (.hparse w.a)
  | .hbuild => .ok (.hbuild w.a)
  | .stride => .ok (.stride w.width)
  | .padlen => .ok (.padlen w.width)
  | .init => .ok (.init w.a w.width w.height w.bpp)
  | .clear => .ok (.clear w.a)
  | .get => withChannel w.ch (fun ch => .get w.a w.x w.y ch)
  | .getpx => .ok (.getpx w.a w.x w.y)
  | .set => withChannel w.ch (fun ch => .set w.a w.x w.y ch w.val)
  | .setpx => .ok (.setpx w.a w.x w.y (RgbPixel.unpack w.pix))
  | .fill => withChannel w.ch (fun ch => .fill w.a ch w.val)
  | .invert => withChannel w.ch (fun ch => .invert w.a ch)
  | .clone => .ok (.clone w.b w.a)
  | .rddesc => withSelector w.sel (fun sel => .rddesc w.a sel)
  | .addpx => .ok (.addpx (RgbPixel.unpack w.pa) (RgbPixel.unpack w.pb))
  | .overlay => .ok (.overlay w.b w.a w.x w.y)
  | .mask => .ok (.mask w.b w.a w.x w.y (RgbPixel.unpack w.pix))
  | .add => .ok (.add w.b w.a w.x w.y)

/-- R74 steps 1 to 3, in that order. -/
def decode (w : Packet) : Decoded :=
  match Opcode.ofCode w.op with
  | none => .illegal .reservedOpcode
  | some op =>
    if w &&& op.reservedMask = op.code.setWidth 128 then decodeFields op w
    else .illegal .reservedBits

/-! ### The encoder, from the field positions of R61 -/

/-- The opcode of a command (R62). -/
def Instr.opcode : Instr → Opcode
  | .hbwr _ _ => .hbwr
  | .hbrd _ => .hbrd
  | .rdf _ _ => .rdf
  | .wrf _ _ _ => .wrf
  | .hparse _ => .hparse
  | .hbuild _ => .hbuild
  | .stride _ => .stride
  | .padlen _ => .padlen
  | .init _ _ _ _ => .init
  | .clear _ => .clear
  | .get _ _ _ _ => .get
  | .getpx _ _ _ => .getpx
  | .set _ _ _ _ _ => .set
  | .setpx _ _ _ _ => .setpx
  | .fill _ _ _ => .fill
  | .invert _ _ => .invert
  | .clone _ _ => .clone
  | .rddesc _ _ => .rddesc
  | .addpx _ _ => .addpx
  | .overlay _ _ _ _ => .overlay
  | .mask _ _ _ _ _ => .mask
  | .add _ _ _ _ => .add

/-- A field value at bit position `lo` of the packet (R61): unsigned, used as it stands (R65). -/
def place {n : Nat} (lo : Nat) (v : BitVec n) : Packet := v.setWidth 128 <<< lo

/-- The packet of a command: its opcode in 7:0 and every operand at its field's position (R61, R62); every other bit 0. -/
def encode : Instr → Packet
  | .hbwr idx data => place 0 Opcode.hbwr.code ||| place 8 idx ||| place 32 data
  | .hbrd idx => place 0 Opcode.hbrd.code ||| place 8 idx
  | .rdf off size => place 0 Opcode.rdf.code ||| place 8 off ||| place 16 size
  | .wrf value off size => place 0 Opcode.wrf.code ||| place 8 off ||| place 16 size ||| place 32 value
  | .hparse a => place 0 Opcode.hparse.code ||| place 8 a
  | .hbuild a => place 0 Opcode.hbuild.code ||| place 8 a
  | .stride width => place 0 Opcode.stride.code ||| place 32 width
  | .padlen width => place 0 Opcode.padlen.code ||| place 32 width
  | .init a width height bpp =>
    place 0 Opcode.init.code ||| place 8 a ||| place 32 width ||| place 64 height ||| place 96 bpp
  | .clear a => place 0 Opcode.clear.code ||| place 8 a
  | .get a x y ch => place 0 Opcode.get.code ||| place 8 a ||| place 16 ch.code ||| place 32 x ||| place 64 y
  | .getpx a x y => place 0 Opcode.getpx.code ||| place 8 a ||| place 32 x ||| place 64 y
  | .set a x y ch val =>
    place 0 Opcode.set.code ||| place 8 a ||| place 16 ch.code ||| place 32 x ||| place 64 y ||| place 96 val
  | .setpx a x y pix =>
    place 0 Opcode.setpx.code ||| place 8 a ||| place 32 x ||| place 64 y ||| place 96 pix.pack
  | .fill a ch val => place 0 Opcode.fill.code ||| place 8 a ||| place 16 ch.code ||| place 96 val
  | .invert a ch => place 0 Opcode.invert.code ||| place 8 a ||| place 16 ch.code
  | .clone b a => place 0 Opcode.clone.code ||| place 8 a ||| place 12 b
  | .rddesc a sel => place 0 Opcode.rddesc.code ||| place 8 a ||| place 20 sel.code
  | .addpx pa pb => place 0 Opcode.addpx.code ||| place 32 pa.pack ||| place 64 pb.pack
  | .overlay b a x y =>
    place 0 Opcode.overlay.code ||| place 8 a ||| place 12 b ||| place 32 x ||| place 64 y
  | .mask b a x y pix =>
    place 0 Opcode.mask.code ||| place 8 a ||| place 12 b ||| place 32 x ||| place 64 y ||| place 96 pix.pack
  | .add b a x y => place 0 Opcode.add.code ||| place 8 a ||| place 12 b ||| place 32 x ||| place 64 y

/-! ### A packet on a narrower bus (20_memory.md R43) -/

/-- Byte k of the transfer is `CMD[8k+7:8k]`: the opcode byte goes first. -/
def packetBytes (w : Packet) : List Byte := (List.range 16).map (fun k => w.extractLsb' (8 * k) 8)

/-- The packet that a transfer of bytes carries, first byte least significant. -/
def packetOfBytes : List Byte → Packet
  | [] => 0#128
  | b :: rest => b.setWidth 128 ||| (packetOfBytes rest <<< 8)

/-! ### The host's table words -/

/-- The packet of a table word: its low `nbits` bits, every bit above them 0. -/
def packetOfTableWord (nbits w : Nat) : Packet := BitVec.ofNat 128 (w % 2 ^ min nbits 128)

/-- The command this decoder reads from a word numbered as spec/opcode_table.json numbers its bits; none where it refuses. -/
def decodeTableWord (nbits w : Nat) : Option Instr :=
  match decode (packetOfTableWord nbits w) with
  | .ok i => some i
  | .illegal _ => none

end Sys2Proof
end

