-- ==== Sys2Proof/Config.lean ====
section
/-! DEFINITION. What an implementation fixes (00_scope.md R7) and the values the spec leaves free. -/

namespace Sys2Proof.Config

/-- What `CLONE` does with the two resolutions (R7, `CLONE_RES_POLICY`). -/
inductive CloneResPolicy where
  | copy
  | default
  deriving DecidableEq, Repr

/-- The build parameters of R7: arguments of the model, never changed by a step. -/
structure Params where
  /-- `NBUF`: number of pixel-buffer slots. -/
  nbuf : Nat
  /-- `CAP`: largest storage length of one slot, in bytes. -/
  cap : Nat
  /-- `DEFAULT_PPM`: the resolution `INIT` writes. -/
  defaultPpm : Word32
  /-- `FILESIZE_EXTRA`: bytes added to the file-size header field. -/
  fileSizeExtra : Nat
  /-- `CLONE_RES_POLICY`. -/
  cloneResPolicy : CloneResPolicy
  deriving DecidableEq, Repr

/-- The ranges R7 gives the open parameters. -/
abbrev Params.Valid (p : Params) : Prop := 2 ≤ p.nbuf ∧ p.nbuf ≤ 16 ∧ 1 ≤ p.cap

/-- The parameter values the spec's test vectors use (95_test_vectors.md, head). DESIGN CHOICE for the open ones:
log 2; the decided ones: log 3. -/
def Params.examples : Params where
  nbuf := 2
  cap := 2 ^ 24
  defaultPpm := 11811#32
  fileSizeExtra := 0
  cloneResPolicy := .copy

/-- FREE VALUE: `RES` of `RDDESC length` when the length needs more than 64 bits (possible only with `CAP` at
2^64 or more); the spec states no result there. Log 5. -/
opaque oversizeLength : Nat → BitVec 64

/-- FREE VALUE: for the n-th packet taken at the ports, how many clock cycles it executes ("a finite unspecified number
of cycles", 70_reset_and_hazards.md R148). Log 12. -/
opaque commandCycles : Nat → Nat

end Sys2Proof.Config
end

