-- ==== Sys2Proof/Machine/State.lean ====
section
/-! DEFINITION. The whole state of the block (10_state.md R20), the parameters and host inputs a step reads, the outcome
types, and the state after reset (10_state.md R34). -/

namespace Sys2Proof.Machine

open Sys2Proof.Config

/-- The error kinds of 60_exceptions.md R131, codes 1 to 10. They are response values, not faults (00_scope.md R18). -/
inductive ErrorKind where
  | invalidMagicNumber
  | unsupportedHeaderVersion
  | unsupportedPixelDepth
  /-- Reported by the host sequence DECODE_IMAGE only; `ERR` never holds it (45_file_image.md R123). -/
  | unexpectedEndOfData
  /-- Reported by the host only; `ERR` never holds it (45_file_image.md R123). -/
  | ioFailure
  | fieldSizeOutOfRange
  | fieldOutOfBounds
  | illegalCommand
  | capacityExceeded
  | aliasedOperands
  deriving DecidableEq, Repr

/-- Bytes by address: addresses strictly rising, no entry equal to the unlisted byte (Machine/Ops.lean, log 9). -/
abbrev Memory := List Host.Cell

/-- A byte sequence of a given length (00_scope.md R10: `px` with `len(px)`); `cells` holds its nonzero bytes. -/
structure ByteSeq where
  len : Nat
  cells : Memory
  deriving DecidableEq, Repr

/-- One PixelBuffer, the contents of one slot (10_state.md R20, R24). `bits_per_pixel` is not stored (R26). -/
structure PixelBuffer where
  width : Word32
  height : Word32
  hRes : Word32
  vRes : Word32
  px : ByteSeq
  deriving DecidableEq, Repr

/-- What the host does next: issue a packet (00_scope.md R16) or assert reset (70_reset_and_hazards.md R145). -/
inductive HostInput where
  | packet (w : Packet)
  | reset
  deriving DecidableEq, Repr

/-- The architectural state of R20, with the build parameters (R7) and the host's remaining inputs beside it. -/
structure State where
  /-- The build parameters of 00_scope.md R7; no step changes them (log 2). -/
  params : Params
  /-- `HB`, 54 bytes (R21). -/
  hb : Memory
  /-- `slot[s]`, 0 ≤ s < NBUF (R24). -/
  slots : List PixelBuffer
  /-- `ERR` (R29). -/
  err : BitVec 8
  /-- `FLAG` (R30). -/
  flag : Bool
  /-- `RES` (R29). -/
  res : BitVec 64
  /-- The MODEL's own field: what the host has still to issue, oldest first (log 1). -/
  pending : List HostInput
  deriving DecidableEq, Repr

/-- Why a step can stop with a fault: never. Every packet has exactly one outcome and the block never hangs
(00_scope.md R18); an error response is a next state (log 7). -/
inductive Fault where
  deriving DecidableEq, Repr

/-- Why an instruction has no meaning. -/
inductive Refusal where
  /-- Raised by exec's arm for an instruction without a meaning (safe); no arm raises it now. -/
  | notModelled (mnemonic : String)
  deriving DecidableEq, Repr

/-- The outcome of one command. -/
abbrev Result := Host.Outcome State Fault Refusal

/-- An empty slot: its reset value (R34). -/
def PixelBuffer.empty : PixelBuffer where
  width := 0#32
  height := 0#32
  hRes := 0#32
  vRes := 0#32
  px := { len := 0, cells := [] }

/-- The reset state of a block with the given parameters (R34). -/
def State.resetWith (p : Params) : State where
  params := p
  hb := []
  slots := List.replicate p.nbuf PixelBuffer.empty
  err := 0#8
  flag := false
  res := 0#64
  pending := []

/-- The machine right after reset (R34), with the spec's example parameters (log 2). -/
def State.reset : State := State.resetWith Params.examples

end Sys2Proof.Machine
end

