-- ==== Sys2Proof/Machine/Ops.lean ====
section
/-! DEFINITION. The named operations over memory, slots and the response registers. -/

namespace Sys2Proof.Machine

/-! ### Bytes by address -/

/-- What an unlisted address reads as: every byte of `HB` is 0 after reset (10_state.md R34), and new storage is
zero-filled (42_pixel_buffer.md R95, 40_header_codec.md R84). -/
def Memory.unlisted : Byte := 0#8

/-- The canonical form: addresses strictly rising, no entry equal to the unlisted byte. -/
abbrev Memory.wf (m : Memory) : Prop :=
  m.Pairwise (fun c d => c.1 < d.1) ∧ ∀ c ∈ m, c.2 ≠ Memory.unlisted

/-- Read one byte. -/
def Memory.read : Memory → Nat → Byte
  | [], _ => Memory.unlisted
  | (b, w) :: rest, a => if b = a then w else Memory.read rest a

/-- Put an entry in front, unless it holds the unlisted byte. -/
def Memory.consCell (a : Nat) (v : Byte) (m : Memory) : Memory := if v = Memory.unlisted then m else (a, v) :: m

/-- Write one byte, keeping the canonical form. -/
def Memory.write : Memory → Nat → Byte → Memory
  | [], a, v => Memory.consCell a v []
  | (b, w) :: rest, a, v =>
    if b < a then (b, w) :: Memory.write rest a v
    else if b = a then Memory.consCell a v rest
    else Memory.consCell a v ((b, w) :: rest)

/-- `MemRead(·, addr, n)`: little-endian, 0 when n = 0 (00_scope.md R11, 20_memory.md R41). -/
def Memory.readLE (m : Memory) (addr : Nat) : Nat → Nat
  | 0 => 0
  | n + 1 => (m.read addr).toNat + 256 * Memory.readLE m (addr + 1) n

/-- `MemWrite(·, addr, n, v)`: byte k becomes (v div 256^k) mod 256 (00_scope.md R11). -/
def Memory.writeLE (m : Memory) (addr : Nat) : Nat → Nat → Memory
  | 0, _ => m
  | n + 1, v => Memory.writeLE (m.write addr (BitVec.ofNat 8 v)) (addr + 1) n (v / 256)

/-- Replace the byte at every address below n by f of the address and the old byte. -/
def Memory.update (f : Nat → Byte → Byte) : Nat → Memory → Memory
  | 0, m => m
  | n + 1, m =>
    let m' := Memory.update f n m
    m'.write n (f n (m'.read n))

/-! ### Byte sequences -/

/-- n bytes, each 0 (R84, R95). -/
def ByteSeq.zeros (n : Nat) : ByteSeq := { len := n, cells := [] }

/-- `px[i]` (00_scope.md R11). -/
def ByteSeq.read (q : ByteSeq) (i : Nat) : Byte := q.cells.read i

/-- `px[i] <- v` (00_scope.md R11). -/
def ByteSeq.write (q : ByteSeq) (i : Nat) (v : Byte) : ByteSeq := { q with cells := q.cells.write i v }

/-- Replace every byte `px[i]`, i < len(px), by f of i and the old byte. -/
def ByteSeq.update (q : ByteSeq) (f : Nat → Byte → Byte) : ByteSeq := { q with cells := q.cells.update f q.len }

/-! ### The header buffer -/

/-- The header block's length (00_scope.md R6). -/
def headerLength : Nat := 54

/-- `HB[i]`. -/
def State.hbByte (s : State) (i : Nat) : Byte := s.hb.read i

/-- `HB[i] <- v`. -/
def State.setHbByte (s : State) (i : Nat) (v : Byte) : State := { s with hb := s.hb.write i v }

/-- `MemRead(HB, addr, n)`. -/
def State.hbField (s : State) (addr n : Nat) : Nat := s.hb.readLE addr n

/-- `MemWrite(HB, addr, n, v)`. -/
def State.setHbField (s : State) (addr n v : Nat) : State := { s with hb := s.hb.writeLE addr n v }

/-! ### The slots -/

/-- `slot[a]`. A slot that does not exist is never reached: R74 step 4 comes first (log 8). -/
def State.slot (s : State) (a : SlotNum) : PixelBuffer := s.slots.getD a.toNat PixelBuffer.empty

/-- Replace the contents of `slot[a]`. -/
def State.setSlot (s : State) (a : SlotNum) (b : PixelBuffer) : State := { s with slots := s.slots.set a.toNat b }

/-! ### Responses and errors -/

/-- The error codes of 60_exceptions.md R131. -/
def ErrorKind.code : ErrorKind → BitVec 8
  | .invalidMagicNumber => 1#8
  | .unsupportedHeaderVersion => 2#8
  | .unsupportedPixelDepth => 3#8
  | .unexpectedEndOfData => 4#8
  | .ioFailure => 5#8
  | .fieldSizeOutOfRange => 6#8
  | .fieldOutOfBounds => 7#8
  | .illegalCommand => 8#8
  | .capacityExceeded => 9#8
  | .aliasedOperands => 10#8

/-- `respond(res, flag)`: the successful end of a command (00_scope.md R13). -/
def State.respond (s : State) (res : BitVec 64) (flag : Bool) : State :=
  { s with err := 0#8, flag := flag, res := res }

/-- `raise`: the one way a command ends with an error; only the response registers change (00_scope.md R12,
60_exceptions.md R130, R136). There is no return: the next command overwrites the response (R137). -/
def State.raise (s : State) (e : ErrorKind) : State :=
  { s with err := e.code, flag := false, res := 0#64 }

/-- The reset event (70_reset_and_hazards.md R145): parameters and the host's inputs are not the block's state. -/
def State.afterReset (s : State) : State :=
  { State.resetWith s.params with pending := s.pending }

/-- The response as one 80-bit number, RSP = (ERR, seven zeros, FLAG, RES) (30_encoding.md R71). -/
def State.rsp (s : State) : BitVec 80 :=
  s.err.setWidth 80 <<< 72 ||| (BitVec.ofBool s.flag).setWidth 80 <<< 64 ||| s.res.setWidth 80

end Sys2Proof.Machine
end

