-- ==== Sys2Proof/Machine/Operands.lean ====
section
/-! DEFINITION. Operand forms: slots (30_encoding.md R68, R74 steps 4 and 5), pixel coordinates (10_state.md R27,
42_pixel_buffer.md R97) and signed header fields (00_scope.md R9). -/

namespace Sys2Proof.Machine

/-! ### Slot operands -/

/-- A one-slot command: R74 step 4, then the command's own rule on `slot[a]`. -/
def withSlot (a : SlotNum) (s : State) (k : PixelBuffer → State) : Result :=
  if slotExists s.params.nbuf a then .next (k (s.slot a)) else .next (s.raise .illegalCommand)

/-- A two-slot command: R74 steps 4 and 5, then the command's own rule on source `slot[b]` and destination `slot[a]`. -/
def withTwoSlots (b a : SlotNum) (s : State) (k : PixelBuffer → PixelBuffer → State) : Result :=
  if slotExists s.params.nbuf a && slotExists s.params.nbuf b then
    if a = b then .next (s.raise .aliasedOperands) else .next (k (s.slot b) (s.slot a))
  else .next (s.raise .illegalCommand)

/-! ### Pixel coordinates -/

/-- The byte offset of a channel inside a pixel: Blue = 0, Green = 1, Red = 2 (R27). -/
def Channel.offset (c : Channel) : Nat := c.code.toNat

/-- `index(W, x, y, c)` on naturals (10_state.md R27). -/
def pixelIndex (w x y c : Nat) : Nat := (y * w + x) * 3 + c

/-- `inrange` (42_pixel_buffer.md R97), on naturals so that it also serves the composites' `dx`, `dy`. -/
def PixelBuffer.inRange (b : PixelBuffer) (x y : Nat) : Bool :=
  decide (x < b.width.toNat) && decide (y < b.height.toNat)

/-- The byte of channel c of pixel (x, y). -/
def PixelBuffer.channelAt (b : PixelBuffer) (x y : Nat) (c : Channel) : Byte :=
  b.px.read (pixelIndex b.width.toNat x y (Channel.offset c))

/-- Write the byte of channel c of pixel (x, y). -/
def PixelBuffer.setChannel (b : PixelBuffer) (x y : Nat) (c : Channel) (v : Byte) : PixelBuffer :=
  { b with px := b.px.write (pixelIndex b.width.toNat x y (Channel.offset c)) v }

/-- The pixel at (x, y): blue, green, red at rising index (R27, R42). -/
def PixelBuffer.pixelAt (b : PixelBuffer) (x y : Nat) : RgbPixel where
  r := b.channelAt x y .red
  g := b.channelAt x y .green
  b := b.channelAt x y .blue

/-- Write the three bytes of the pixel at (x, y) (R101). -/
def PixelBuffer.setPixel (b : PixelBuffer) (x y : Nat) (p : RgbPixel) : PixelBuffer :=
  ((b.setChannel x y .blue p.b).setChannel x y .green p.g).setChannel x y .red p.r

/-- Replace every byte of one channel (R102, R103: `i mod 3 = CH`). -/
def PixelBuffer.mapChannel (b : PixelBuffer) (c : Channel) (f : Byte → Byte) : PixelBuffer :=
  { b with px := b.px.update (fun i v => if i % 3 = Channel.offset c then f v else v) }

/-- A buffer of the given shape and resolution with zeroed storage (R84 step 9, R95). -/
def PixelBuffer.zeroed (width height hRes vRes : Word32) : PixelBuffer where
  width := width
  height := height
  hRes := hRes
  vRes := vRes
  px := ByteSeq.zeros (width.toNat * height.toNat * 3)

/-! ### Signed header fields -/

/-- `as_i32` (00_scope.md R9). -/
def asI32 (v : Nat) : Int := if v < 2 ^ 31 then (v : Int) else (v : Int) - 2 ^ 32

/-- `| as_i32(v) |` (40_header_codec.md R86). -/
def absI32 (v : Nat) : Nat := (asI32 v).natAbs

end Sys2Proof.Machine
end

