-- ==== Sys2Proof/Machine/Flags.lean ====
section
/-! DEFINITION. What `FLAG` carries on success (10_state.md R30) and the saturating sum (43_compositor.md R110). -/

namespace Sys2Proof.Machine

/-- `FLAG` of the commands whose document function returns no boolean (R30). -/
def noFlag : Bool := false

/-- `FLAG` of `GET`, `GETPX`, `SET`, `SETPX`: the coordinate is in range (R30, R98 to R101). -/
def coordinateFlag (b : PixelBuffer) (x y : Word32) : Bool := b.inRange x.toNat y.toNat

/-- One source pixel falls outside the destination: the test that sets `clipped` (R112); `dx`, `dy` do not wrap. -/
def outsideDest (dest : PixelBuffer) (dx dy : Nat) : Bool := !dest.inRange dx dy

/-- `sat8(a, b) = min(a + b, 255)`, the sum on naturals (R110). -/
def sat8 (a b : Byte) : Byte := BitVec.ofNat 8 (min (a.toNat + b.toNat) 255)

/-- `add_pixel`: three independent lanes (R110). -/
def addPixel (p q : RgbPixel) : RgbPixel where
  r := sat8 p.r q.r
  g := sat8 p.g q.g
  b := sat8 p.b q.b

end Sys2Proof.Machine
end

