-- ==== Sys2Proof/Machine/Compositor.lean ====
section
/-! DEFINITION. The saturating RGB pixel compositor (43_compositor.md R110 to R116). -/

namespace Sys2Proof.Machine

/-- `ADDPX` (R111). -/
def execAddpx (pa pb : RgbPixel) (s : State) : Result :=
  .next (s.respond ((addPixel pa pb).pack.setWidth 64) noFlag)

/-- What a composite does with a source pixel and the destination pixel it meets: the new destination pixel, or none
for a skip. -/
abbrev PixelAction := RgbPixel → RgbPixel → Option RgbPixel

/-- What a walk has done so far: the destination, and whether a source pixel was clipped. -/
structure Walk where
  dest : PixelBuffer
  clipped : Bool
  deriving DecidableEq, Repr

/-- Visit the source pixel (sx, sy): it goes to (X + sx, Y + sy), on naturals (R112). -/
def visitPixel (act : PixelAction) (source : PixelBuffer) (x y : Nat) (sx sy : Nat) (w : Walk) : Walk :=
  if outsideDest w.dest (x + sx) (y + sy) then { w with clipped := true }
  else
    match act (source.pixelAt sx sy) (w.dest.pixelAt (x + sx) (y + sy)) with
    | some p => { w with dest := w.dest.setPixel (x + sx) (y + sy) p }
    | none => w

/-- Visit the first n source pixels in row-major order: the k-th is (k mod width, k div width). The order cannot be
observed (R112, log 10). -/
def visitPixels (act : PixelAction) (source dest : PixelBuffer) (x y : Nat) : Nat → Walk
  | 0 => { dest := dest, clipped := false }
  | k + 1 =>
    visitPixel act source x y (k % source.width.toNat) (k / source.width.toNat) (visitPixels act source dest x y k)

/-- `composite(action)` (R112): every source pixel once. -/
def compositeWalk (act : PixelAction) (source dest : PixelBuffer) (x y : Nat) : Walk :=
  visitPixels act source dest x y (source.width.toNat * source.height.toNat)

/-- The common form of the three composite commands (R112, R116). -/
def composite (act : PixelAction) (b a : SlotNum) (x y : Word32) (s : State) : Result :=
  withTwoSlots b a s fun source dest =>
    let w := compositeWalk act source dest x.toNat y.toNat
    (s.setSlot a w.dest).respond 0#64 w.clipped

/-- `OVERLAY`'s action: copy the source pixel (R113). -/
def overlayAction : PixelAction := fun src _ => some src

/-- `MASK`'s action: skip a source pixel equal to the key colour, copy any other (R114). -/
def maskAction (key : RgbPixel) : PixelAction := fun src _ => if src = key then none else some src

/-- `ADD`'s action: per-channel saturating sum (R115). -/
def addAction : PixelAction := fun src old => some (addPixel old src)

/-- `OVERLAY` (R113). -/
def execOverlay (b a : SlotNum) (x y : Word32) (s : State) : Result := composite overlayAction b a x y s

/-- `MASK` (R114). -/
def execMask (b a : SlotNum) (x y : Word32) (pix : RgbPixel) (s : State) : Result :=
  composite (maskAction pix) b a x y s

/-- `ADD` (R115). -/
def execAdd (b a : SlotNum) (x y : Word32) (s : State) : Result := composite addAction b a x y s

end Sys2Proof.Machine
end

