-- ==== Sys2Proof/Machine/Stride.lean ====
section
/-! DEFINITION. The row-stride padding calculator (41_stride.md R90 to R92). -/

namespace Sys2Proof.Machine

/-- `stride(w)`, on naturals (R90). -/
def strideOf (w : Nat) : Nat := if w * 3 % 4 = 0 then w * 3 else w * 3 + (4 - w * 3 % 4)

/-- `STRIDE` (R91). -/
def execStride (width : Word32) (s : State) : Result :=
  .next (s.respond (BitVec.ofNat 64 (strideOf width.toNat)) noFlag)

/-- `PADLEN` (R92). -/
def execPadlen (width : Word32) (s : State) : Result :=
  .next (s.respond (BitVec.ofNat 64 (strideOf width.toNat - width.toNat * 3)) noFlag)

end Sys2Proof.Machine
end

