-- ==== Sys2Proof/Machine/HeaderCodec.lean ====
section
/-! DEFINITION. The header codec commands (40_header_codec.md R80 to R88). -/

namespace Sys2Proof.Machine

open Sys2Proof.Config

/-- `HBWR` (R80). -/
def execHbwr (idx data : Byte) (s : State) : Result :=
  if headerLength ≤ idx.toNat then .next (s.raise .fieldOutOfBounds)
  else .next ((s.setHbByte idx.toNat data).respond 0#64 noFlag)

/-- `HBRD` (R81). -/
def execHbrd (idx : Byte) (s : State) : Result :=
  if headerLength ≤ idx.toNat then .next (s.raise .fieldOutOfBounds)
  else .next (s.respond ((s.hbByte idx.toNat).setWidth 64) noFlag)

/-- The two checks of a field access, the size first (R82, R83, 20_memory.md R45). -/
def withField (off size : Byte) (s : State) (k : Nat → Nat → State) : Result :=
  if 4 < size.toNat then .next (s.raise .fieldSizeOutOfRange)
  else if headerLength < off.toNat + size.toNat then .next (s.raise .fieldOutOfBounds)
  else .next (k off.toNat size.toNat)

/-- `RDF` (R82). -/
def execRdf (off size : Byte) (s : State) : Result :=
  withField off size s fun o n => s.respond (BitVec.ofNat 64 (s.hbField o n)) noFlag

/-- `WRF` (R83). -/
def execWrf (value : Word32) (off size : Byte) (s : State) : Result :=
  withField off size s fun o n => (s.setHbField o n value.toNat).respond 0#64 noFlag

/-- `HPARSE` (R84), the checks in the document's step order (60_exceptions.md R135). -/
def execHparse (a : SlotNum) (s : State) : Result :=
  withSlot a s fun _ =>
    let w := absI32 (s.hbField 18 4)
    let h := absI32 (s.hbField 22 4)
    if s.hbField 0 2 ≠ 0x4D42 then s.raise .invalidMagicNumber
    else if s.hbField 14 4 ≠ 40 then s.raise .unsupportedHeaderVersion
    else if s.hbField 28 2 ≠ 24 then s.raise .unsupportedPixelDepth
    else if s.params.cap < w * h * 3 then s.raise .capacityExceeded
    else
      (s.setSlot a (PixelBuffer.zeroed (BitVec.ofNat 32 w) (BitVec.ofNat 32 h)
        (BitVec.ofNat 32 (s.hbField 38 4)) (BitVec.ofNat 32 (s.hbField 42 4)))).respond 0#64 noFlag

/-- The pixel-data size of a buffer, `padded · H` (R87). -/
def rawSize (b : PixelBuffer) : Nat := strideOf b.width.toNat * b.height.toNat

/-- The declared file size, `54 + raw + FILESIZE_EXTRA` (R87). -/
def fileSize (p : Params) (b : PixelBuffer) : Nat := headerLength + rawSize b + p.fileSizeExtra

/-- The 16 fields `HBUILD` writes: offset, size, value (R87, 20_memory.md R49). -/
def headerFields (p : Params) (b : PixelBuffer) : List (Nat × Nat × Nat) :=
  [(0, 2, 0x4D42),
   (2, 4, fileSize p b % 2 ^ 32),
   (6, 2, 0),
   (8, 2, 0),
   (10, 4, 54),
   (14, 4, 40),
   (18, 4, b.width.toNat),
   (22, 4, b.height.toNat),
   (26, 2, 1),
   (28, 2, 24),
   (30, 4, 0),
   (34, 4, rawSize b % 2 ^ 32),
   (38, 4, b.hRes.toNat),
   (42, 4, b.vRes.toNat),
   (46, 4, 0),
   (50, 4, 0)]

/-- Write a list of fields into the header buffer, in order. -/
def writeFields (fields : List (Nat × Nat × Nat)) (s : State) : State :=
  fields.foldl (fun t f => t.setHbField f.1 f.2.1 f.2.2) s

/-- `HBUILD` (R87). -/
def execHbuild (a : SlotNum) (s : State) : Result :=
  withSlot a s fun b => (writeFields (headerFields s.params b) s).respond 0#64 noFlag

end Sys2Proof.Machine
end

