-- ==== Sys2Proof/Machine/PixelCommands.lean ====
section
/-! DEFINITION. The pixel-buffer commands (42_pixel_buffer.md R95 to R105). -/

namespace Sys2Proof.Machine

open Sys2Proof.Config

/-- `INIT` (R95): the depth check, then the capacity check. -/
def execInit (a : SlotNum) (width height : Word32) (bpp : BitVec 16) (s : State) : Result :=
  withSlot a s fun _ =>
    if bpp ≠ 24#16 then s.raise .unsupportedPixelDepth
    else if s.params.cap < width.toNat * height.toNat * 3 then s.raise .capacityExceeded
    else
      (s.setSlot a (PixelBuffer.zeroed width height s.params.defaultPpm s.params.defaultPpm)).respond 0#64 noFlag

/-- `CLEAR` (R96): the slot returns to its reset state. -/
def execClear (a : SlotNum) (s : State) : Result :=
  withSlot a s fun _ => (s.setSlot a PixelBuffer.empty).respond 0#64 noFlag

/-- `GET` (R98). -/
def execGet (a : SlotNum) (x y : Word32) (ch : Channel) (s : State) : Result :=
  withSlot a s fun b =>
    if coordinateFlag b x y then s.respond ((b.channelAt x.toNat y.toNat ch).setWidth 64) true
    else s.respond 0#64 false

/-- `GETPX` (R99). -/
def execGetpx (a : SlotNum) (x y : Word32) (s : State) : Result :=
  withSlot a s fun b =>
    if coordinateFlag b x y then s.respond ((b.pixelAt x.toNat y.toNat).pack.setWidth 64) true
    else s.respond 0#64 false

/-- `SET` (R100). -/
def execSet (a : SlotNum) (x y : Word32) (ch : Channel) (val : Byte) (s : State) : Result :=
  withSlot a s fun b =>
    if coordinateFlag b x y then (s.setSlot a (b.setChannel x.toNat y.toNat ch val)).respond 0#64 true
    else s.respond 0#64 false

/-- `SETPX` (R101). -/
def execSetpx (a : SlotNum) (x y : Word32) (pix : RgbPixel) (s : State) : Result :=
  withSlot a s fun b =>
    if coordinateFlag b x y then (s.setSlot a (b.setPixel x.toNat y.toNat pix)).respond 0#64 true
    else s.respond 0#64 false

/-- `FILL` (R102). -/
def execFill (a : SlotNum) (ch : Channel) (val : Byte) (s : State) : Result :=
  withSlot a s fun b => (s.setSlot a (b.mapChannel ch (fun _ => val))).respond 0#64 noFlag

/-- `INVERT` (R103). -/
def execInvert (a : SlotNum) (ch : Channel) (s : State) : Result :=
  withSlot a s fun b => (s.setSlot a (b.mapChannel ch (fun v => v ^^^ 0xFF#8))).respond 0#64 noFlag

/-- The buffer `CLONE` puts into the destination slot (R104). -/
def cloneOf (p : Params) (source : PixelBuffer) : PixelBuffer :=
  match p.cloneResPolicy with
  | .copy => source
  | .default => { source with hRes := p.defaultPpm, vRes := p.defaultPpm }

/-- `CLONE` (R104, R116). -/
def execClone (b a : SlotNum) (s : State) : Result :=
  withTwoSlots b a s fun source _ => (s.setSlot a (cloneOf s.params source)).respond 0#64 noFlag

/-- `RES` of `RDDESC length`: the length zero-extended; where it needs more than 64 bits, a free value (log 5). -/
def lengthResult (n : Nat) : BitVec 64 := if n < 2 ^ 64 then BitVec.ofNat 64 n else oversizeLength n

/-- The value a selector reads (R105, 10_state.md R31, R26). -/
def descriptor (b : PixelBuffer) : Selector → BitVec 64
  | .width => b.width.setWidth 64
  | .height => b.height.setWidth 64
  | .bitsPerPixel => 24#64
  | .hRes => b.hRes.setWidth 64
  | .vRes => b.vRes.setWidth 64
  | .length => lengthResult b.px.len

/-- `RDDESC` (R105). -/
def execRddesc (a : SlotNum) (sel : Selector) (s : State) : Result :=
  withSlot a s fun b => s.respond (descriptor b sel) noFlag

end Sys2Proof.Machine
end

