-- ==== Sys2Proof/Machine/Dispatch.lean ====
section
/-! DEFINITION. One arm per constructor of Instr. -/

namespace Sys2Proof.Machine

def exec (i : Instr) (s : State) : Host.Outcome State Fault Refusal :=
  match i with
  | .hbwr idx data => Sys2Proof.Machine.execHbwr idx data s
  | .hbrd idx => Sys2Proof.Machine.execHbrd idx s
  | .rdf off size => Sys2Proof.Machine.execRdf off size s
  | .wrf value off size => Sys2Proof.Machine.execWrf value off size s
  | .hparse a => Sys2Proof.Machine.execHparse a s
  | .hbuild a => Sys2Proof.Machine.execHbuild a s
  | .stride width => Sys2Proof.Machine.execStride width s
  | .padlen width => Sys2Proof.Machine.execPadlen width s
  | .init a width height bpp => Sys2Proof.Machine.execInit a width height bpp s
  | .clear a => Sys2Proof.Machine.execClear a s
  | .get a x y ch => Sys2Proof.Machine.execGet a x y ch s
  | .getpx a x y => Sys2Proof.Machine.execGetpx a x y s
  | .set a x y ch val => Sys2Proof.Machine.execSet a x y ch val s
  | .setpx a x y pix => Sys2Proof.Machine.execSetpx a x y pix s
  | .fill a ch val => Sys2Proof.Machine.execFill a ch val s
  | .invert a ch => Sys2Proof.Machine.execInvert a ch s
  | .clone b a => Sys2Proof.Machine.execClone b a s
  | .rddesc a sel => Sys2Proof.Machine.execRddesc a sel s
  | .addpx pa pb => Sys2Proof.Machine.execAddpx pa pb s
  | .overlay b a x y => Sys2Proof.Machine.execOverlay b a x y s
  | .mask b a x y pix => Sys2Proof.Machine.execMask b a x y pix s
  | .add b a x y => Sys2Proof.Machine.execAdd b a x y s

end Sys2Proof.Machine
end

