-- ==== Sys2Proof/Machine/Command.lean ====
section
/-! DEFINITION. One host input: a packet decoded and executed to completion, or the reset event. -/

namespace Sys2Proof.Machine

/-- Execute one packet (30_encoding.md R74): steps 1 to 3 raise IllegalCommand, the rest is the command's meaning. -/
def runPacket (w : Packet) (s : State) : Result :=
  match decode w with
  | .ok i => exec i s
  | .illegal _ => .next (s.raise .illegalCommand)

/-- One host input (00_scope.md R16, 70_reset_and_hazards.md R145). -/
def runInput (input : HostInput) (s : State) : Result :=
  match input with
  | .packet w => runPacket w s
  | .reset => .next s.afterReset

/-- One step: the host's oldest input, taken off the list; with no input the block is idle and holds its state
(60_exceptions.md R140, log 1). -/
def stepInput (s : State) : Result :=
  match s.pending with
  | [] => .next s
  | input :: rest => runInput input { s with pending := rest }

/-- The state a host input leads to, for the host's side of the interface. -/
def Result.stateOr (r : Result) (s : State) : State :=
  match r with
  | .next t => t
  | .fault _ => s
  | .refused _ => s

/-- The host issues one command and waits for its response (70_reset_and_hazards.md R149 item 1). -/
def issue (i : Instr) (s : State) : State := Result.stateOr (runPacket (encode i) s) s

/-- The host's inputs with a packet put before them. -/
def placePacket (w : Packet) (s : State) : State := { s with pending := .packet w :: s.pending }

end Sys2Proof.Machine
end

