-- ==== Sys2Proof/Machine/Step.lean ====
section
/-! DEFINITION. The step of the machine, and the word the host places for the next step. -/

namespace Sys2Proof.Machine

/-- One step: one whole command, one reset event, or an idle step (00_scope.md R16, 70_reset_and_hazards.md R146). -/
def step (s : State) : Host.Outcome State Fault Refusal := stepInput s

/-- The state in which the very next step runs the table word w: the host's next input is that packet (log 1). -/
def State.withFetchWord (s : State) (nbits w : Nat) : State := placePacket (packetOfTableWord nbits w) s

end Sys2Proof.Machine
end

