-- ==== Sys2Proof/Machine/Assembler.lean ====
section
/-! DEFINITION. The assembler syntax of 30_encoding.md R72: mnemonic, then the operands in the document's order. -/

namespace Sys2Proof.Machine

/-- One written operand (R72): a number, a slot, a channel, a selector or a pixel `px(r,g,b)`. -/
inductive AsmOperand where
  | num (n : Nat)
  | slot (a : SlotNum)
  | chan (c : Channel)
  | sel (s : Selector)
  | px (r g b : Nat)
  deriving DecidableEq, Repr

/-- One written command. -/
structure AsmLine where
  mnemonic : String
  operands : List AsmOperand
  deriving DecidableEq, Repr

/-- A pixel as an operand, in the document's r, g, b order. -/
def asmPixel (p : RgbPixel) : AsmOperand := .px p.r.toNat p.g.toNat p.b.toNat

/-- The written name of a command (R72). -/
def mnemonicOf : Opcode → String
  | .hbwr => "HBWR"
  | .hbrd => "HBRD"
  | .rdf => "RDF"
  | .wrf => "WRF"
  | .hparse => "HPARSE"
  | .hbuild => "HBUILD"
  | .stride => "STRIDE"
  | .padlen => "PADLEN"
  | .init => "INIT"
  | .clear => "CLEAR"
  | .get => "GET"
  | .getpx => "GETPX"
  | .set => "SET"
  | .setpx => "SETPX"
  | .fill => "FILL"
  | .invert => "INVERT"
  | .clone => "CLONE"
  | .rddesc => "RDDESC"
  | .addpx => "ADDPX"
  | .overlay => "OVERLAY"
  | .mask => "MASK"
  | .add => "ADD"

/-- The command with a written name; none for a name that R72 does not have. -/
def opcodeOfMnemonic (m : String) : Option Opcode := Opcode.all.find? (fun op => mnemonicOf op == m)

/-- The same for a name given as characters. -/
def opcodeOfName (m : List Char) : Option Opcode := Opcode.all.find? (fun op => (mnemonicOf op).toList == m)

/-- The operands of a command as R72 writes them. -/
def asmOperands : Instr → List AsmOperand
  | .hbwr idx data => [.num idx.toNat, .num data.toNat]
  | .hbrd idx => [.num idx.toNat]
  | .rdf off size => [.num off.toNat, .num size.toNat]
  | .wrf value off size => [.num value.toNat, .num off.toNat, .num size.toNat]
  | .hparse a => [.slot a]
  | .hbuild a => [.slot a]
  | .stride width => [.num width.toNat]
  | .padlen width => [.num width.toNat]
  | .init a width height bpp => [.slot a, .num width.toNat, .num height.toNat, .num bpp.toNat]
  | .clear a => [.slot a]
  | .get a x y ch => [.slot a, .num x.toNat, .num y.toNat, .chan ch]
  | .getpx a x y => [.slot a, .num x.toNat, .num y.toNat]
  | .set a x y ch val => [.slot a, .num x.toNat, .num y.toNat, .chan ch, .num val.toNat]
  | .setpx a x y pix => [.slot a, .num x.toNat, .num y.toNat, asmPixel pix]
  | .fill a ch val => [.slot a, .chan ch, .num val.toNat]
  | .invert a ch => [.slot a, .chan ch]
  | .clone b a => [.slot b, .slot a]
  | .rddesc a s => [.slot a, .sel s]
  | .addpx pa pb => [asmPixel pa, asmPixel pb]
  | .overlay b a x y => [.slot b, .slot a, .num x.toNat, .num y.toNat]
  | .mask b a x y pix => [.slot b, .slot a, .num x.toNat, .num y.toNat, asmPixel pix]
  | .add b a x y => [.slot b, .slot a, .num x.toNat, .num y.toNat]

/-- How R72 writes a command. -/
def asmOf (i : Instr) : AsmLine := { mnemonic := mnemonicOf i.opcode, operands := asmOperands i }

/-- A written number as a field of n bits; none when it does not fit. -/
def asmField (n v : Nat) : Option (BitVec n) := if v < 2 ^ n then some (BitVec.ofNat n v) else none

/-- A written pixel; none when a channel is above 255. -/
def asmPixelField (r g b : Nat) : Option RgbPixel := do
  let r' ← asmField 8 r
  let g' ← asmField 8 g
  let b' ← asmField 8 b
  return { r := r', g := g', b := b' }

/-- The command an opcode and its written operands stand for; none where the operands are not those R72 writes. -/
def assembleOperands (op : Opcode) (operands : List AsmOperand) : Option Instr :=
  match op, operands with
  | .hbwr, [.num i, .num d] => do return .hbwr (← asmField 8 i) (← asmField 8 d)
  | .hbrd, [.num i] => do return .hbrd (← asmField 8 i)
  | .rdf, [.num o, .num n] => do return .rdf (← asmField 8 o) (← asmField 8 n)
  | .wrf, [.num v, .num o, .num n] => do return .wrf (← asmField 32 v) (← asmField 8 o) (← asmField 8 n)
  | .hparse, [.slot a] => some (.hparse a)
  | .hbuild, [.slot a] => some (.hbuild a)
  | .stride, [.num w] => do return .stride (← asmField 32 w)
  | .padlen, [.num w] => do return .padlen (← asmField 32 w)
  | .init, [.slot a, .num w, .num h, .num d] => do
    return .init a (← asmField 32 w) (← asmField 32 h) (← asmField 16 d)
  | .clear, [.slot a] => some (.clear a)
  | .get, [.slot a, .num x, .num y, .chan c] => do return .get a (← asmField 32 x) (← asmField 32 y) c
  | .getpx, [.slot a, .num x, .num y] => do return .getpx a (← asmField 32 x) (← asmField 32 y)
  | .set, [.slot a, .num x, .num y, .chan c, .num v] => do
    return .set a (← asmField 32 x) (← asmField 32 y) c (← asmField 8 v)
  | .setpx, [.slot a, .num x, .num y, .px r g b] => do
    return .setpx a (← asmField 32 x) (← asmField 32 y) (← asmPixelField r g b)
  | .fill, [.slot a, .chan c, .num v] => do return .fill a c (← asmField 8 v)
  | .invert, [.slot a, .chan c] => some (.invert a c)
  | .clone, [.slot b, .slot a] => some (.clone b a)
  | .rddesc, [.slot a, .sel s] => some (.rddesc a s)
  | .rddesc, [.slot a, .num n] => do return .rddesc a (← Selector.ofCode (← asmField 3 n))
  | .addpx, [.px r g b, .px r' g' b'] => do return .addpx (← asmPixelField r g b) (← asmPixelField r' g' b')
  | .overlay, [.slot b, .slot a, .num x, .num y] => do return .overlay b a (← asmField 32 x) (← asmField 32 y)
  | .mask, [.slot b, .slot a, .num x, .num y, .px r g bl] => do
    return .mask b a (← asmField 32 x) (← asmField 32 y) (← asmPixelField r g bl)
  | .add, [.slot b, .slot a, .num x, .num y] => do return .add b a (← asmField 32 x) (← asmField 32 y)
  | _, _ => none

/-- The command a written line stands for; none for a line that R72 does not have. -/
def assemble (line : AsmLine) : Option Instr :=
  match opcodeOfMnemonic line.mnemonic with
  | some op => assembleOperands op line.operands
  | none => none

/-! ### From characters -/

/-- The characters of a line that belong to the command: up to a `;` or a `->`. -/
def commandChars : List Char → List Char
  | [] => []
  | c :: rest =>
    if c = ';' then []
    else if c = '-' ∧ rest.head? = some '>' then []
    else c :: commandChars rest

/-- One digit of a base. -/
def digitValue (base : Nat) (c : Char) : Option Nat :=
  let v := if '0' ≤ c ∧ c ≤ '9' then c.toNat - 48
    else if 'a' ≤ c ∧ c ≤ 'f' then c.toNat - 87
    else if 'A' ≤ c ∧ c ≤ 'F' then c.toNat - 55
    else base
  if v < base then some v else none

/-- Digits, most significant first; at least one. -/
def digitsValue (base : Nat) (cs : List Char) : Option Nat :=
  if cs = [] then none else cs.foldlM (fun n c => (digitValue base c).map (base * n + ·)) 0

/-- A number: decimal, or `0x` and hexadecimal digits. -/
def numberOf : List Char → Option Nat
  | '0' :: 'x' :: rest => digitsValue 16 rest
  | cs => digitsValue 10 cs

/-- Split at the commas that stand outside parentheses; the current piece is kept in reverse. -/
def splitOperands (inside : Bool) (piece : List Char) : List Char → List (List Char)
  | [] => [piece.reverse]
  | c :: rest =>
    if c = ',' ∧ inside = false then piece.reverse :: splitOperands false [] rest
    else splitOperands (if c = '(' then true else if c = ')' then false else inside) (c :: piece) rest

/-- One operand as R72 writes it. -/
def operandOf (cs : List Char) : Option AsmOperand :=
  if cs = ['B'] then some (.chan .blue)
  else if cs = ['G'] then some (.chan .green)
  else if cs = ['R'] then some (.chan .red)
  else if cs = "width".toList then some (.sel .width)
  else if cs = "height".toList then some (.sel .height)
  else if cs = "bpp".toList then some (.sel .bitsPerPixel)
  else if cs = "h_res".toList then some (.sel .hRes)
  else if cs = "v_res".toList then some (.sel .vRes)
  else if cs = "length".toList then some (.sel .length)
  else
    match cs with
    | 's' :: rest => do return .slot (← asmField 4 (← digitsValue 10 rest))
    | 'p' :: 'x' :: '(' :: rest =>
      match rest.reverse with
      | ')' :: inner =>
        match splitOperands false [] inner.reverse with
        | [r, g, b] => do return .px (← numberOf r) (← numberOf g) (← numberOf b)
        | _ => none
      | _ => none
    | _ => (numberOf cs).map .num

/-- A line of text as a mnemonic and its operands; spaces around them carry nothing. -/
def lineOf (text : List Char) : Option AsmLine :=
  let cs := (commandChars text).dropWhile (· = ' ')
  let name := cs.takeWhile (· ≠ ' ')
  let rest := (cs.dropWhile (· ≠ ' ')).filter (· ≠ ' ')
  match opcodeOfName name with
  | none => none
  | some op => do return { mnemonic := mnemonicOf op, operands := ← (splitOperands false [] rest).mapM operandOf }

/-- The command a line of text stands for (R72). -/
def assembleText (text : String) : Option Instr := do assemble (← lineOf text.toList)

end Sys2Proof.Machine
end

