-- ==== Sys2Proof/Machine/HostSequences.lean ====
section
/-! DEFINITION. The BMP file image and the two host sequences ENCODE_IMAGE and DECODE_IMAGE (45_file_image.md R120 to
R123), as functions over the commands. -/

namespace Sys2Proof.Machine

/-- What a host sequence ends with: ok, or an error kind in the code space of 60_exceptions.md R131 (R123). -/
inductive HostResult where
  | ok
  | error (code : BitVec 8)
  deriving DecidableEq, Repr

/-- A file the host reads: its bytes, and the offset of the first byte a read fails on for a reason other than the end
of the data, if there is one (R122, IoFailure; log 11). -/
structure FileSource where
  bytes : List Byte
  failsAt : Option Nat
  deriving DecidableEq, Repr

/-- A file that reads without failure. -/
def FileSource.ofBytes (f : List Byte) : FileSource := { bytes := f, failsAt := none }

/-- `F[i]`. -/
def FileSource.byte (f : FileSource) (i : Nat) : Byte := f.bytes.getD i 0#8

/-- What reading the bytes lo .. hi−1 fails with: IoFailure at a byte that cannot be read, UnexpectedEndOfData when the
file is shorter than hi. -/
def FileSource.readError (f : FileSource) (lo hi : Nat) : Option ErrorKind :=
  let short := if f.bytes.length < hi then some ErrorKind.unexpectedEndOfData else none
  match f.failsAt with
  | none => short
  | some k => if lo ≤ k ∧ k < min hi f.bytes.length then some .ioFailure else short

/-! ### ENCODE_IMAGE (R121) -/

/-- The block, the file bytes written so far, the `ERR` of every command issued (oldest first), and whether the sequence
still runs. -/
structure Encoding where
  block : State
  file : List Byte
  errs : List (BitVec 8)
  result : HostResult
  deriving DecidableEq, Repr

/-- Before the first command. -/
def Encoding.start (s : State) : Encoding := { block := s, file := [], errs := [], result := .ok }

/-- Issue the sequence's next command; a nonzero `ERR` ends the sequence (00_scope.md R18), with that code as the host's
report (R123). -/
def Encoding.send (i : Instr) (e : Encoding) : Encoding :=
  match e.result with
  | .error _ => e
  | .ok =>
    let s := issue i e.block
    { e with
      block := s
      errs := e.errs ++ [s.err]
      result := if s.err = 0#8 then .ok else .error s.err }

/-- Write file bytes taken from the response, unless the sequence has ended. -/
def Encoding.emit (bytes : State → List Byte) (e : Encoding) : Encoding :=
  match e.result with
  | .error _ => e
  | .ok => { e with file := e.file ++ bytes e.block }

/-- `HBRD i; F[i] <- RES`. -/
def encodeHeaderByte (e : Encoding) (i : Nat) : Encoding :=
  (e.send (.hbrd (BitVec.ofNat 8 i))).emit fun s => [s.res.setWidth 8]

/-- `GETPX sa, x, y -> p`, then its three bytes. -/
def encodePixel (a : SlotNum) (y : Nat) (e : Encoding) (x : Nat) : Encoding :=
  (e.send (.getpx a (BitVec.ofNat 32 x) (BitVec.ofNat 32 y))).emit fun s =>
    [s.res.extractLsb' 0 8, s.res.extractLsb' 8 8, s.res.extractLsb' 16 8]

/-- One row: its pixels, then pad bytes of 0. -/
def encodeRow (a : SlotNum) (w pad : Nat) (e : Encoding) (y : Nat) : Encoding :=
  ((List.range w).foldl (encodePixel a y) e).emit fun _ => List.replicate pad 0#8

/-- `ENCODE_IMAGE(a) -> F` (R121): rows from buffer row H−1 down to 0. R121 speaks of a legal `a` only. For a slot number
that names no slot `HBUILD` answers ERR = 8 and the sequence ends there (00_scope.md R18); that the host then reports
this code and holds the bytes written so far, none, is the model's choice (DESIGN CHOICE, log 11). -/
def encodeImage (a : SlotNum) (s : State) : Encoding :=
  let e := (List.range headerLength).foldl encodeHeaderByte ((Encoding.start s).send (.hbuild a))
  let e₁ := e.send (.rddesc a .width)
  let w := e₁.block.res.toNat
  let e₂ := e₁.send (.rddesc a .height)
  let h := e₂.block.res.toNat
  let e₃ := e₂.send (.stride (BitVec.ofNat 32 w))
  let e₄ := e₃.send (.padlen (BitVec.ofNat 32 w))
  let pad := e₄.block.res.toNat
  (List.range h).reverse.foldl (encodeRow a w pad) e₄

/-- What the host reports in the end: the error that ended the sequence, or IoFailure when its sink does not take all of
`F` (R121, R123). -/
def writeOut (sinkTakes : Nat) (e : Encoding) : HostResult :=
  match e.result with
  | .error c => .error c
  | .ok => if sinkTakes < e.file.length then .error ErrorKind.ioFailure.code else .ok

/-! ### DECODE_IMAGE (R122) -/

/-- `HBWR i, F[i]`. -/
def loadHeaderByte (f : FileSource) (s : State) (i : Nat) : State :=
  issue (.hbwr (BitVec.ofNat 8 i) (f.byte i)) s

/-- `SETPX sa, x, y, px(r,g,b)` with the pixel whose bytes stand at `at`, `at + 1`, `at + 2` plus 3·x. -/
def decodePixel (a : SlotNum) (f : FileSource) (rowAt y : Nat) (s : State) (x : Nat) : State :=
  issue (.setpx a (BitVec.ofNat 32 x) (BitVec.ofNat 32 y)
    { b := f.byte (rowAt + x * 3), g := f.byte (rowAt + x * 3 + 1), r := f.byte (rowAt + x * 3 + 2) }) s

/-- Step 10 from file row position H − n on, n rows left: file row f is buffer row H−1−f, that is row n − 1. -/
def decodeRows (a : SlotNum) (f : FileSource) (p w h stride : Nat) : Nat → State → State × HostResult
  | 0, s => (s, .ok)
  | n + 1, s =>
    let row := h - (n + 1)
    match f.readError (p + row * stride) (p + (row + 1) * stride) with
    | some e => (issue (.clear a) s, .error e.code)
    | none =>
      decodeRows a f p w h stride n ((List.range w).foldl (decodePixel a f (p + row * stride) (h - 1 - row)) s)

/-- `DECODE_IMAGE(a, F, L)` (R122). `HPARSE` is the only command of it that can answer a nonzero `ERR`, which ends the
sequence (00_scope.md R18): `HBWR` has an index below 54, and the later commands name the slot that `HPARSE` accepted. -/
def decodeImage (a : SlotNum) (f : FileSource) (s : State) : State × HostResult :=
  match f.readError 0 headerLength with
  | some e => (s, .error e.code)
  | none =>
    let s₁ := issue (.hparse a) ((List.range headerLength).foldl (loadHeaderByte f) s)
    if s₁.err ≠ 0#8 then (s₁, .error s₁.err)
    else
      let s₂ := issue (.rdf 10#8 4#8) s₁
      let p := s₂.res.toNat
      let s₃ := issue (.rddesc a .width) s₂
      let w := s₃.res.toNat
      let s₄ := issue (.rddesc a .height) s₃
      let h := s₄.res.toNat
      let s₅ := issue (.stride (BitVec.ofNat 32 w)) s₄
      decodeRows a f p w h s₅.res.toNat h s₅

/-! ### The layout (R120) -/

/-- A 32-bit size field of a header declares a size: it holds that number, as `HBUILD` writes it, or a signed number of
that magnitude, as `HPARSE` reads it (20_memory.md R49). -/
def declaresSize (field size : Nat) : Prop := field = size ∨ absI32 field = size

/-- A header block of a buffer that declares pixel-data offset p (20_memory.md R49): the fields that must hold one value,
the offset, and the buffer's size and resolutions. The fields that R49 gives no condition on input are free. -/
structure IsHeaderBlock (hb : Memory) (b : PixelBuffer) (p : Nat) : Prop where
  magic : hb.readLE 0 2 = 0x4D42
  offset : hb.readLE 10 4 = p
  dibSize : hb.readLE 14 4 = 40
  width : declaresSize (hb.readLE 18 4) b.width.toNat
  height : declaresSize (hb.readLE 22 4) b.height.toNat
  depth : hb.readLE 28 2 = 24
  hRes : hb.readLE 38 4 = b.hRes.toNat
  vRes : hb.readLE 42 4 = b.vRes.toNat

/-- A BMP file image of a buffer whose header declares pixel-data offset p (R120): all 54 bytes of the header block, every
pixel byte and every pad byte. -/
structure IsFileImage (f : List Byte) (hb : Memory) (b : PixelBuffer) (p : Nat) : Prop where
  block : IsHeaderBlock hb b p
  header : ∀ i < headerLength, f[i]? = some (hb.read i)
  pixels : ∀ row < b.height.toNat, ∀ k < b.width.toNat * 3,
    f[p + row * strideOf b.width.toNat + k]? =
      some (b.px.read (pixelIndex b.width.toNat 0 (b.height.toNat - 1 - row) 0 + k))
  padding : ∀ row < b.height.toNat, ∀ j < strideOf b.width.toNat - b.width.toNat * 3,
    f[p + row * strideOf b.width.toNat + b.width.toNat * 3 + j]? = some 0#8

end Sys2Proof.Machine
end

