-- ==== Sys2Proof/Machine/Ports.lean ====
section
/-! DEFINITION. The port view of the host interface (70_reset_and_hazards.md R148), one clock edge a step, around the
command-level machine. -/

namespace Sys2Proof.Machine

open Sys2Proof.Config

/-- The inputs sampled at a rising edge of `clk` (R148). -/
structure PortIn where
  rst : Bool
  cmdValid : Bool
  cmd : Packet
  deriving DecidableEq, Repr

/-- The outputs (R148). -/
structure PortOut where
  cmdReady : Bool
  rspValid : Bool
  rspErr : BitVec 8
  rspFlag : Bool
  rspRes : BitVec 64
  deriving DecidableEq, Repr

/-- A packet that has been taken, and the cycles left until its response. -/
structure Executing where
  packet : Packet
  cyclesLeft : Nat
  deriving DecidableEq, Repr

/-- The block behind its ports. -/
structure PortState where
  block : State
  executing : Option Executing
  /-- `rsp_valid`, 1 for one cycle. -/
  rspValid : Bool
  /-- The MODEL's own counter of packets taken: it draws the free number of cycles (log 12). -/
  taken : Nat
  deriving DecidableEq, Repr

/-- The outputs in a state: `cmd_ready` is 0 while a packet executes; the response registers hold their values. -/
def portOutputs (p : PortState) : PortOut where
  cmdReady := p.executing.isNone
  rspValid := p.rspValid
  rspErr := p.block.err
  rspFlag := p.block.flag
  rspRes := p.block.res

/-- A reset edge: the reset state, the packet that was executing discarded (R145). -/
def resetEdge (p : PortState) : PortState :=
  { p with block := p.block.afterReset, executing := none, rspValid := false }

/-- The command ends: its whole effect and its response at once (R146). -/
def finishEdge (p : PortState) (w : Packet) : PortState :=
  { p with block := Result.stateOr (runPacket w p.block) p.block, executing := none, rspValid := true }

/-- A packet is taken; it executes for a free number of cycles. -/
def takeEdge (p : PortState) (w : Packet) : PortState :=
  { p with
    executing := some { packet := w, cyclesLeft := commandCycles p.taken }
    rspValid := false
    taken := p.taken + 1 }

/-- One rising edge of `clk` (R148); reset comes first (R145, log 12). -/
def clockEdge (p : PortState) (i : PortIn) : PortState :=
  if i.rst then resetEdge p
  else
    match p.executing with
    | some { packet := w, cyclesLeft := 0 } => finishEdge p w
    | some { packet := w, cyclesLeft := n + 1 } =>
      { p with executing := some { packet := w, cyclesLeft := n }, rspValid := false }
    | none => if i.cmdValid then takeEdge p i.cmd else { p with rspValid := false }

/-- A run of clock edges. -/
def clockEdges (p : PortState) : List PortIn → PortState
  | [] => p
  | i :: rest => clockEdges (clockEdge p i) rest

end Sys2Proof.Machine
end

