-- ==== Sys2Proof/Safety.lean ====
section
/-! DEFINITION. What counts as a safe state and a safe run: the invariant of 10_state.md R25 with the canonical form of
memory, the codes `ERR` can hold and which command raises which (60_exceptions.md R131), and which command may write
which part of the state (10_state.md R21, R24). -/

namespace Sys2Proof

/-- The slot a command may write (10_state.md R24): `A` of the commands that write a slot, none for the others. -/
def Instr.destSlot : Instr → Option SlotNum
  | .hbwr _ _ => none
  | .hbrd _ => none
  | .rdf _ _ => none
  | .wrf _ _ _ => none
  | .hparse a => some a
  | .hbuild _ => none
  | .stride _ => none
  | .padlen _ => none
  | .init a _ _ _ => some a
  | .clear a => some a
  | .get _ _ _ _ => none
  | .getpx _ _ _ => none
  | .set a _ _ _ _ => some a
  | .setpx a _ _ _ => some a
  | .fill a _ _ => some a
  | .invert a _ => some a
  | .clone _ a => some a
  | .rddesc _ _ => none
  | .addpx _ _ => none
  | .overlay _ a _ _ => some a
  | .mask _ a _ _ _ => some a
  | .add _ a _ _ => some a

/-- The commands that write `HB`: `HBWR`, `WRF`, `HBUILD` (10_state.md R21). -/
def Instr.writesHeader : Instr → Bool
  | .hbwr _ _ => true
  | .wrf _ _ _ => true
  | .hbuild _ => true
  | .hbrd _ => false
  | .rdf _ _ => false
  | .hparse _ => false
  | .stride _ => false
  | .padlen _ => false
  | .init _ _ _ _ => false
  | .clear _ => false
  | .get _ _ _ _ => false
  | .getpx _ _ _ => false
  | .set _ _ _ _ _ => false
  | .setpx _ _ _ _ => false
  | .fill _ _ _ => false
  | .invert _ _ => false
  | .clone _ _ => false
  | .rddesc _ _ => false
  | .addpx _ _ => false
  | .overlay _ _ _ _ => false
  | .mask _ _ _ _ _ => false
  | .add _ _ _ _ => false

/-- The error kinds a command can raise (60_exceptions.md R131, the column raised by, with code 8 for a slot number
that names no slot). -/
def Instr.errorKinds : Instr → List Machine.ErrorKind
  | .hbwr _ _ => [.fieldOutOfBounds]
  | .hbrd _ => [.fieldOutOfBounds]
  | .rdf _ _ => [.fieldSizeOutOfRange, .fieldOutOfBounds]
  | .wrf _ _ _ => [.fieldSizeOutOfRange, .fieldOutOfBounds]
  | .hparse _ =>
    [.illegalCommand, .invalidMagicNumber, .unsupportedHeaderVersion, .unsupportedPixelDepth, .capacityExceeded]
  | .hbuild _ => [.illegalCommand]
  | .stride _ => []
  | .padlen _ => []
  | .init _ _ _ _ => [.illegalCommand, .unsupportedPixelDepth, .capacityExceeded]
  | .clear _ => [.illegalCommand]
  | .get _ _ _ _ => [.illegalCommand]
  | .getpx _ _ _ => [.illegalCommand]
  | .set _ _ _ _ _ => [.illegalCommand]
  | .setpx _ _ _ _ => [.illegalCommand]
  | .fill _ _ _ => [.illegalCommand]
  | .invert _ _ => [.illegalCommand]
  | .clone _ _ => [.illegalCommand, .aliasedOperands]
  | .rddesc _ _ => [.illegalCommand]
  | .addpx _ _ => []
  | .overlay _ _ _ _ => [.illegalCommand, .aliasedOperands]
  | .mask _ _ _ _ _ => [.illegalCommand, .aliasedOperands]
  | .add _ _ _ _ => [.illegalCommand, .aliasedOperands]

end Sys2Proof

namespace Sys2Proof.Machine

open Sys2Proof.Config

/-- Every listed address of a memory is below n. -/
abbrev Memory.below (n : Nat) (m : Memory) : Prop := ∀ c ∈ m, c.1 < n

/-- A byte sequence in canonical form: nothing is stored outside its length. -/
abbrev ByteSeq.wf (q : ByteSeq) : Prop := Memory.wf q.cells ∧ Memory.below q.len q.cells

/-- R25: `len(px) = width · height · 3` and `len(px) ≤ CAP`. -/
abbrev PixelBuffer.Inv (cap : Nat) (b : PixelBuffer) : Prop :=
  b.px.len = b.width.toNat * b.height.toNat * 3 ∧ b.px.len ≤ cap ∧ b.px.wf

/-- The invariant: parameters in range, 54 header bytes, `NBUF` slots, each a legal PixelBuffer. -/
abbrev State.Inv (s : State) : Prop :=
  s.params.Valid ∧ Memory.wf s.hb ∧ Memory.below headerLength s.hb ∧
    s.slots.length = s.params.nbuf ∧ ∀ b ∈ s.slots, PixelBuffer.Inv s.params.cap b

/-- `ERR` after a command is one of 0, 1, 2, 3, 6, 7, 8, 9, 10 (60_exceptions.md R131). -/
abbrev State.errLegal (s : State) : Prop := s.err ∈ [0#8, 1#8, 2#8, 3#8, 6#8, 7#8, 8#8, 9#8, 10#8]

/-- An error response carries no result: `FLAG = 0` and `RES = 0` when `ERR ≠ 0` (10_state.md R30). -/
abbrev State.errorClean (s : State) : Prop := s.err ≠ 0#8 → s.flag = false ∧ s.res = 0#64

/-! ### What a command leaves: the words of the statements -/

/-- Width, height, resolutions and storage length are equal. -/
def PixelBuffer.SameShape (b d : PixelBuffer) : Prop :=
  d.width = b.width ∧ d.height = b.height ∧ d.hRes = b.hRes ∧ d.vRes = b.vRes ∧ d.px.len = b.px.len

/-- Nothing but the response registers may differ. -/
def OnlyResponse (s t : State) : Prop :=
  t.params = s.params ∧ t.hb = s.hb ∧ t.slots = s.slots ∧ t.pending = s.pending

/-- Nothing but `HB` and the response registers may differ. -/
def OnlyHeader (s t : State) : Prop :=
  t.params = s.params ∧ t.slots = s.slots ∧ t.pending = s.pending

/-- Nothing but `slot[a]` and the response registers may differ. -/
def OnlySlot (a : SlotNum) (s t : State) : Prop :=
  t.params = s.params ∧ t.hb = s.hb ∧ t.pending = s.pending ∧ t.slots.length = s.slots.length ∧
    ∀ c, c ≠ a → t.slot c = s.slot c

/-- The command answers a next state with `ERR` = 0, the given `RES` and `FLAG`, and the given property. -/
def Succeeds (r : Result) (res : BitVec 64) (flag : Bool) (P : State → Prop) : Prop :=
  ∃ t, r = .next t ∧ t.err = 0#8 ∧ t.flag = flag ∧ t.res = res ∧ P t

/-- The command answers a next state with an error code, and changes nothing but the response (00_scope.md R12). -/
def Raises (r : Result) (s : State) (code : BitVec 8) : Prop :=
  ∃ t, r = .next t ∧ t.err = code ∧ t.flag = false ∧ t.res = 0#64 ∧ OnlyResponse s t

/-- The command's packet carries the opcode in bits 7:0 and decodes to the command (30_encoding.md R61, R62). -/
def EncodedAs (i : Instr) (op : BitVec 8) : Prop :=
  decode (encode i) = .ok i ∧ (encode i).extractLsb' 0 8 = op

/-- The n header bytes at an offset, little-endian (00_scope.md R11). -/
def leField (s : State) (offset n : Nat) : Nat :=
  ∑ k ∈ Finset.range n, (s.hbByte (offset + k)).toNat * 256 ^ k

/-- The magnitude of a two's-complement 32-bit field (00_scope.md R8, R9). -/
def signedMagnitude (v : Nat) : Nat := if v < 2 ^ 31 then v else 2 ^ 32 - v

/-- `inrange` (42_pixel_buffer.md R97). -/
def InRange (b : PixelBuffer) (x y : Nat) : Prop := x < b.width.toNat ∧ y < b.height.toNat

/-- The storage position of channel number c of pixel (x, y) (10_state.md R27). -/
def storageIndex (b : PixelBuffer) (x y c : Nat) : Nat := (y * b.width.toNat + x) * 3 + c

/-- The number of a channel (30_encoding.md R67). -/
def channelNumber : Channel → Nat
  | .blue => 0
  | .green => 1
  | .red => 2

/-- The pixel whose three bytes stand at (x, y) (10_state.md R27, 20_memory.md R42). -/
def storedPixel (b : PixelBuffer) (x y : Nat) : RgbPixel where
  r := b.px.read (storageIndex b x y 2)
  g := b.px.read (storageIndex b x y 1)
  b := b.px.read (storageIndex b x y 0)

/-- Some source pixel placed at offset (x, y) falls on (dx, dy) (43_compositor.md R112). -/
def Covers (source : PixelBuffer) (x y dx dy : Nat) : Prop :=
  x ≤ dx ∧ dx < x + source.width.toNat ∧ y ≤ dy ∧ dy < y + source.height.toNat

/-- The closed form of the clip flag (43_compositor.md R112). -/
def geometricClip (source dest : PixelBuffer) (x y : Nat) : Bool :=
  decide (0 < source.width.toNat ∧ 0 < source.height.toNat ∧
    (dest.width.toNat < x + source.width.toNat ∨ dest.height.toNat < y + source.height.toNat))

/-- A composite's effect on the destination (43_compositor.md R112): covered pixels become `f` of the source pixel and
the old pixel, every other pixel keeps its value, and so does every position outside the storage. -/
def Composited (f : RgbPixel → RgbPixel → RgbPixel) (source dest new : PixelBuffer) (x y : Nat) : Prop :=
  dest.SameShape new ∧
  (∀ dx dy, InRange dest dx dy → Covers source x y dx dy →
    storedPixel new dx dy = f (storedPixel source (dx - x) (dy - y)) (storedPixel dest dx dy)) ∧
  (∀ dx dy, InRange dest dx dy → ¬ Covers source x y dx dy → storedPixel new dx dy = storedPixel dest dx dy) ∧
  ∀ i, dest.px.len ≤ i → new.px.read i = dest.px.read i

/-- A safe state: the invariant holds and the response is one the block can give. -/
abbrev State.Safe (s : State) : Prop := s.Inv ∧ s.errLegal ∧ s.errorClean

end Sys2Proof.Machine
end

