-- ==== Sys2Proof/Certificates/Slice0/Obligations.lean ====
section
/-! DEFINITION. The statements for the provers. Error codes are those of 60_exceptions.md R131: 1 InvalidMagicNumber,
2 UnsupportedHeaderVersion, 3 UnsupportedPixelDepth, 6 FieldSizeOutOfRange, 7 FieldOutOfBounds, 8 IllegalCommand,
9 CapacityExceeded, 10 AliasedOperands. -/

namespace Sys2Proof.Spec

open Sys2Proof.Machine

/-! ### The spec's tables, written again for the statements -/

/-- The operand fields of each command as (lowest bit, width), from 30_encoding.md R61 and R62's column fields used. -/
def operandFields : Opcode → List (Nat × Nat)
  | .hbwr => [(8, 8), (32, 8)]
  | .hbrd => [(8, 8)]
  | .rdf => [(8, 8), (16, 8)]
  | .wrf => [(8, 8), (16, 8), (32, 32)]
  | .hparse => [(8, 4)]
  | .hbuild => [(8, 4)]
  | .stride => [(32, 32)]
  | .padlen => [(32, 32)]
  | .init => [(8, 4), (32, 32), (64, 32), (96, 16)]
  | .clear => [(8, 4)]
  | .get => [(8, 4), (16, 2), (32, 32), (64, 32)]
  | .getpx => [(8, 4), (32, 32), (64, 32)]
  | .set => [(8, 4), (16, 2), (32, 32), (64, 32), (96, 8)]
  | .setpx => [(8, 4), (32, 32), (64, 32), (96, 24)]
  | .fill => [(8, 4), (16, 2), (96, 8)]
  | .invert => [(8, 4), (16, 2)]
  | .clone => [(8, 4), (12, 4)]
  | .rddesc => [(8, 4), (20, 3)]
  | .addpx => [(32, 24), (64, 24)]
  | .overlay => [(8, 4), (12, 4), (32, 32), (64, 32)]
  | .mask => [(8, 4), (12, 4), (32, 32), (64, 32), (96, 24)]
  | .add => [(8, 4), (12, 4), (32, 32), (64, 32)]

/-- A bit of a command's packet that is neither opcode nor operand (R64). -/
def isReservedBit (op : Opcode) (i : Nat) : Prop :=
  8 ≤ i ∧ i < 128 ∧ ∀ f ∈ operandFields op, ¬(f.1 ≤ i ∧ i < f.1 + f.2)

/-- The commands that use `CH` (R62). -/
def usesChannel : List Opcode := [.get, .set, .fill, .invert]

/-- The commands that use `A` (R62). -/
def usesA : List Opcode :=
  [.hparse, .hbuild, .init, .clear, .get, .getpx, .set, .setpx, .fill, .invert, .clone, .rddesc, .overlay, .mask, .add]

/-- The commands that use `B`, which use `A` as well (R62). -/
def usesB : List Opcode := [.clone, .overlay, .mask, .add]

/-- R74 steps 1 to 5 on the raw fields: the error code of the first failing check, none where all pass. -/
def packetError (nbuf : Nat) (w : Packet) : Option (BitVec 8) :=
  match Opcode.all.find? (fun op => op.code == w.extractLsb' 0 8) with
  | none => some 8#8
  | some op =>
    if w &&& op.reservedMask ≠ op.code.setWidth 128 then some 8#8
    else if op ∈ usesChannel ∧ w.extractLsb' 16 2 = 3#2 then some 8#8
    else if op = .rddesc ∧ 6 ≤ (w.extractLsb' 20 3).toNat then some 8#8
    else if op ∈ usesA ∧ nbuf ≤ (w.extractLsb' 8 4).toNat then some 8#8
    else if op ∈ usesB ∧ nbuf ≤ (w.extractLsb' 12 4).toNat then some 8#8
    else if op ∈ usesB ∧ w.extractLsb' 8 4 = w.extractLsb' 12 4 then some 10#8
    else none

/-- The reserved opcodes of R69. -/
def isReservedOpcode (n : Nat) : Prop :=
  n = 0x00 ∨ (0x07 ≤ n ∧ n ≤ 0x0F) ∨ (0x12 ≤ n ∧ n ≤ 0x1F) ∨ (0x2A ≤ n ∧ n ≤ 0x2F) ∨ (0x34 ≤ n ∧ n ≤ 0xFF)

/-- The header bytes `HPARSE` reads (R85). -/
def parsedByte (i : Nat) : Prop := i ≤ 1 ∨ (14 ≤ i ∧ i ≤ 25) ∨ (28 ≤ i ∧ i ≤ 29) ∨ (38 ≤ i ∧ i ≤ 45)

/-- The commands that can raise nothing beyond the decode errors (R132). -/
def cannotFail : List Opcode :=
  [.hbuild, .stride, .padlen, .clear, .get, .getpx, .set, .setpx, .fill, .invert, .rddesc, .addpx]

/-- The commands without side effects (R48). -/
def readOnly : List Opcode := [.hbrd, .rdf, .get, .getpx, .rddesc, .stride, .padlen, .addpx]

end Sys2Proof.Spec

open Sys2Proof Sys2Proof.Machine Sys2Proof.Spec

/-! ## Encoding and decoding -/

/-- Decoding an encoded command gives it back, with every operand at every value (R61, R62, R65). -/
def Obligations.DecodeOfEncodeIsIdentity : Prop :=
  ∀ i : Instr, decode (encode i) = .ok i

/-- A packet that decodes to a command is that command's packet: each command has exactly one packet (R60, R64). -/
def Obligations.EncodeOfDecodeIsIdentity : Prop :=
  ∀ (w : Packet) (i : Instr), decode w = .ok i → encode i = w

/-- Packets written out in the spec's test vectors and rules decode to the commands they stand for. -/
def Obligations.SpecPacketsDecodeAsWritten : Prop :=
  decode 0x00000000000000000000004600040204#128 = .ok (.wrf 70#32 2#8 4#8) ∧
  decode 0x00000000000000000000000500000011#128 = .ok (.padlen 5#32) ∧
  decode 0x00000018000000020000000300000020#128 = .ok (.init 0#4 3#32 2#32 24#16) ∧
  decode 0x0000007F000000000000000200010024#128 = .ok (.set 0#4 2#32 0#32 .green 0x7F#8) ∧
  decode 0x00000000000000000000000000500129#128 = .ok (.rddesc 1#4 .length) ∧
  decode 0x00010101000000000000000200001032#128 = .ok (.mask 1#4 0#4 2#32 0#32 { r := 1#8, g := 1#8, b := 1#8 })

/-- R74: the checks of steps 1 to 5 decide the error in the order written; a packet that passes them all is one
well-formed command, and its meaning runs. -/
def Obligations.PacketChecksRunInSpecOrder : Prop :=
  ∀ (s : State) (w : Packet),
    match packetError s.params.nbuf w with
    | some code => Raises (runPacket w s) s code
    | none => ∃ i, decode w = .ok i ∧ i.wellFormed s.params.nbuf = true ∧ runPacket w s = exec i s

/-- R69: every reserved opcode, the all-zero packet among them, and `RDDESC` with selector 6 or 7 raise IllegalCommand. -/
def Obligations.ReservedOpcodesAreIllegal : Prop :=
  (∀ (s : State) (w : Packet), isReservedOpcode (w.extractLsb' 0 8).toNat → Raises (runPacket w s) s 8#8) ∧
  (∀ s : State, Raises (runPacket 0#128 s) s 8#8) ∧
  (∀ (s : State) (w : Packet), w.extractLsb' 0 8 = 0x29#8 →
    (w.extractLsb' 20 3 = 6#3 ∨ w.extractLsb' 20 3 = 7#3) → Raises (runPacket w s) s 8#8)

/-- R64: every bit that a command's row does not list as a field is reserved, and a packet that sets one raises
IllegalCommand and does nothing else. -/
def Obligations.ReservedBitsAreIllegal : Prop :=
  ∀ (s : State) (w : Packet) (op : Opcode) (i : Nat), w.extractLsb' 0 8 = op.code → isReservedBit op i →
    w.getLsbD i = true → Raises (runPacket w s) s 8#8

/-- R68 with R116: a slot number that names no slot raises IllegalCommand; two equal slots of a two-slot command raise
AliasedOperands, before any state is touched. -/
def Obligations.BadSlotOperandsRaise : Prop :=
  ∀ (s : State) (i : Instr),
    (i.slotsExist s.params.nbuf = false → Raises (exec i s) s 8#8) ∧
    (i.slotsExist s.params.nbuf = true → i.slotsDiffer = false → Raises (exec i s) s 10#8) ∧
    (i.slotsDiffer = false ↔ ∃ (a : SlotNum) (x y : Word32) (key : RgbPixel),
      i = .clone a a ∨ i = .overlay a a x y ∨ i = .mask a a x y key ∨ i = .add a a x y)

/-- R66: blue in bits 7:0, green in 15:8, red in 23:16, and two pixels are equal exactly when their packed numbers are. -/
def Obligations.PixelPackingIsRedGreenBlue : Prop :=
  (∀ p : RgbPixel, p.pack.extractLsb' 0 8 = p.b ∧ p.pack.extractLsb' 8 8 = p.g ∧ p.pack.extractLsb' 16 8 = p.r ∧
    p.pack.toNat = p.r.toNat * 65536 + p.g.toNat * 256 + p.b.toNat ∧ RgbPixel.unpack p.pack = p) ∧
  ∀ p q : RgbPixel, p.pack = q.pack ↔ p = q

/-- R43 and R71: byte k of a transfer is `CMD[8k+7:8k]`, and the sixteen bytes carry the whole packet; the response as one
number of 80 bits. -/
def Obligations.PacketBytesAndResponseNumber : Prop :=
  (∀ w : Packet, (packetBytes w).length = 16 ∧
    (∀ k < 16, (packetBytes w)[k]? = some (w.extractLsb' (8 * k) 8)) ∧ packetOfBytes (packetBytes w) = w) ∧
  ∀ s : State, s.rsp.extractLsb' 0 64 = s.res ∧ s.rsp.extractLsb' 64 1 = BitVec.ofBool s.flag ∧
    s.rsp.extractLsb' 65 7 = 0#7 ∧ s.rsp.extractLsb' 72 8 = s.err

/-- R72: assembling the written form of a command gives the command. -/
def Obligations.AssembleOfWrittenCommandIsIdentity : Prop :=
  ∀ i : Instr, assemble (asmOf i) = some i

/-! ## The step -/

/-- A step runs the decoded instruction: when the host's next input is a packet that decodes to i, the step is exec of i
in the state with that input taken; and the word the host places is run by the very next step. -/
def Obligations.StepRunsDecodedCommand : Prop :=
  (∀ (s : State) (w : Packet) (rest : List HostInput) (i : Instr), s.pending = .packet w :: rest → decode w = .ok i →
    step s = exec i { s with pending := rest }) ∧
  (∀ (s : State) (w : Nat) (i : Instr), w < 2 ^ 128 → decodeTableWord 128 w = some i →
    step (s.withFetchWord 128 w) = exec i s)

/-- R145: a reset input gives the reset state whatever went before (log 8 says where it lands between commands), and with no
input the block holds its state (R140; log 1). At the ports: while reset is asserted, and until the first packet after it,
the state is the reset state, and a packet that was executing is discarded. -/
def Obligations.ResetGivesResetState : Prop :=
  (∀ (s : State) (rest : List HostInput), s.pending = .reset :: rest →
    step s = .next { State.resetWith s.params with pending := rest }) ∧
  (∀ s : State, s.pending = [] → step s = .next s) ∧
  ∀ (p : PortState) (i : PortIn) (rest : List PortIn), i.rst = true →
    (∀ j ∈ rest, j.rst = true ∨ j.cmdValid = false) →
    (clockEdges p (i :: rest)).block = { State.resetWith p.block.params with pending := p.block.pending } ∧
    (clockEdges p (i :: rest)).executing = none

/-- R12: every packet answers a next state, and one that raises changes nothing but the response: `ERR` holds the code of
an error kind, `FLAG` = 0, `RES` = 0. -/
def Obligations.EveryPacketAnswersAndErrorsChangeNothing : Prop :=
  ∀ (s : State) (w : Packet), ∃ t, runPacket w s = .next t ∧
    (t.err = 0#8 ∨ ∃ e : ErrorKind, t.err = e.code ∧ t.flag = false ∧ t.res = 0#64 ∧ OnlyResponse s t)

/-- R131, the column raised by: a command that answers with an error answers with one of its own kinds. -/
def Obligations.CommandsRaiseOnlyTheirErrors : Prop :=
  ∀ (s t : State) (i : Instr), exec i s = .next t → t.err = 0#8 ∨ ∃ e ∈ i.errorKinds, t.err = e.code

/-- R132: twelve commands raise nothing once their slot exists, and three of them name no slot. -/
def Obligations.TwelveCommandsCannotFail : Prop :=
  (∀ (s : State) (i : Instr), i.opcode ∈ cannotFail → i.slotsExist s.params.nbuf = true →
    ∃ t, exec i s = .next t ∧ t.err = 0#8) ∧
  (∀ (s : State) (i : Instr), i.opcode ∈ [Opcode.addpx, .stride, .padlen] → ∃ t, exec i s = .next t ∧ t.err = 0#8)

/-- R137: the next command runs normally whatever the response registers hold, and overwrites them. -/
def Obligations.ResponseIsNeverRead : Prop :=
  ∀ (s : State) (w : Packet) (e : BitVec 8) (f : Bool) (r : BitVec 64),
    runPacket w { s with err := e, flag := f, res := r } = runPacket w s

/-- R25: the invariant (storage length = width · height · 3, at most CAP, with the canonical form of memory) is kept by
every step. -/
def Obligations.StepKeepsStorageInvariant : Prop :=
  ∀ s t : State, s.Inv → step s = .next t → t.Inv

/-- The reset state of every block with legal parameters meets the invariant (R25). -/
def Obligations.ResetMeetsStorageInvariant : Prop :=
  ∀ p : Config.Params, p.Valid → (State.resetWith p).Inv

/-- R131 and R30: `ERR` is always one of 0, 1, 2, 3, 6, 7, 8, 9, 10, and an error response carries `FLAG` = 0, `RES` = 0. -/
def Obligations.StepKeepsResponseLegal : Prop :=
  ∀ s t : State, s.errLegal → s.errorClean → step s = .next t → t.errLegal ∧ t.errorClean

/-- R31: nothing configures the block at run time: no step changes a parameter. -/
def Obligations.StepKeepsParameters : Prop :=
  ∀ s t : State, step s = .next t → t.params = s.params

/-- R34: the reset values, and what `RDDESC` reads of a slot after reset, for every choice of the parameters. -/
def Obligations.ResetStateIsZeroAndEmpty : Prop :=
  ∀ p : Config.Params,
    (∀ i, (State.resetWith p).hbByte i = 0#8) ∧
    (State.resetWith p).slots.length = p.nbuf ∧
    (State.resetWith p).err = 0#8 ∧ (State.resetWith p).flag = false ∧ (State.resetWith p).res = 0#64 ∧
    ∀ a : SlotNum, slotExists p.nbuf a = true →
      (State.resetWith p).slot a = PixelBuffer.empty ∧
      Succeeds (exec (.rddesc a .width) (State.resetWith p)) 0#64 false (OnlyResponse (State.resetWith p)) ∧
      Succeeds (exec (.rddesc a .height) (State.resetWith p)) 0#64 false (OnlyResponse (State.resetWith p)) ∧
      Succeeds (exec (.rddesc a .bitsPerPixel) (State.resetWith p)) 24#64 false (OnlyResponse (State.resetWith p)) ∧
      Succeeds (exec (.rddesc a .hRes) (State.resetWith p)) 0#64 false (OnlyResponse (State.resetWith p)) ∧
      Succeeds (exec (.rddesc a .vRes) (State.resetWith p)) 0#64 false (OnlyResponse (State.resetWith p)) ∧
      Succeeds (exec (.rddesc a .length) (State.resetWith p)) 0#64 false (OnlyResponse (State.resetWith p))

/-! ## What a command may touch -/

/-- R28: writing one slot changes no other slot and no header byte. -/
def Obligations.OnlyTheNamedSlotChanges : Prop :=
  ∀ (s t : State) (i : Instr), exec i s = .next t →
    (∀ c, i.destSlot ≠ some c → t.slot c = s.slot c) ∧ (i.destSlot ≠ none → t.hb = s.hb)

/-- R21: `HB` is written by `HBWR`, `WRF` and `HBUILD`; no other command touches it. -/
def Obligations.OnlyHeaderWritersChangeHeader : Prop :=
  ∀ (s t : State) (i : Instr), exec i s = .next t → i.writesHeader = false → t.hb = s.hb

/-- R48: the eight commands without side effects change nothing but the response, and repeating one changes nothing. -/
def Obligations.ReadOnlyCommandsRepeat : Prop :=
  ∀ (s t : State) (i : Instr), i.opcode ∈ readOnly → exec i s = .next t → OnlyResponse s t ∧ exec i t = .next t

/-! ## The header codec -/

/-- R80. -/
def Obligations.HbwrWritesOneHeaderByte : Prop :=
  ∀ (s : State) (idx data : Byte), s.Inv →
    EncodedAs (.hbwr idx data) 0x01#8 ∧
    (54 ≤ idx.toNat → Raises (exec (.hbwr idx data) s) s 7#8) ∧
    (idx.toNat < 54 → Succeeds (exec (.hbwr idx data) s) 0#64 false fun t =>
      OnlyHeader s t ∧ ∀ i, t.hbByte i = if i = idx.toNat then data else s.hbByte i) ∧
    exec (.hbwr idx data) s = exec (.wrf (data.setWidth 32) idx 1#8) s

/-- R81. -/
def Obligations.HbrdReadsOneHeaderByte : Prop :=
  ∀ (s : State) (idx : Byte),
    EncodedAs (.hbrd idx) 0x02#8 ∧
    (54 ≤ idx.toNat → Raises (exec (.hbrd idx) s) s 7#8) ∧
    (idx.toNat < 54 → Succeeds (exec (.hbrd idx) s) ((s.hbByte idx.toNat).setWidth 64) false (OnlyResponse s)) ∧
    exec (.hbrd idx) s = exec (.rdf idx 1#8) s

/-- R82: the size check, then the bounds check, then the little-endian sum. -/
def Obligations.RdfReadsLittleEndianField : Prop :=
  ∀ (s : State) (off size : Byte),
    EncodedAs (.rdf off size) 0x03#8 ∧
    (4 < size.toNat → Raises (exec (.rdf off size) s) s 6#8) ∧
    (size.toNat ≤ 4 → 54 < off.toNat + size.toNat → Raises (exec (.rdf off size) s) s 7#8) ∧
    (size.toNat ≤ 4 → off.toNat + size.toNat ≤ 54 →
      ∃ v : BitVec 64, v.toNat = leField s off.toNat size.toNat ∧ v.toNat < 256 ^ size.toNat ∧
        Succeeds (exec (.rdf off size) s) v false (OnlyResponse s))

/-- R83: the low `SIZE` bytes of `VALUE`, least significant first, and no other byte. -/
def Obligations.WrfWritesLittleEndianField : Prop :=
  ∀ (s : State) (value : Word32) (off size : Byte), s.Inv →
    EncodedAs (.wrf value off size) 0x04#8 ∧
    (4 < size.toNat → Raises (exec (.wrf value off size) s) s 6#8) ∧
    (size.toNat ≤ 4 → 54 < off.toNat + size.toNat → Raises (exec (.wrf value off size) s) s 7#8) ∧
    (size.toNat ≤ 4 → off.toNat + size.toNat ≤ 54 →
      Succeeds (exec (.wrf value off size) s) 0#64 false fun t => OnlyHeader s t ∧
        (∀ k < size.toNat, t.hbByte (off.toNat + k) = value.extractLsb' (8 * k) 8) ∧
        (∀ i, (i < off.toNat ∨ off.toNat + size.toNat ≤ i) → t.hbByte i = s.hbByte i) ∧
        leField t off.toNat size.toNat = value.toNat % 256 ^ size.toNat)

/-- R89 (1) and (2): a field written reads back as v mod 256^n, and a field is the sum of its bytes read one by one. -/
def Obligations.FieldWriteReadsBack : Prop :=
  ∀ (s : State) (value : Word32) (off size : Byte), s.Inv → size.toNat ≤ 4 → off.toNat + size.toNat ≤ 54 →
    (∃ t, exec (.wrf value off size) s = .next t ∧ t.err = 0#8 ∧
      ∃ u, exec (.rdf off size) t = .next u ∧ u.err = 0#8 ∧ u.res.toNat = value.toNat % 256 ^ size.toNat) ∧
    (∃ t, exec (.rdf off size) s = .next t ∧ ∃ v : Nat → State,
      (∀ k < size.toNat, exec (.rdf (off + BitVec.ofNat 8 k) 1#8) s = .next (v k) ∧ (v k).err = 0#8) ∧
      t.res.toNat = ∑ k ∈ Finset.range size.toNat, (v k).res.toNat * 256 ^ k)

/-- R84 with R86: the checks in the document's step order, and the slot a valid header sets up. -/
def Obligations.HparseValidatesAndSetsUpSlot : Prop :=
  ∀ (s : State) (a : SlotNum), s.Inv → slotExists s.params.nbuf a = true →
    let w := signedMagnitude (leField s 18 4)
    let h := signedMagnitude (leField s 22 4)
    EncodedAs (.hparse a) 0x05#8 ∧
    (leField s 0 2 ≠ 0x4D42 → Raises (exec (.hparse a) s) s 1#8) ∧
    (leField s 0 2 = 0x4D42 → leField s 14 4 ≠ 40 → Raises (exec (.hparse a) s) s 2#8) ∧
    (leField s 0 2 = 0x4D42 → leField s 14 4 = 40 → leField s 28 2 ≠ 24 → Raises (exec (.hparse a) s) s 3#8) ∧
    (leField s 0 2 = 0x4D42 → leField s 14 4 = 40 → leField s 28 2 = 24 → s.params.cap < w * h * 3 →
      Raises (exec (.hparse a) s) s 9#8) ∧
    (leField s 0 2 = 0x4D42 → leField s 14 4 = 40 → leField s 28 2 = 24 → w * h * 3 ≤ s.params.cap →
      Succeeds (exec (.hparse a) s) 0#64 false fun t => OnlySlot a s t ∧
        (t.slot a).width.toNat = w ∧ (t.slot a).height.toNat = h ∧
        (t.slot a).hRes.toNat = leField s 38 4 ∧ (t.slot a).vRes.toNat = leField s 42 4 ∧
        (t.slot a).px.len = w * h * 3 ∧ ∀ i, (t.slot a).px.read i = 0#8)

/-- R85: `HPARSE` reads only offsets 0–1, 14–25, 28–29 and 38–45: two headers that agree there parse alike. -/
def Obligations.HparseReadsOnlyItsFields : Prop :=
  ∀ (s : State) (m : Memory) (a : SlotNum),
    (∀ i, parsedByte i → ({ s with hb := m } : State).hbByte i = s.hbByte i) →
    ∃ t u, exec (.hparse a) s = .next t ∧ exec (.hparse a) { s with hb := m } = .next u ∧
      u.err = t.err ∧ u.flag = t.flag ∧ u.res = t.res ∧ u.slots = t.slots ∧ u.hb = m

/-- R86: the magnitude of a signed header field is a natural in 0 .. 2^31; 2^31 itself comes from 0x80000000. The model's
`absI32` is what `HPARSE` applies to the width and height fields. -/
def Obligations.SignedFieldMagnitude : Prop :=
  ∀ v < 2 ^ 32, absI32 v = signedMagnitude v ∧ absI32 v ≤ 2 ^ 31 ∧
    (absI32 v = 2 ^ 31 ↔ v = 0x80000000) ∧ (0 < v → absI32 (2 ^ 32 - v) = absI32 v)

/-- R87: the 16 fields `HBUILD` writes, which tile the 54 bytes of `HB`. -/
def Obligations.HbuildWritesHeaderFields : Prop :=
  ∀ (s : State) (a : SlotNum), s.Inv → slotExists s.params.nbuf a = true →
    let b := s.slot a
    let raw := strideOf b.width.toNat * b.height.toNat
    EncodedAs (.hbuild a) 0x06#8 ∧
    Succeeds (exec (.hbuild a) s) 0#64 false fun t => OnlyHeader s t ∧
      leField t 0 2 = 0x4D42 ∧ leField t 2 4 = (54 + raw + s.params.fileSizeExtra) % 2 ^ 32 ∧
      leField t 6 2 = 0 ∧ leField t 8 2 = 0 ∧ leField t 10 4 = 54 ∧ leField t 14 4 = 40 ∧
      leField t 18 4 = b.width.toNat ∧ leField t 22 4 = b.height.toNat ∧
      leField t 26 2 = 1 ∧ leField t 28 2 = 24 ∧ leField t 30 4 = 0 ∧ leField t 34 4 = raw % 2 ^ 32 ∧
      leField t 38 4 = b.hRes.toNat ∧ leField t 42 4 = b.vRes.toNat ∧ leField t 46 4 = 0 ∧ leField t 50 4 = 0 ∧
      ∀ i, 54 ≤ i → t.hbByte i = s.hbByte i

/-- R88: with CAP < 3·2^30 − 42 and FILESIZE_EXTRA ≤ 2 nothing is cut off the two size fields. -/
def Obligations.SizeFieldsAreNotCutOff : Prop :=
  ∀ (s : State) (a : SlotNum), s.Inv → s.params.cap < 3 * 2 ^ 30 - 42 → s.params.fileSizeExtra ≤ 2 →
    let raw := strideOf (s.slot a).width.toNat * (s.slot a).height.toNat
    raw < 2 ^ 32 - 56 ∧ 54 + raw + s.params.fileSizeExtra < 2 ^ 32

/-- R89 (3): `HBUILD sa` followed by `HPARSE sb` gives `slot[b]` the same geometry and resolution, with zeroed storage. -/
def Obligations.HeaderRoundTrip : Prop :=
  ∀ (s : State) (a b : SlotNum), s.Inv → slotExists s.params.nbuf a = true → slotExists s.params.nbuf b = true →
    (s.slot a).width.toNat ≤ 2 ^ 31 → (s.slot a).height.toNat ≤ 2 ^ 31 →
    ∃ t, exec (.hbuild a) s = .next t ∧ t.err = 0#8 ∧
      Succeeds (exec (.hparse b) t) 0#64 false fun u => OnlySlot b t u ∧
        (s.slot a).SameShape (u.slot b) ∧ ∀ i, (u.slot b).px.read i = 0#8

/-! ## The stride calculator -/

/-- R91 with R90: the exact padded row length, at most 12884901888. -/
def Obligations.StrideRespondsPaddedRowLength : Prop :=
  ∀ (s : State) (width : Word32),
    EncodedAs (.stride width) 0x10#8 ∧
    ∃ v : BitVec 64, Succeeds (exec (.stride width) s) v false (OnlyResponse s) ∧ v.toNat ≤ 12884901888 ∧
      v.toNat = if width.toNat * 3 % 4 = 0 then width.toNat * 3
        else width.toNat * 3 + (4 - width.toNat * 3 % 4)

/-- R92: the pad bytes of a row, 0 to 3, equal to WIDTH mod 4. -/
def Obligations.PadlenRespondsPadBytes : Prop :=
  ∀ (s : State) (width : Word32),
    EncodedAs (.padlen width) 0x11#8 ∧
    ∃ v : BitVec 64, Succeeds (exec (.padlen width) s) v false (OnlyResponse s) ∧ v.toNat ≤ 3 ∧
      v.toNat = strideOf width.toNat - width.toNat * 3 ∧ v.toNat = width.toNat % 4

/-- R93: the four laws of the stride. -/
def Obligations.StrideLaws : Prop :=
  ∀ w : Nat, strideOf w % 4 = 0 ∧ w * 3 ≤ strideOf w ∧ strideOf w - w * 3 ≤ 3 ∧
    (∀ n, n % 4 = 0 → w * 3 ≤ n → strideOf w ≤ n) ∧ strideOf w = (w * 3 + 3) / 4 * 4 ∧
    strideOf w - w * 3 = w % 4 ∧ strideOf w = w * 3 + w % 4 ∧ (1 ≤ w → strideOf w ≤ 4 * w) ∧
    (w = 1 ∨ w = 2 ∨ w = 3 → strideOf w = 4 * w) ∧ strideOf 0 = 0

/-! ## The pixel buffer -/

/-- R95. -/
def Obligations.InitCreatesZeroedBuffer : Prop :=
  ∀ (s : State) (a : SlotNum) (width height : Word32) (bpp : BitVec 16), s.Inv → slotExists s.params.nbuf a = true →
    EncodedAs (.init a width height bpp) 0x20#8 ∧
    (bpp ≠ 24#16 → Raises (exec (.init a width height bpp) s) s 3#8) ∧
    (bpp = 24#16 → s.params.cap < width.toNat * height.toNat * 3 →
      Raises (exec (.init a width height bpp) s) s 9#8) ∧
    (bpp = 24#16 → width.toNat * height.toNat * 3 ≤ s.params.cap →
      Succeeds (exec (.init a width height bpp) s) 0#64 false fun t => OnlySlot a s t ∧
        (t.slot a).width = width ∧ (t.slot a).height = height ∧
        (t.slot a).hRes = s.params.defaultPpm ∧ (t.slot a).vRes = s.params.defaultPpm ∧
        (t.slot a).px.len = width.toNat * height.toNat * 3 ∧ ∀ i, (t.slot a).px.read i = 0#8)

/-- R96: the slot returns to its reset state. -/
def Obligations.ClearEmptiesSlot : Prop :=
  ∀ (s : State) (a : SlotNum), s.Inv → slotExists s.params.nbuf a = true →
    EncodedAs (.clear a) 0x21#8 ∧
    Succeeds (exec (.clear a) s) 0#64 false fun t => OnlySlot a s t ∧
      (t.slot a).width = 0#32 ∧ (t.slot a).height = 0#32 ∧ (t.slot a).hRes = 0#32 ∧ (t.slot a).vRes = 0#32 ∧
      (t.slot a).px.len = 0 ∧ ∀ i, (t.slot a).px.read i = 0#8

/-- R98. -/
def Obligations.GetReadsChannelOrZero : Prop :=
  ∀ (s : State) (a : SlotNum) (x y : Word32) (ch : Channel), slotExists s.params.nbuf a = true →
    EncodedAs (.get a x y ch) 0x22#8 ∧
    (InRange (s.slot a) x.toNat y.toNat → Succeeds (exec (.get a x y ch) s)
      (((s.slot a).px.read (storageIndex (s.slot a) x.toNat y.toNat (channelNumber ch))).setWidth 64) true
      (OnlyResponse s)) ∧
    (¬ InRange (s.slot a) x.toNat y.toNat → Succeeds (exec (.get a x y ch) s) 0#64 false (OnlyResponse s))

/-- R99: the packed pixel, red in 23:16, green in 15:8, blue in 7:0, or 0 out of range. -/
def Obligations.GetpxReadsPixelOrZero : Prop :=
  ∀ (s : State) (a : SlotNum) (x y : Word32), slotExists s.params.nbuf a = true →
    EncodedAs (.getpx a x y) 0x23#8 ∧
    (InRange (s.slot a) x.toNat y.toNat → ∃ v : BitVec 64,
      v.toNat = (storedPixel (s.slot a) x.toNat y.toNat).r.toNat * 65536 +
        (storedPixel (s.slot a) x.toNat y.toNat).g.toNat * 256 + (storedPixel (s.slot a) x.toNat y.toNat).b.toNat ∧
      Succeeds (exec (.getpx a x y) s) v true (OnlyResponse s)) ∧
    (¬ InRange (s.slot a) x.toNat y.toNat → Succeeds (exec (.getpx a x y) s) 0#64 false (OnlyResponse s))

/-- R100: one storage byte, or nothing. -/
def Obligations.SetWritesOneChannel : Prop :=
  ∀ (s : State) (a : SlotNum) (x y : Word32) (ch : Channel) (val : Byte), s.Inv → slotExists s.params.nbuf a = true →
    EncodedAs (.set a x y ch val) 0x24#8 ∧
    (InRange (s.slot a) x.toNat y.toNat → Succeeds (exec (.set a x y ch val) s) 0#64 true fun t =>
      OnlySlot a s t ∧ (s.slot a).SameShape (t.slot a) ∧
      ∀ i, (t.slot a).px.read i =
        if i = storageIndex (s.slot a) x.toNat y.toNat (channelNumber ch) then val else (s.slot a).px.read i) ∧
    (¬ InRange (s.slot a) x.toNat y.toNat → Succeeds (exec (.set a x y ch val) s) 0#64 false (OnlyResponse s))

/-- R101: the three bytes of one pixel, or nothing. -/
def Obligations.SetpxWritesOnePixel : Prop :=
  ∀ (s : State) (a : SlotNum) (x y : Word32) (p : RgbPixel), s.Inv → slotExists s.params.nbuf a = true →
    EncodedAs (.setpx a x y p) 0x25#8 ∧
    (InRange (s.slot a) x.toNat y.toNat → Succeeds (exec (.setpx a x y p) s) 0#64 true fun t =>
      OnlySlot a s t ∧ (s.slot a).SameShape (t.slot a) ∧
      storedPixel (t.slot a) x.toNat y.toNat = p ∧
      ∀ i, i ≠ storageIndex (s.slot a) x.toNat y.toNat 0 → i ≠ storageIndex (s.slot a) x.toNat y.toNat 1 →
        i ≠ storageIndex (s.slot a) x.toNat y.toNat 2 → (t.slot a).px.read i = (s.slot a).px.read i) ∧
    (¬ InRange (s.slot a) x.toNat y.toNat → Succeeds (exec (.setpx a x y p) s) 0#64 false (OnlyResponse s))

/-- R102: every byte of one channel, no other. -/
def Obligations.FillSetsOneChannelEverywhere : Prop :=
  ∀ (s : State) (a : SlotNum) (ch : Channel) (val : Byte), s.Inv → slotExists s.params.nbuf a = true →
    EncodedAs (.fill a ch val) 0x26#8 ∧
    Succeeds (exec (.fill a ch val) s) 0#64 false fun t => OnlySlot a s t ∧ (s.slot a).SameShape (t.slot a) ∧
      ∀ i, (t.slot a).px.read i =
        if i < (s.slot a).px.len ∧ i % 3 = channelNumber ch then val else (s.slot a).px.read i

/-- R103: every byte of one channel is complemented (255 − v), no other. -/
def Obligations.InvertComplementsOneChannel : Prop :=
  ∀ (s : State) (a : SlotNum) (ch : Channel), s.Inv → slotExists s.params.nbuf a = true →
    EncodedAs (.invert a ch) 0x27#8 ∧
    Succeeds (exec (.invert a ch) s) 0#64 false fun t => OnlySlot a s t ∧ (s.slot a).SameShape (t.slot a) ∧
      ∀ i, ((t.slot a).px.read i).toNat =
        if i < (s.slot a).px.len ∧ i % 3 = channelNumber ch then 255 - ((s.slot a).px.read i).toNat
        else ((s.slot a).px.read i).toNat

/-- R104: size and bytes of the source, resolution by CLONE_RES_POLICY; equal slots raise AliasedOperands. -/
def Obligations.CloneCopiesBuffer : Prop :=
  ∀ (s : State) (b a : SlotNum), s.Inv → slotExists s.params.nbuf a = true → slotExists s.params.nbuf b = true →
    EncodedAs (.clone b a) 0x28#8 ∧
    (a = b → Raises (exec (.clone b a) s) s 10#8) ∧
    (a ≠ b → Succeeds (exec (.clone b a) s) 0#64 false fun t => OnlySlot a s t ∧
      (t.slot a).width = (s.slot b).width ∧ (t.slot a).height = (s.slot b).height ∧
      (t.slot a).px.len = (s.slot b).px.len ∧ (∀ i, (t.slot a).px.read i = (s.slot b).px.read i) ∧
      (s.params.cloneResPolicy = .copy →
        (t.slot a).hRes = (s.slot b).hRes ∧ (t.slot a).vRes = (s.slot b).vRes) ∧
      (s.params.cloneResPolicy = .default →
        (t.slot a).hRes = s.params.defaultPpm ∧ (t.slot a).vRes = s.params.defaultPpm))

/-- R105: the six descriptor values. The length is stated where it fits the 64 bits of `RES` (log 5 for the rest; that the
command succeeds there too is TwelveCommandsCannotFail). -/
def Obligations.RddescReadsDescriptor : Prop :=
  ∀ (s : State) (a : SlotNum), s.Inv → slotExists s.params.nbuf a = true →
    EncodedAs (.rddesc a .width) 0x29#8 ∧
    Succeeds (exec (.rddesc a .width) s) ((s.slot a).width.setWidth 64) false (OnlyResponse s) ∧
    Succeeds (exec (.rddesc a .height) s) ((s.slot a).height.setWidth 64) false (OnlyResponse s) ∧
    Succeeds (exec (.rddesc a .bitsPerPixel) s) 24#64 false (OnlyResponse s) ∧
    Succeeds (exec (.rddesc a .hRes) s) ((s.slot a).hRes.setWidth 64) false (OnlyResponse s) ∧
    Succeeds (exec (.rddesc a .vRes) s) ((s.slot a).vRes.setWidth 64) false (OnlyResponse s) ∧
    ((s.slot a).px.len < 2 ^ 64 → ∃ v : BitVec 64, v.toNat = (s.slot a).px.len ∧
      v.toNat = (s.slot a).width.toNat * (s.slot a).height.toNat * 3 ∧
      Succeeds (exec (.rddesc a .length) s) v false (OnlyResponse s))

/-- R106: the six laws of the pixel buffer: (1) every command keeps the invariant; (2) two `INVERT`s restore the slot; (3)
accesses out of range change no slot and answer `FLAG` = 0, reads with `RES` = 0; (4), (5), (6) what `SET`, `SETPX`,
`FILL` and `INIT` leave is what `GET` and `GETPX` read. -/
def Obligations.PixelBufferLaws : Prop :=
  ∀ (s : State) (a : SlotNum) (x y : Word32) (ch : Channel), s.Inv → slotExists s.params.nbuf a = true →
    (∀ (i : Instr) (t : State), exec i s = .next t → t.Inv) ∧
    (∃ t u, exec (.invert a ch) s = .next t ∧ exec (.invert a ch) t = .next u ∧ u.slots = s.slots ∧ u.hb = s.hb) ∧
    (¬ InRange (s.slot a) x.toNat y.toNat → ∀ (v : Byte) (p : RgbPixel),
      Succeeds (exec (.get a x y ch) s) 0#64 false (OnlyResponse s) ∧
      Succeeds (exec (.getpx a x y) s) 0#64 false (OnlyResponse s) ∧
      Succeeds (exec (.set a x y ch v) s) 0#64 false (OnlyResponse s) ∧
      Succeeds (exec (.setpx a x y p) s) 0#64 false (OnlyResponse s)) ∧
    (InRange (s.slot a) x.toNat y.toNat → ∀ (v : Byte) (p : RgbPixel),
      (∃ t, exec (.set a x y ch v) s = .next t ∧
        Succeeds (exec (.get a x y ch) t) (v.setWidth 64) true (OnlyResponse t)) ∧
      (∃ t, exec (.setpx a x y p) s = .next t ∧
        Succeeds (exec (.getpx a x y) t) (p.pack.setWidth 64) true (OnlyResponse t)) ∧
      (∃ t, exec (.fill a ch v) s = .next t ∧
        Succeeds (exec (.get a x y ch) t) (v.setWidth 64) true (OnlyResponse t))) ∧
    ∀ w h : Word32, w.toNat * h.toNat * 3 ≤ s.params.cap → x.toNat < w.toNat → y.toNat < h.toNat →
      ∃ t, exec (.init a w h 24#16) s = .next t ∧
        Succeeds (exec (.get a x y ch) t) 0#64 true (OnlyResponse t)

/-! ## The compositor -/

/-- R110: the saturating sum, lane by lane, and its laws. -/
def Obligations.SaturatingSumLaws : Prop :=
  (∀ a b : Byte, (sat8 a b).toNat = min (a.toNat + b.toNat) 255 ∧ sat8 a b = sat8 b a ∧ sat8 a 0#8 = a ∧
    (sat8 a b = 255#8 ↔ 255 ≤ a.toNat + b.toNat)) ∧
  (∀ a a' b : Byte, a.toNat ≤ a'.toNat → (sat8 a b).toNat ≤ (sat8 a' b).toNat) ∧
  (∀ a b c : Byte, sat8 (sat8 a b) c = sat8 a (sat8 b c) ∧
    (sat8 (sat8 a b) c).toNat = min (a.toNat + b.toNat + c.toNat) 255) ∧
  (∃ a a' b : Byte, a ≠ a' ∧ sat8 a b = sat8 a' b) ∧
  ∀ p q : RgbPixel, addPixel p q = { r := sat8 p.r q.r, g := sat8 p.g q.g, b := sat8 p.b q.b }

/-- R111: the packed sum of two pixels. -/
def Obligations.AddpxRespondsPackedSum : Prop :=
  ∀ (s : State) (p q : RgbPixel),
    EncodedAs (.addpx p q) 0x30#8 ∧
    ∃ v : BitVec 64, Succeeds (exec (.addpx p q) s) v false (OnlyResponse s) ∧
      v.toNat = min (p.r.toNat + q.r.toNat) 255 * 65536 + min (p.g.toNat + q.g.toNat) 255 * 256 +
        min (p.b.toNat + q.b.toNat) 255

/-- R113 with R112. -/
def Obligations.OverlayCopiesSourcePixels : Prop :=
  ∀ (s : State) (b a : SlotNum) (x y : Word32), s.Inv → slotExists s.params.nbuf a = true →
    slotExists s.params.nbuf b = true →
    EncodedAs (.overlay b a x y) 0x31#8 ∧
    (a = b → Raises (exec (.overlay b a x y) s) s 10#8) ∧
    (a ≠ b → Succeeds (exec (.overlay b a x y) s) 0#64 (geometricClip (s.slot b) (s.slot a) x.toNat y.toNat) fun t =>
      OnlySlot a s t ∧ Composited (fun src _ => src) (s.slot b) (s.slot a) (t.slot a) x.toNat y.toNat)

/-- R114 with R112: a source pixel equal to the key colour in all three channels is skipped. -/
def Obligations.MaskSkipsKeyColour : Prop :=
  ∀ (s : State) (b a : SlotNum) (x y : Word32) (key : RgbPixel), s.Inv → slotExists s.params.nbuf a = true →
    slotExists s.params.nbuf b = true →
    EncodedAs (.mask b a x y key) 0x32#8 ∧
    (a = b → Raises (exec (.mask b a x y key) s) s 10#8) ∧
    (a ≠ b → Succeeds (exec (.mask b a x y key) s) 0#64 (geometricClip (s.slot b) (s.slot a) x.toNat y.toNat) fun t =>
      OnlySlot a s t ∧ Composited
        (fun src old => if src.r = key.r ∧ src.g = key.g ∧ src.b = key.b then old else src)
        (s.slot b) (s.slot a) (t.slot a) x.toNat y.toNat)

/-- R115 with R112: every channel of a covered pixel becomes min(old + source, 255). -/
def Obligations.AddSaturatesChannels : Prop :=
  ∀ (s : State) (b a : SlotNum) (x y : Word32), s.Inv → slotExists s.params.nbuf a = true →
    slotExists s.params.nbuf b = true →
    EncodedAs (.add b a x y) 0x33#8 ∧
    (a = b → Raises (exec (.add b a x y) s) s 10#8) ∧
    (a ≠ b → Succeeds (exec (.add b a x y) s) 0#64 (geometricClip (s.slot b) (s.slot a) x.toNat y.toNat) fun t =>
      OnlySlot a s t ∧ Composited
        (fun src old =>
          { r := BitVec.ofNat 8 (min (old.r.toNat + src.r.toNat) 255)
            g := BitVec.ofNat 8 (min (old.g.toNat + src.g.toNat) 255)
            b := BitVec.ofNat 8 (min (old.b.toNat + src.b.toNat) 255) })
        (s.slot b) (s.slot a) (t.slot a) x.toNat y.toNat)

/-- R117 (2) and (4): a key that occurs nowhere in the source makes `MASK` equal `OVERLAY`, and the three composites
answer the same `FLAG`. -/
def Obligations.MaskWithAbsentKeyIsOverlay : Prop :=
  ∀ (s : State) (b a : SlotNum) (x y : Word32) (key : RgbPixel), s.Inv → slotExists s.params.nbuf a = true →
    slotExists s.params.nbuf b = true → a ≠ b →
    ((∀ sx sy, InRange (s.slot b) sx sy → storedPixel (s.slot b) sx sy ≠ key) →
      exec (.mask b a x y key) s = exec (.overlay b a x y) s) ∧
    ∃ t u v, exec (.overlay b a x y) s = .next t ∧ exec (.mask b a x y key) s = .next u ∧
      exec (.add b a x y) s = .next v ∧ u.flag = t.flag ∧ v.flag = t.flag

/-! ## The file image and the host's side -/

/-- R121 with R120: `ENCODE_IMAGE` of an existing slot leaves a file image with pixel-data offset 54 and length
54 + stride · height, whose header is what `HBUILD` builds; it issues 59 + width · height commands, each of which answers
`ERR` = 0, and only `HB` and the response change. For a slot that does not exist it ends at the first command, `HBUILD`, with
nothing changed but the response (00_scope.md R18); what the host then reports and holds is the model's choice (log 11). -/
def Obligations.EncodeImageWritesFileImage : Prop :=
  (∀ (s : State) (a : SlotNum), s.Inv → slotExists s.params.nbuf a = true →
    let e := encodeImage a s
    e.result = .ok ∧ IsFileImage e.file e.block.hb (s.slot a) 54 ∧
    e.file.length = 54 + strideOf (s.slot a).width.toNat * (s.slot a).height.toNat ∧
    OnlyHeader s e.block ∧
    e.errs.length = 59 + (s.slot a).width.toNat * (s.slot a).height.toNat ∧ (∀ c ∈ e.errs, c = 0#8) ∧
    ∃ t, exec (.hbuild a) s = .next t ∧ e.block.hb = t.hb) ∧
  ∀ (s : State) (a : SlotNum), slotExists s.params.nbuf a = false →
    let e := encodeImage a s
    exec (.hbuild a) s = .next e.block ∧ OnlyResponse s e.block ∧ e.errs = [8#8] ∧ e.file = [] ∧ e.result = .error 8#8

/-- R124: encoding a slot and decoding the result into another gives the same buffer; the file of a 2×2 buffer is 70 bytes
long, that of a 1×2 buffer 62. -/
def Obligations.DecodeOfEncodedImageIsIdentity : Prop :=
  ∀ (s : State) (a b : SlotNum), s.Inv → slotExists s.params.nbuf a = true → slotExists s.params.nbuf b = true → a ≠ b →
    (s.slot a).width.toNat ≤ 2 ^ 31 → (s.slot a).height.toNat ≤ 2 ^ 31 →
    let e := encodeImage a s
    let r := decodeImage b (.ofBytes e.file) e.block
    r.2 = .ok ∧ r.1.slot b = s.slot a ∧
      ((s.slot a).width = 2#32 → (s.slot a).height = 2#32 → e.file.length = 70) ∧
      ((s.slot a).width = 1#32 → (s.slot a).height = 2#32 → e.file.length = 62)

/-- R122: a file shorter than the header is refused before any command; after any failure the slot holds what it held
before or is empty, so that no partial buffer is left (log 11 for how reads fail); for a slot that does not exist the
sequence ends at `HPARSE` with its code 8 and no slot changed (00_scope.md R18). -/
def Obligations.DecodeImageLeavesNoPartialBuffer : Prop :=
  (∀ (s : State) (a : SlotNum) (f : List Byte), f.length < 54 → decodeImage a (.ofBytes f) s = (s, .error 4#8)) ∧
  (∀ (s : State) (a : SlotNum) (f : FileSource), s.Inv → slotExists s.params.nbuf a = true →
    (decodeImage a f s).2 ≠ .ok →
    (decodeImage a f s).1.slot a = s.slot a ∨ (decodeImage a f s).1.slot a = PixelBuffer.empty) ∧
  ∀ (s : State) (a : SlotNum) (f : List Byte), s.Inv → slotExists s.params.nbuf a = false → 54 ≤ f.length →
    (decodeImage a (.ofBytes f) s).2 = .error 8#8 ∧ OnlyHeader s (decodeImage a (.ofBytes f) s).1

/-- R148: a packet taken at the ports is answered exactly once, after a finite number of cycles (free, log 12), with the
effect and response of its command. Until then `cmd_ready` and `rsp_valid` are 0 and the response registers hold their
values; `rsp_valid` is 1 for one cycle; and while the host then offers no packet, `rsp_valid` stays 0, `cmd_ready` stays 1
and the block holds its state. That the effect, `rsp_valid` and the rise of `cmd_ready` fall on one edge is the model's
choice (DESIGN CHOICE, log 12). -/
def Obligations.PortsAnswerEachTakenPacket : Prop :=
  ∀ (p : PortState) (w : Packet), p.executing = none →
    let taken := clockEdge p { rst := false, cmdValid := true, cmd := w }
    ∃ n, ∀ inputs : List PortIn, (∀ i ∈ inputs, i.rst = false) →
      (inputs.length ≤ n → (clockEdges taken inputs).block = p.block ∧
        (portOutputs (clockEdges taken inputs)).cmdReady = false ∧
        (portOutputs (clockEdges taken inputs)).rspValid = false) ∧
      (inputs.length = n + 1 → runPacket w p.block = .next (clockEdges taken inputs).block ∧
        (portOutputs (clockEdges taken inputs)).cmdReady = true ∧
        (portOutputs (clockEdges taken inputs)).rspValid = true) ∧
      (inputs.length = n + 2 → runPacket w p.block = .next (clockEdges taken inputs).block ∧
        (portOutputs (clockEdges taken inputs)).rspValid = false) ∧
      (inputs.length = n + 1 → ∀ idle : List PortIn, idle ≠ [] → (∀ i ∈ idle, i.rst = false ∧ i.cmdValid = false) →
        runPacket w p.block = .next (clockEdges taken (inputs ++ idle)).block ∧
        (portOutputs (clockEdges taken (inputs ++ idle))).cmdReady = true ∧
        (portOutputs (clockEdges taken (inputs ++ idle))).rspValid = false)
end

