-- ==== Sys2Proof/Laws/Memory.lean ====
section
/-! SUPPORT. What the memory operations do: every operation keeps the canonical form, and each has one lemma that says
what every address reads as afterwards. -/

namespace Sys2Proof.Machine

/-! ### One byte -/

@[simp] theorem Memory.read_nil (a : Nat) : Memory.read [] a = Memory.unlisted := rfl

theorem Memory.read_cons (b : Nat) (w : Byte) (rest : Memory) (a : Nat) :
    Memory.read ((b, w) :: rest) a = if b = a then w else Memory.read rest a := rfl

theorem Memory.read_of_forall_ne {m : Memory} {a : Nat} (h : ∀ c ∈ m, c.1 ≠ a) : m.read a = Memory.unlisted := by
  induction m with
  | nil => rfl
  | cons c rest ih =>
    obtain ⟨b, w⟩ := c
    have hc : b ≠ a := h (b, w) (by simp)
    rw [Memory.read_cons, if_neg hc]
    exact ih fun d hd => h d (by simp [hd])

theorem Memory.wf_nil : Memory.wf [] := ⟨.nil, fun c hc => by cases hc⟩

theorem Memory.wf_tail {c : Host.Cell} {m : Memory} (h : Memory.wf (c :: m)) : Memory.wf m :=
  ⟨(List.pairwise_cons.1 h.1).2, fun d hd => h.2 d (by simp [hd])⟩

theorem Memory.lt_of_wf_cons {c d : Host.Cell} {m : Memory} (h : Memory.wf (c :: m)) (hd : d ∈ m) : c.1 < d.1 :=
  (List.pairwise_cons.1 h.1).1 d hd

theorem Memory.wf_cons {c : Host.Cell} {m : Memory} (hm : Memory.wf m) (hv : c.2 ≠ Memory.unlisted)
    (hlt : ∀ d ∈ m, c.1 < d.1) : Memory.wf (c :: m) := by
  refine ⟨List.pairwise_cons.2 ⟨hlt, hm.1⟩, ?_⟩
  rintro d (_ | ⟨_, hd⟩)
  · exact hv
  · exact hm.2 d hd

theorem Memory.mem_consCell {a : Nat} {v : Byte} {m : Memory} {c : Host.Cell} (h : c ∈ Memory.consCell a v m) :
    c = (a, v) ∨ c ∈ m := by
  unfold Memory.consCell at h
  split at h
  · exact .inr h
  · simpa using h

theorem Memory.wf_consCell {a : Nat} {v : Byte} {m : Memory} (hm : Memory.wf m) (hlt : ∀ d ∈ m, a < d.1) :
    Memory.wf (Memory.consCell a v m) := by
  unfold Memory.consCell
  split
  · exact hm
  · exact Memory.wf_cons hm ‹_› hlt

theorem Memory.read_consCell {a : Nat} {v : Byte} {m : Memory} (hlt : ∀ d ∈ m, a < d.1) (b : Nat) :
    (Memory.consCell a v m).read b = if a = b then v else m.read b := by
  unfold Memory.consCell
  split
  next hv =>
    split
    next hab =>
      subst hab
      rw [Memory.read_of_forall_ne (fun d hd => (hlt d hd).ne'), hv]
    · rfl
  · rfl

theorem Memory.mem_write {m : Memory} {a : Nat} {v : Byte} {c : Host.Cell} (h : c ∈ m.write a v) :
    c = (a, v) ∨ c ∈ m := by
  induction m with
  | nil => exact Memory.mem_consCell h
  | cons d rest ih =>
    obtain ⟨b, w⟩ := d
    unfold Memory.write at h
    split at h
    · rcases List.mem_cons.1 h with h | h
      · exact .inr (by simp [h])
      · exact (ih h).imp id (by simp +contextual)
    · split at h
      · exact (Memory.mem_consCell h).imp id (by simp +contextual)
      · exact Memory.mem_consCell h

/-- A write keeps the canonical form. -/
theorem Memory.wf_write {m : Memory} (h : Memory.wf m) (a : Nat) (v : Byte) : Memory.wf (m.write a v) := by
  induction m with
  | nil => exact Memory.wf_consCell h (by simp)
  | cons d rest ih =>
    obtain ⟨b, w⟩ := d
    have hlt := fun e he => Memory.lt_of_wf_cons h (d := e) he
    unfold Memory.write
    split
    next hb =>
      refine Memory.wf_cons (ih (Memory.wf_tail h)) (h.2 (b, w) (by simp)) fun e he => ?_
      rcases Memory.mem_write he with rfl | he
      · exact hb
      · exact hlt e he
    next hb =>
      split
      next hab =>
        exact Memory.wf_consCell (Memory.wf_tail h) (by simpa [← hab] using hlt)
      next hab =>
        refine Memory.wf_consCell h ?_
        rintro e (_ | ⟨_, he⟩)
        · simp; omega
        · have := hlt e he; simp at this; omega

/-- A write changes the byte it names and no other. -/
theorem Memory.read_write {m : Memory} (h : Memory.wf m) (a : Nat) (v : Byte) (b : Nat) :
    (m.write a v).read b = if a = b then v else m.read b := by
  induction m with
  | nil => exact Memory.read_consCell (by simp) b
  | cons d rest ih =>
    obtain ⟨c, w⟩ := d
    have hlt := fun e he => Memory.lt_of_wf_cons h (d := e) he
    unfold Memory.write
    split
    next hc =>
      rw [Memory.read_cons, ih (Memory.wf_tail h), Memory.read_cons]
      split_ifs <;> first | rfl | omega
    next hc =>
      split
      next hab =>
        rw [Memory.read_consCell (by simpa [← hab] using hlt), Memory.read_cons]
        subst hab
        split_ifs <;> rfl
      next hab =>
        refine Memory.read_consCell ?_ b
        rintro e (_ | ⟨_, he⟩)
        · simp; omega
        · have := hlt e he; simp at this; omega

theorem Memory.below_write {m : Memory} {n a : Nat} (h : Memory.below n m) (ha : a < n) (v : Byte) :
    Memory.below n (m.write a v) := fun c hc => by
  rcases Memory.mem_write hc with rfl | hc
  · exact ha
  · exact h c hc

/-- Nothing is stored at or above the bound. -/
theorem Memory.read_of_below {m : Memory} {n a : Nat} (h : Memory.below n m) (ha : n ≤ a) :
    m.read a = Memory.unlisted :=
  Memory.read_of_forall_ne fun c hc => by have := h c hc; omega

/-- Canonical memories that read alike are equal. -/
theorem Memory.ext_read {m m' : Memory} (h : Memory.wf m) (h' : Memory.wf m') (hr : ∀ a, m.read a = m'.read a) :
    m = m' := by
  induction m generalizing m' with
  | nil =>
    cases m' with
    | nil => rfl
    | cons d rest =>
      obtain ⟨b, w⟩ := d
      have hb := hr b
      rw [Memory.read_nil, Memory.read_cons, if_pos rfl] at hb
      exact absurd hb.symm (h'.2 (b, w) (by simp))
  | cons c rest ih =>
    obtain ⟨a, v⟩ := c
    have hv : v ≠ Memory.unlisted := h.2 (a, v) (by simp)
    cases m' with
    | nil =>
      have := hr a
      simp [Memory.read_cons] at this
      exact absurd this hv
    | cons d rest' =>
      obtain ⟨b, w⟩ := d
      have hw : w ≠ Memory.unlisted := h'.2 (b, w) (by simp)
      have hlt := fun e he => Memory.lt_of_wf_cons h (d := e) he
      have hlt' := fun e he => Memory.lt_of_wf_cons h' (d := e) he
      simp only at hlt hlt'
      have hab : a = b := by
        rcases lt_trichotomy a b with hab | hab | hab
        · have := hr a
          rw [Memory.read_cons, if_pos rfl, Memory.read_of_forall_ne] at this
          · exact absurd this hv
          · rintro e (_ | ⟨_, he⟩)
            · exact hab.ne'
            · exact (hab.trans (hlt' e he)).ne'
        · exact hab
        · have := hr b
          rw [Memory.read_cons (a := b) (b := b), if_pos rfl, Memory.read_of_forall_ne] at this
          · exact absurd this.symm hw
          · rintro e (_ | ⟨_, he⟩)
            · exact hab.ne'
            · exact (hab.trans (hlt e he)).ne'
      subst hab
      have hvw : v = w := by simpa [Memory.read_cons] using hr a
      subst hvw
      congr 1
      refine ih (Memory.wf_tail h) (Memory.wf_tail h') fun x => ?_
      by_cases hx : a = x
      · subst hx
        rw [Memory.read_of_forall_ne fun e he => (hlt e he).ne', Memory.read_of_forall_ne fun e he => (hlt' e he).ne']
      · simpa [Memory.read_cons, hx] using hr x

/-! ### Little-endian fields -/

theorem Memory.wf_writeLE {m : Memory} (h : Memory.wf m) (a n v : Nat) : Memory.wf (m.writeLE a n v) := by
  induction n generalizing m a v with
  | zero => exact h
  | succ n ih => exact ih (Memory.wf_write h ..) _ _

theorem Memory.below_writeLE {m : Memory} {b a n : Nat} (h : Memory.below b m) (ha : a + n ≤ b) (v : Nat) :
    Memory.below b (m.writeLE a n v) := by
  induction n generalizing m a v with
  | zero => exact h
  | succ n ih => exact ih (Memory.below_write h (by omega) _) (by omega) _

/-- `MemWrite` sets byte k of the field to (v div 256^k) mod 256 and changes no other byte (00_scope.md R11). -/
theorem Memory.read_writeLE {m : Memory} (h : Memory.wf m) (a n v b : Nat) :
    (m.writeLE a n v).read b =
      if a ≤ b ∧ b < a + n then BitVec.ofNat 8 (v / 256 ^ (b - a)) else m.read b := by
  induction n generalizing m a v with
  | zero => rw [Memory.writeLE, if_neg (by omega)]
  | succ n ih =>
    rw [Memory.writeLE, ih (Memory.wf_write h ..), Memory.read_write h]
    by_cases hab : a = b
    · subst hab
      simp
    · by_cases hin : a + 1 ≤ b ∧ b < a + 1 + n
      · have hba : b - a = (b - (a + 1)) + 1 := by omega
        rw [if_pos hin, if_pos (by omega), hba, Nat.div_div_eq_div_mul, pow_succ']
      · rw [if_neg hin, if_neg hab, if_neg (by omega)]

/-- `MemRead` is the little-endian sum of the bytes (00_scope.md R11). -/
theorem Memory.readLE_eq_sum (m : Memory) (a n : Nat) :
    m.readLE a n = ∑ k ∈ Finset.range n, (m.read (a + k)).toNat * 256 ^ k := by
  induction n generalizing a with
  | zero => simp [Memory.readLE]
  | succ n ih =>
    rw [Memory.readLE, ih, Finset.sum_range_succ', Finset.mul_sum]
    simp only [pow_succ, pow_zero, Nat.add_zero, Nat.mul_one]
    rw [Nat.add_comm]
    congr 1
    refine Finset.sum_congr rfl fun k _ => ?_
    rw [show a + 1 + k = a + (k + 1) by omega]
    ring

theorem Memory.readLE_lt (m : Memory) (a n : Nat) : m.readLE a n < 256 ^ n := by
  induction n generalizing a with
  | zero => simp [Memory.readLE]
  | succ n ih =>
    have h₁ := ih (a + 1)
    have h₂ := (m.read a).isLt
    rw [Memory.readLE, pow_succ]
    omega

theorem Memory.readLE_congr {m m' : Memory} {a n : Nat} (h : ∀ i, a ≤ i → i < a + n → m.read i = m'.read i) :
    m.readLE a n = m'.readLE a n := by
  rw [Memory.readLE_eq_sum, Memory.readLE_eq_sum]
  refine Finset.sum_congr rfl fun k hk => ?_
  have := Finset.mem_range.1 hk
  rw [h _ (by omega) (by omega)]

/-- Bytes that are those of v read as v mod 256^n. -/
theorem Memory.readLE_of_bytes {m : Memory} {a n v : Nat}
    (h : ∀ k < n, m.read (a + k) = BitVec.ofNat 8 (v / 256 ^ k)) : m.readLE a n = v % 256 ^ n := by
  induction n generalizing a v with
  | zero => simp [Memory.readLE, Nat.mod_one]
  | succ n ih =>
    have h₀ := h 0 (by omega)
    simp at h₀
    have h₁ := ih (a := a + 1) (v := v / 256) fun k hk => by
      rw [show a + 1 + k = a + (k + 1) by omega, h (k + 1) (by omega), Nat.div_div_eq_div_mul, pow_succ']
    rw [Memory.readLE, h₀, h₁, pow_succ', Nat.mod_mul]
    simp

/-- Reading back a field just written. -/
theorem Memory.readLE_writeLE_same {m : Memory} (h : Memory.wf m) (a n v : Nat) :
    (m.writeLE a n v).readLE a n = v % 256 ^ n :=
  Memory.readLE_of_bytes fun k hk => by
    rw [Memory.read_writeLE h, if_pos (by omega), Nat.add_sub_cancel_left]

/-- Reading a field that does not meet the one written. -/
theorem Memory.readLE_writeLE_disjoint {m : Memory} (h : Memory.wf m) {a n b k : Nat} (v : Nat)
    (hd : b + k ≤ a ∨ a + n ≤ b) : (m.writeLE a n v).readLE b k = m.readLE b k :=
  Memory.readLE_congr fun i h₁ h₂ => by rw [Memory.read_writeLE h, if_neg (by omega)]

/-! ### Whole ranges -/

theorem Memory.wf_update {m : Memory} (h : Memory.wf m) (f : Nat → Byte → Byte) (n : Nat) : Memory.wf (m.update f n) := by
  induction n with
  | zero => exact h
  | succ n ih => exact Memory.wf_write ih _ _

theorem Memory.below_update {m : Memory} {b n : Nat} (h : Memory.below b m) (f : Nat → Byte → Byte) (hn : n ≤ b) :
    Memory.below b (m.update f n) := by
  induction n with
  | zero => exact h
  | succ n ih => exact Memory.below_write (ih (by omega)) (by omega) _

/-- `update` replaces every byte below n once, by f of its old value. -/
theorem Memory.read_update {m : Memory} (h : Memory.wf m) (f : Nat → Byte → Byte) (n a : Nat) :
    (m.update f n).read a = if a < n then f a (m.read a) else m.read a := by
  induction n with
  | zero => simp [Memory.update]
  | succ n ih =>
    rw [Memory.update, Memory.read_write (Memory.wf_update h f n), ih]
    by_cases hna : n = a
    · subst hna
      rw [if_pos rfl, ih, if_neg (by omega), if_pos (by omega)]
    · rw [if_neg hna]
      by_cases ha : a < n
      · rw [if_pos ha, if_pos (by omega)]
      · rw [if_neg ha, if_neg (by omega)]

/-! ### Byte sequences -/

@[simp] theorem ByteSeq.zeros_len (n : Nat) : (ByteSeq.zeros n).len = n := rfl
@[simp] theorem ByteSeq.read_zeros (n i : Nat) : (ByteSeq.zeros n).read i = 0#8 := rfl
@[simp] theorem ByteSeq.write_len (q : ByteSeq) (i : Nat) (v : Byte) : (q.write i v).len = q.len := rfl
@[simp] theorem ByteSeq.update_len (q : ByteSeq) (f : Nat → Byte → Byte) : (q.update f).len = q.len := rfl

theorem ByteSeq.wf_zeros (n : Nat) : (ByteSeq.zeros n).wf := ⟨Memory.wf_nil, by simp [ByteSeq.zeros]⟩

theorem ByteSeq.wf_write {q : ByteSeq} (h : q.wf) {i : Nat} (hi : i < q.len) (v : Byte) : (q.write i v).wf :=
  ⟨Memory.wf_write h.1 _ _, Memory.below_write h.2 hi v⟩

theorem ByteSeq.read_write {q : ByteSeq} (h : q.wf) (i : Nat) (v : Byte) (j : Nat) :
    (q.write i v).read j = if i = j then v else q.read j := Memory.read_write h.1 i v j

theorem ByteSeq.wf_update {q : ByteSeq} (h : q.wf) (f : Nat → Byte → Byte) : (q.update f).wf :=
  ⟨Memory.wf_update h.1 _ _, Memory.below_update h.2 f le_rfl⟩

theorem ByteSeq.read_update {q : ByteSeq} (h : q.wf) (f : Nat → Byte → Byte) (j : Nat) :
    (q.update f).read j = if j < q.len then f j (q.read j) else q.read j := Memory.read_update h.1 f q.len j

theorem ByteSeq.read_of_le {q : ByteSeq} (h : q.wf) {i : Nat} (hi : q.len ≤ i) : q.read i = 0#8 :=
  Memory.read_of_below h.2 hi

/-- Canonical sequences of one length that read alike are equal. -/
theorem ByteSeq.ext_read {q r : ByteSeq} (hq : q.wf) (hr : r.wf) (hl : q.len = r.len)
    (h : ∀ i < q.len, q.read i = r.read i) : q = r := by
  have hc : q.cells = r.cells := Memory.ext_read hq.1 hr.1 fun a => by
    by_cases ha : a < q.len
    · exact h a ha
    · rw [Memory.read_of_below hq.2 (by omega), Memory.read_of_below hr.2 (by omega)]
  cases q; cases r; simp_all

end Sys2Proof.Machine
end

