-- ==== Sys2Proof/Laws/State.lean ====
section
/-! SUPPORT. One lemma per field and update of State, and what the slot and header accessors read after each update. -/

namespace Sys2Proof.Machine

@[simp] theorem State.respond_params (s : State) (r : BitVec 64) (f : Bool) : (s.respond r f).params = s.params := rfl
@[simp] theorem State.respond_hb (s : State) (r : BitVec 64) (f : Bool) : (s.respond r f).hb = s.hb := rfl
@[simp] theorem State.respond_slots (s : State) (r : BitVec 64) (f : Bool) : (s.respond r f).slots = s.slots := rfl
@[simp] theorem State.respond_err (s : State) (r : BitVec 64) (f : Bool) : (s.respond r f).err = 0#8 := rfl
@[simp] theorem State.respond_flag (s : State) (r : BitVec 64) (f : Bool) : (s.respond r f).flag = f := rfl
@[simp] theorem State.respond_res (s : State) (r : BitVec 64) (f : Bool) : (s.respond r f).res = r := rfl
@[simp] theorem State.respond_pending (s : State) (r : BitVec 64) (f : Bool) : (s.respond r f).pending = s.pending := rfl

@[simp] theorem State.raise_params (s : State) (e : ErrorKind) : (s.raise e).params = s.params := rfl
@[simp] theorem State.raise_hb (s : State) (e : ErrorKind) : (s.raise e).hb = s.hb := rfl
@[simp] theorem State.raise_slots (s : State) (e : ErrorKind) : (s.raise e).slots = s.slots := rfl
@[simp] theorem State.raise_err (s : State) (e : ErrorKind) : (s.raise e).err = e.code := rfl
@[simp] theorem State.raise_flag (s : State) (e : ErrorKind) : (s.raise e).flag = false := rfl
@[simp] theorem State.raise_res (s : State) (e : ErrorKind) : (s.raise e).res = 0#64 := rfl
@[simp] theorem State.raise_pending (s : State) (e : ErrorKind) : (s.raise e).pending = s.pending := rfl

@[simp] theorem State.setSlot_params (s : State) (a : SlotNum) (b : PixelBuffer) : (s.setSlot a b).params = s.params := rfl
@[simp] theorem State.setSlot_hb (s : State) (a : SlotNum) (b : PixelBuffer) : (s.setSlot a b).hb = s.hb := rfl
@[simp] theorem State.setSlot_slots (s : State) (a : SlotNum) (b : PixelBuffer) : (s.setSlot a b).slots = s.slots.set a.toNat b := rfl
@[simp] theorem State.setSlot_err (s : State) (a : SlotNum) (b : PixelBuffer) : (s.setSlot a b).err = s.err := rfl
@[simp] theorem State.setSlot_flag (s : State) (a : SlotNum) (b : PixelBuffer) : (s.setSlot a b).flag = s.flag := rfl
@[simp] theorem State.setSlot_res (s : State) (a : SlotNum) (b : PixelBuffer) : (s.setSlot a b).res = s.res := rfl
@[simp] theorem State.setSlot_pending (s : State) (a : SlotNum) (b : PixelBuffer) : (s.setSlot a b).pending = s.pending := rfl

@[simp] theorem State.setHbByte_params (s : State) (i : Nat) (v : Byte) : (s.setHbByte i v).params = s.params := rfl
@[simp] theorem State.setHbByte_hb (s : State) (i : Nat) (v : Byte) : (s.setHbByte i v).hb = s.hb.write i v := rfl
@[simp] theorem State.setHbByte_slots (s : State) (i : Nat) (v : Byte) : (s.setHbByte i v).slots = s.slots := rfl
@[simp] theorem State.setHbByte_err (s : State) (i : Nat) (v : Byte) : (s.setHbByte i v).err = s.err := rfl
@[simp] theorem State.setHbByte_flag (s : State) (i : Nat) (v : Byte) : (s.setHbByte i v).flag = s.flag := rfl
@[simp] theorem State.setHbByte_res (s : State) (i : Nat) (v : Byte) : (s.setHbByte i v).res = s.res := rfl
@[simp] theorem State.setHbByte_pending (s : State) (i : Nat) (v : Byte) : (s.setHbByte i v).pending = s.pending := rfl

@[simp] theorem State.setHbField_params (s : State) (a n v : Nat) : (s.setHbField a n v).params = s.params := rfl
@[simp] theorem State.setHbField_hb (s : State) (a n v : Nat) : (s.setHbField a n v).hb = s.hb.writeLE a n v := rfl
@[simp] theorem State.setHbField_slots (s : State) (a n v : Nat) : (s.setHbField a n v).slots = s.slots := rfl
@[simp] theorem State.setHbField_err (s : State) (a n v : Nat) : (s.setHbField a n v).err = s.err := rfl
@[simp] theorem State.setHbField_flag (s : State) (a n v : Nat) : (s.setHbField a n v).flag = s.flag := rfl
@[simp] theorem State.setHbField_res (s : State) (a n v : Nat) : (s.setHbField a n v).res = s.res := rfl
@[simp] theorem State.setHbField_pending (s : State) (a n v : Nat) : (s.setHbField a n v).pending = s.pending := rfl

@[simp] theorem State.afterReset_params (s : State) : (s.afterReset).params = s.params := rfl
@[simp] theorem State.afterReset_hb (s : State) : (s.afterReset).hb = [] := rfl
@[simp] theorem State.afterReset_slots (s : State) : (s.afterReset).slots = List.replicate s.params.nbuf PixelBuffer.empty := rfl
@[simp] theorem State.afterReset_err (s : State) : (s.afterReset).err = 0#8 := rfl
@[simp] theorem State.afterReset_flag (s : State) : (s.afterReset).flag = false := rfl
@[simp] theorem State.afterReset_res (s : State) : (s.afterReset).res = 0#64 := rfl
@[simp] theorem State.afterReset_pending (s : State) : (s.afterReset).pending = s.pending := rfl

@[simp] theorem placePacket_params (w : Packet) (s : State) : (placePacket w s).params = s.params := rfl
@[simp] theorem placePacket_hb (w : Packet) (s : State) : (placePacket w s).hb = s.hb := rfl
@[simp] theorem placePacket_slots (w : Packet) (s : State) : (placePacket w s).slots = s.slots := rfl
@[simp] theorem placePacket_err (w : Packet) (s : State) : (placePacket w s).err = s.err := rfl
@[simp] theorem placePacket_flag (w : Packet) (s : State) : (placePacket w s).flag = s.flag := rfl
@[simp] theorem placePacket_res (w : Packet) (s : State) : (placePacket w s).res = s.res := rfl
@[simp] theorem placePacket_pending (w : Packet) (s : State) : (placePacket w s).pending = .packet w :: s.pending := rfl

@[simp] theorem State.resetWith_params (p : Config.Params) : (State.resetWith p).params = p := rfl
@[simp] theorem State.resetWith_hb (p : Config.Params) : (State.resetWith p).hb = [] := rfl
@[simp] theorem State.resetWith_slots (p : Config.Params) : (State.resetWith p).slots = List.replicate p.nbuf PixelBuffer.empty := rfl
@[simp] theorem State.resetWith_err (p : Config.Params) : (State.resetWith p).err = 0#8 := rfl
@[simp] theorem State.resetWith_flag (p : Config.Params) : (State.resetWith p).flag = false := rfl
@[simp] theorem State.resetWith_res (p : Config.Params) : (State.resetWith p).res = 0#64 := rfl
@[simp] theorem State.resetWith_pending (p : Config.Params) : (State.resetWith p).pending = [] := rfl

/-! ### Slots -/

@[simp] theorem State.slot_respond (s : State) (r : BitVec 64) (f : Bool) (a : SlotNum) :
    (s.respond r f).slot a = s.slot a := rfl
@[simp] theorem State.slot_raise (s : State) (e : ErrorKind) (a : SlotNum) : (s.raise e).slot a = s.slot a := rfl
@[simp] theorem State.slot_setHbByte (s : State) (i : Nat) (v : Byte) (a : SlotNum) :
    (s.setHbByte i v).slot a = s.slot a := rfl
@[simp] theorem State.slot_setHbField (s : State) (i n v : Nat) (a : SlotNum) :
    (s.setHbField i n v).slot a = s.slot a := rfl

theorem State.slot_setSlot_same (s : State) {a : SlotNum} (b : PixelBuffer) (h : a.toNat < s.slots.length) :
    (s.setSlot a b).slot a = b := by
  simp [State.slot, State.setSlot, List.getD_eq_getElem?_getD, h]

theorem State.slot_setSlot_ne (s : State) {a c : SlotNum} (b : PixelBuffer) (h : a ≠ c) :
    (s.setSlot a b).slot c = s.slot c := by
  have hn : a.toNat ≠ c.toNat := fun e => h (BitVec.eq_of_toNat_eq e)
  simp [State.slot, State.setSlot, List.getD_eq_getElem?_getD, hn]

/-- Every slot that does not exist reads as empty, and every slot of a state that meets the invariant is legal. -/
theorem State.Inv.slot {s : State} (h : s.Inv) (a : SlotNum) : PixelBuffer.Inv s.params.cap (s.slot a) := by
  obtain ⟨-, -, -, -, hs⟩ := h
  unfold State.slot
  by_cases ha : a.toNat < s.slots.length
  · rw [List.getD_eq_getElem _ _ ha]
    exact hs _ (List.getElem_mem ha)
  · rw [List.getD_eq_default _ _ (by omega)]
    exact ⟨by decide, Nat.zero_le _, ⟨.nil, by intro c hc; cases hc⟩, by intro c hc; cases hc⟩

theorem State.Inv.slot_lt {s : State} (h : s.Inv) {a : SlotNum} (ha : slotExists s.params.nbuf a = true) :
    a.toNat < s.slots.length := by
  obtain ⟨-, -, -, hl, -⟩ := h
  simpa [slotExists, hl] using ha

/-! ### The header buffer -/

@[simp] theorem State.hbByte_respond (s : State) (r : BitVec 64) (f : Bool) (i : Nat) :
    (s.respond r f).hbByte i = s.hbByte i := rfl
@[simp] theorem State.hbByte_raise (s : State) (e : ErrorKind) (i : Nat) : (s.raise e).hbByte i = s.hbByte i := rfl
@[simp] theorem State.hbByte_setSlot (s : State) (a : SlotNum) (b : PixelBuffer) (i : Nat) :
    (s.setSlot a b).hbByte i = s.hbByte i := rfl

theorem State.hbByte_setHbByte {s : State} (h : s.Inv) (i : Nat) (v : Byte) (j : Nat) :
    (s.setHbByte i v).hbByte j = if i = j then v else s.hbByte j := Memory.read_write h.2.1 i v j

theorem State.hbByte_setHbField {s : State} (h : s.Inv) (a n v j : Nat) :
    (s.setHbField a n v).hbByte j =
      if a ≤ j ∧ j < a + n then BitVec.ofNat 8 (v / 256 ^ (j - a)) else s.hbByte j := Memory.read_writeLE h.2.1 a n v j

theorem State.hbField_eq_sum (s : State) (a n : Nat) :
    s.hbField a n = ∑ k ∈ Finset.range n, (s.hbByte (a + k)).toNat * 256 ^ k := Memory.readLE_eq_sum _ _ _

theorem State.hbField_lt (s : State) (a n : Nat) : s.hbField a n < 256 ^ n := Memory.readLE_lt _ _ _

/-! ### The invariant through each update -/

theorem State.Inv.respond {s : State} (h : s.Inv) (r : BitVec 64) (f : Bool) : (s.respond r f).Inv := h
theorem State.Inv.raise {s : State} (h : s.Inv) (e : ErrorKind) : (s.raise e).Inv := h

theorem State.Inv.setSlot {s : State} (h : s.Inv) (a : SlotNum) {b : PixelBuffer}
    (hb : PixelBuffer.Inv s.params.cap b) : (s.setSlot a b).Inv := by
  obtain ⟨h₁, h₂, h₃, h₄, h₅⟩ := h
  refine ⟨h₁, h₂, h₃, by simpa using h₄, fun c hc => ?_⟩
  rcases List.mem_or_eq_of_mem_set hc with hc | rfl
  · exact h₅ c hc
  · exact hb

theorem State.Inv.setHbByte {s : State} (h : s.Inv) {i : Nat} (hi : i < headerLength) (v : Byte) :
    (s.setHbByte i v).Inv :=
  ⟨h.1, Memory.wf_write h.2.1 _ _, Memory.below_write h.2.2.1 hi _, h.2.2.2⟩

theorem State.Inv.setHbField {s : State} (h : s.Inv) {a n : Nat} (ha : a + n ≤ headerLength) (v : Nat) :
    (s.setHbField a n v).Inv :=
  ⟨h.1, Memory.wf_writeLE h.2.1 _ _ _, Memory.below_writeLE h.2.2.1 ha _, h.2.2.2⟩

theorem PixelBuffer.Inv.empty (cap : Nat) : PixelBuffer.Inv cap PixelBuffer.empty :=
  ⟨by decide, Nat.zero_le _, Memory.wf_nil, by intro c hc; cases hc⟩

/-- The reset state of a block with legal parameters meets the invariant. -/
theorem State.inv_of_reset {p : Config.Params} (hp : p.Valid) : (State.resetWith p).Inv :=
  ⟨hp, Memory.wf_nil, (fun _ hc => by cases hc), by simp,
    fun _ hb => List.eq_of_mem_replicate hb ▸ PixelBuffer.Inv.empty _⟩

theorem State.Inv.afterReset {s : State} (h : s.Inv) : s.afterReset.Inv := State.inv_of_reset h.1

theorem State.Inv.withPending {s : State} (h : s.Inv) (p : List HostInput) : ({ s with pending := p } : State).Inv := h

/-- Bit i of the response number. -/
theorem State.getLsbD_rsp (s : State) (i : Nat) :
    s.rsp.getLsbD i = if i < 64 then s.res.getLsbD i else if i = 64 then s.flag
      else if i < 72 then false else s.err.getLsbD (i - 72) := by
  have hr : 64 ≤ i → s.res.getLsbD i = false := fun h => BitVec.getLsbD_of_ge _ _ h
  have he : 80 ≤ i → s.err.getLsbD (i - 72) = false := fun h => BitVec.getLsbD_of_ge _ _ (by omega)
  simp only [State.rsp, BitVec.getLsbD_or, BitVec.getLsbD_setWidth, BitVec.getLsbD_shiftLeft, BitVec.getLsbD_ofBool]
  split_ifs with h1 h2 h3
  · simp [show i < 80 by omega, show i < 72 by omega, h1]
  · subst h2; simp
  · simp [h1, h3, hr (by omega), show i - 64 ≠ 0 by omega]
  · by_cases h : i < 80
    · simp [h1, h3, h, hr (by omega), show i - 64 ≠ 0 by omega, show i - 72 < 80 by omega]
    · simp [h, he (by omega)]

/-- The four parts of the response number (30_encoding.md R71). -/
theorem State.rsp_fields (s : State) : s.rsp.extractLsb' 0 64 = s.res ∧ s.rsp.extractLsb' 64 1 = BitVec.ofBool s.flag ∧
    s.rsp.extractLsb' 65 7 = 0#7 ∧ s.rsp.extractLsb' 72 8 = s.err := by
  refine ⟨?_, ?_, ?_, ?_⟩ <;> apply BitVec.eq_of_getLsbD_eq <;> intro i hi <;>
    rw [BitVec.getLsbD_extractLsb', State.getLsbD_rsp]
  · simp [hi]
  · simp [show i = 0 by omega]
  · simp [show 65 + i < 72 by omega, show ¬ 65 + i < 64 by omega]; omega
  · simp [hi, show ¬ 72 + i < 64 by omega, show 72 + i ≠ 64 by omega]

end Sys2Proof.Machine
end

