-- ==== Sys2Proof/Laws/Pixels.lean ====
section
/-! SUPPORT. Pixel storage: the index formula reaches every byte once (10_state.md R27), and what each pixel operation
leaves in every channel of every pixel. -/

namespace Sys2Proof.Machine

/-! ### The index formula -/

theorem Channel.offset_lt (c : Channel) : Channel.offset c < 3 := by cases c <;> decide

theorem Channel.offset_injective {c d : Channel} (h : Channel.offset c = Channel.offset d) : c = d := by
  cases c <;> cases d <;> first | rfl | exact absurd h (by decide)

theorem Channel.offset_surjective {n : Nat} (h : n < 3) : ∃ c, Channel.offset c = n := by
  interval_cases n
  exacts [⟨.blue, rfl⟩, ⟨.green, rfl⟩, ⟨.red, rfl⟩]

theorem pixelIndex_mod (w x y c : Nat) (hc : c < 3) : pixelIndex w x y c % 3 = c := by unfold pixelIndex; omega

theorem pixelIndex_lt {w h x y c : Nat} (hx : x < w) (hy : y < h) (hc : c < 3) : pixelIndex w x y c < w * h * 3 := by
  have h₁ : (y + 1) * w ≤ h * w := Nat.mul_le_mul_right w hy
  have h₂ : h * w = w * h := Nat.mul_comm _ _
  rw [Nat.add_mul, Nat.one_mul] at h₁
  unfold pixelIndex
  omega

theorem pixelIndex_injective {w x y c x' y' c' : Nat} (hx : x < w) (hx' : x' < w) (hc : c < 3) (hc' : c' < 3)
    (h : pixelIndex w x y c = pixelIndex w x' y' c') : x = x' ∧ y = y' ∧ c = c' := by
  unfold pixelIndex at h
  have hp : y * w + x = y' * w + x' := by omega
  have hw : 0 < w := by omega
  have hxx : x = x' := by
    have := congrArg (· % w) hp
    simpa [Nat.add_mod, Nat.mod_eq_of_lt hx, Nat.mod_eq_of_lt hx'] using this
  subst hxx
  refine ⟨rfl, Nat.eq_of_mul_eq_mul_right hw (by omega), by omega⟩

theorem exists_pixelIndex {w h i : Nat} (hi : i < w * h * 3) :
    ∃ x y c, x < w ∧ y < h ∧ i = pixelIndex w x y (Channel.offset c) := by
  obtain ⟨c, hc⟩ := Channel.offset_surjective (Nat.mod_lt i (by decide : 0 < 3))
  have hp : i / 3 < w * h := by omega
  have hw : 0 < w := Nat.pos_of_ne_zero (by rintro rfl; simp at hp)
  refine ⟨i / 3 % w, i / 3 / w, c, Nat.mod_lt _ hw, Nat.div_lt_of_lt_mul hp, ?_⟩
  have := Nat.div_add_mod' (i / 3) w
  unfold pixelIndex
  rw [this, hc]
  omega

/-! ### Two buffers of one shape -/

theorem PixelBuffer.SameShape.refl (b : PixelBuffer) : b.SameShape b := ⟨rfl, rfl, rfl, rfl, rfl⟩

theorem PixelBuffer.SameShape.trans {b d e : PixelBuffer} (h : b.SameShape d) (h' : d.SameShape e) : b.SameShape e :=
  ⟨h'.1.trans h.1, h'.2.1.trans h.2.1, h'.2.2.1.trans h.2.2.1, h'.2.2.2.1.trans h.2.2.2.1, h'.2.2.2.2.trans h.2.2.2.2⟩

theorem PixelBuffer.SameShape.inRange {b d : PixelBuffer} (h : b.SameShape d) (x y : Nat) :
    d.inRange x y = b.inRange x y := by
  rw [PixelBuffer.inRange, PixelBuffer.inRange, h.1, h.2.1]

theorem PixelBuffer.SameShape.inv {b d : PixelBuffer} {cap : Nat} (h : b.SameShape d) (hb : b.Inv cap) (hd : d.px.wf) :
    d.Inv cap := by
  refine ⟨?_, ?_, hd⟩
  · rw [h.2.2.2.2, hb.1, h.1, h.2.1]
  · rw [h.2.2.2.2]; exact hb.2.1

theorem PixelBuffer.inRange_iff {b : PixelBuffer} {x y : Nat} :
    b.inRange x y = true ↔ x < b.width.toNat ∧ y < b.height.toNat := by simp [PixelBuffer.inRange]

/-- An in-range channel lies inside the storage (10_state.md R27). -/
theorem PixelBuffer.Inv.index_lt {b : PixelBuffer} {cap : Nat} (h : b.Inv cap) {x y : Nat} (hr : b.inRange x y = true)
    (c : Channel) : pixelIndex b.width.toNat x y (Channel.offset c) < b.px.len := by
  rw [h.1]
  obtain ⟨hx, hy⟩ := PixelBuffer.inRange_iff.1 hr
  exact pixelIndex_lt hx hy (Channel.offset_lt c)

/-- Legal buffers of one shape whose in-range channels agree are equal. -/
theorem PixelBuffer.ext_channels {b d : PixelBuffer} {cap : Nat} (hb : b.Inv cap) (hd : d.Inv cap) (hs : b.SameShape d)
    (h : ∀ x y c, b.inRange x y = true → d.channelAt x y c = b.channelAt x y c) : d = b := by
  have hpx : d.px = b.px := ByteSeq.ext_read hd.2.2 hb.2.2 hs.2.2.2.2 fun i hi => by
    rw [hs.2.2.2.2, hb.1] at hi
    obtain ⟨x, y, c, hx, hy, rfl⟩ := exists_pixelIndex hi
    have := h x y c (PixelBuffer.inRange_iff.2 ⟨hx, hy⟩)
    rwa [PixelBuffer.channelAt, PixelBuffer.channelAt, hs.1] at this
  obtain ⟨h₁, h₂, h₃, h₄, -⟩ := hs
  cases b; cases d; simp_all

/-! ### One channel -/

theorem PixelBuffer.setChannel_shape (b : PixelBuffer) (x y : Nat) (c : Channel) (v : Byte) :
    b.SameShape (b.setChannel x y c v) := ⟨rfl, rfl, rfl, rfl, rfl⟩

theorem PixelBuffer.Inv.setChannel {b : PixelBuffer} {cap : Nat} (h : b.Inv cap) {x y : Nat} (hr : b.inRange x y = true)
    (c : Channel) (v : Byte) : (b.setChannel x y c v).Inv cap :=
  (PixelBuffer.setChannel_shape b x y c v).inv h (ByteSeq.wf_write h.2.2 (h.index_lt hr c) v)

/-- A channel write changes the channel it names and no other. -/
theorem PixelBuffer.Inv.channelAt_setChannel {b : PixelBuffer} {cap : Nat} (h : b.Inv cap) {x y x' y' : Nat}
    (hr : b.inRange x y = true) (hr' : b.inRange x' y' = true) (c c' : Channel) (v : Byte) :
    (b.setChannel x y c v).channelAt x' y' c' =
      if x = x' ∧ y = y' ∧ c = c' then v else b.channelAt x' y' c' := by
  rw [PixelBuffer.channelAt, PixelBuffer.setChannel, ByteSeq.read_write h.2.2]
  by_cases he : x = x' ∧ y = y' ∧ c = c'
  · obtain ⟨rfl, rfl, rfl⟩ := he
    simp
  · rw [if_neg he, if_neg]
    · rfl
    · intro hi
      obtain ⟨h₁, h₂, h₃⟩ := pixelIndex_injective (PixelBuffer.inRange_iff.1 hr).1 (PixelBuffer.inRange_iff.1 hr').1
        (Channel.offset_lt c) (Channel.offset_lt c') hi
      exact he ⟨h₁, h₂, Channel.offset_injective h₃⟩

/-- A channel write changes one storage byte. -/
theorem PixelBuffer.Inv.read_setChannel {b : PixelBuffer} {cap : Nat} (h : b.Inv cap) (x y : Nat) (c : Channel) (v : Byte)
    (i : Nat) : (b.setChannel x y c v).px.read i =
      if i = pixelIndex b.width.toNat x y (Channel.offset c) then v else b.px.read i := by
  rw [PixelBuffer.setChannel, ByteSeq.read_write h.2.2]
  simp only [eq_comm]

/-! ### One pixel -/

/-- A channel of a pixel value. -/
def RgbPixel.channel (p : RgbPixel) : Channel → Byte
  | .blue => p.b
  | .green => p.g
  | .red => p.r

theorem PixelBuffer.channelAt_eq_pixelAt (b : PixelBuffer) (x y : Nat) (c : Channel) :
    b.channelAt x y c = RgbPixel.channel (b.pixelAt x y) c := by cases c <;> rfl

theorem PixelBuffer.pixelAt_congr {b d : PixelBuffer} {x y x' y' : Nat}
    (h : ∀ c, d.channelAt x' y' c = b.channelAt x y c) : d.pixelAt x' y' = b.pixelAt x y := by
  simp [PixelBuffer.pixelAt, h]

theorem PixelBuffer.setPixel_shape (b : PixelBuffer) (x y : Nat) (p : RgbPixel) : b.SameShape (b.setPixel x y p) :=
  ⟨rfl, rfl, rfl, rfl, rfl⟩

theorem PixelBuffer.Inv.setPixel {b : PixelBuffer} {cap : Nat} (h : b.Inv cap) {x y : Nat} (hr : b.inRange x y = true)
    (p : RgbPixel) : (b.setPixel x y p).Inv cap :=
  ((h.setChannel hr .blue p.b).setChannel hr .green p.g).setChannel hr .red p.r

/-- A pixel write sets the three channels of its pixel and leaves every other pixel. -/
theorem PixelBuffer.Inv.channelAt_setPixel {b : PixelBuffer} {cap : Nat} (h : b.Inv cap) {x y x' y' : Nat}
    (hr : b.inRange x y = true) (hr' : b.inRange x' y' = true) (p : RgbPixel) (c : Channel) :
    (b.setPixel x y p).channelAt x' y' c = if x = x' ∧ y = y' then RgbPixel.channel p c else b.channelAt x' y' c := by
  have h₁ := h.setChannel hr .blue p.b
  have h₂ := h₁.setChannel hr .green p.g
  rw [PixelBuffer.setPixel, h₂.channelAt_setChannel hr hr', h₁.channelAt_setChannel hr hr', h.channelAt_setChannel hr hr']
  cases c <;> simp [RgbPixel.channel]

theorem PixelBuffer.Inv.pixelAt_setPixel {b : PixelBuffer} {cap : Nat} (h : b.Inv cap) {x y x' y' : Nat}
    (hr : b.inRange x y = true) (hr' : b.inRange x' y' = true) (p : RgbPixel) :
    (b.setPixel x y p).pixelAt x' y' = if x = x' ∧ y = y' then p else b.pixelAt x' y' := by
  split
  next he => simp only [PixelBuffer.pixelAt, h.channelAt_setPixel hr hr', if_pos he, RgbPixel.channel]
  next he => exact PixelBuffer.pixelAt_congr fun c => by rw [h.channelAt_setPixel hr hr', if_neg he]

/-- A pixel write changes the three storage bytes of its pixel (R101). -/
theorem PixelBuffer.Inv.read_setPixel {b : PixelBuffer} {cap : Nat} (h : b.Inv cap) {x y : Nat} (hr : b.inRange x y = true)
    (p : RgbPixel) (i : Nat) : (b.setPixel x y p).px.read i =
      if i = pixelIndex b.width.toNat x y 0 then p.b
      else if i = pixelIndex b.width.toNat x y 1 then p.g
      else if i = pixelIndex b.width.toNat x y 2 then p.r
      else b.px.read i := by
  have h₁ := h.setChannel hr .blue p.b
  have h₂ := h₁.setChannel hr .green p.g
  rw [PixelBuffer.setPixel, h₂.read_setChannel, h₁.read_setChannel, h.read_setChannel]
  change (if i = pixelIndex b.width.toNat x y 0 + 2 then p.r
    else if i = pixelIndex b.width.toNat x y 0 + 1 then p.g
    else if i = pixelIndex b.width.toNat x y 0 then p.b else b.px.read i) = if i = pixelIndex b.width.toNat x y 0 then p.b
    else if i = pixelIndex b.width.toNat x y 0 + 1 then p.g
    else if i = pixelIndex b.width.toNat x y 0 + 2 then p.r else b.px.read i
  split_ifs <;> first | rfl | omega

/-! ### One channel everywhere -/

theorem PixelBuffer.mapChannel_shape (b : PixelBuffer) (c : Channel) (f : Byte → Byte) :
    b.SameShape (b.mapChannel c f) := ⟨rfl, rfl, rfl, rfl, rfl⟩

theorem PixelBuffer.Inv.mapChannel {b : PixelBuffer} {cap : Nat} (h : b.Inv cap) (c : Channel) (f : Byte → Byte) :
    (b.mapChannel c f).Inv cap := (PixelBuffer.mapChannel_shape b c f).inv h (ByteSeq.wf_update h.2.2 _)

theorem PixelBuffer.Inv.read_mapChannel {b : PixelBuffer} {cap : Nat} (h : b.Inv cap) (c : Channel) (f : Byte → Byte)
    (i : Nat) : (b.mapChannel c f).px.read i =
      if i < b.px.len ∧ i % 3 = Channel.offset c then f (b.px.read i) else b.px.read i := by
  rw [PixelBuffer.mapChannel, ByteSeq.read_update h.2.2]
  split_ifs <;> first | rfl | tauto

theorem PixelBuffer.Inv.channelAt_mapChannel {b : PixelBuffer} {cap : Nat} (h : b.Inv cap) {x y : Nat}
    (hr : b.inRange x y = true) (c c' : Channel) (f : Byte → Byte) :
    (b.mapChannel c f).channelAt x y c' = if c = c' then f (b.channelAt x y c') else b.channelAt x y c' := by
  have hi := h.index_lt hr c'
  have hm := pixelIndex_mod b.width.toNat x y _ (Channel.offset_lt c')
  rw [PixelBuffer.channelAt, h.read_mapChannel]
  by_cases hc : c = c'
  · subst hc
    rw [if_pos ⟨hi, hm⟩, if_pos rfl]
    rfl
  · rw [if_neg hc, if_neg fun he => hc (Channel.offset_injective (by rw [← he.2]; exact hm))]
    rfl

/-! ### Fresh storage -/

theorem PixelBuffer.Inv.zeroed {cap : Nat} {w h : Word32} (hc : ¬ cap < w.toNat * h.toNat * 3) (r v : Word32) :
    PixelBuffer.Inv cap (PixelBuffer.zeroed w h r v) := ⟨rfl, Nat.le_of_not_lt hc, ByteSeq.wf_zeros _⟩

theorem PixelBuffer.channelAt_zeroed (w h r v : Word32) (x y : Nat) (c : Channel) :
    (PixelBuffer.zeroed w h r v).channelAt x y c = 0#8 := rfl

theorem PixelBuffer.Inv.cloneOf {cap : Nat} {b : PixelBuffer} (h : b.Inv cap) (p : Config.Params) :
    (cloneOf p b).Inv cap := by
  unfold Sys2Proof.Machine.cloneOf
  split <;> exact h

/-- Two legal buffers of the same shape with the same bytes are equal. -/
theorem PixelBuffer.Inv.ext {b d : PixelBuffer} {cap cap' : Nat} (hb : b.Inv cap) (hd : d.Inv cap') (hs : b.SameShape d)
    (hr : ∀ i, d.px.read i = b.px.read i) : d = b := by
  obtain ⟨h₁, h₂, h₃, h₄, h₅⟩ := hs
  have hc := Memory.ext_read hd.2.2.1 hb.2.2.1 hr
  obtain ⟨bw, bh, br, bv, ⟨bl, bc⟩⟩ := b
  obtain ⟨dw, dh, dr, dv, ⟨dl, dc⟩⟩ := d
  simp only at h₁ h₂ h₃ h₄ h₅ hc
  subst h₁ h₂ h₃ h₄ h₅ hc
  rfl

end Sys2Proof.Machine
end

