-- ==== Sys2Proof/Laws/Compositor.lean ====
section
/-! SUPPORT. What a composite walk leaves: the pixels it reaches, the pixels it does not, and the clip flag
(43_compositor.md R112). -/

namespace Sys2Proof.Machine

/-- The destination pixel after an action: the new one, or the old one for a skip. -/
def PixelAction.result (act : PixelAction) (src old : RgbPixel) : RgbPixel := (act src old).getD old

/-- Everything the first k visits do. -/
structure WalkSpec (act : PixelAction) (source dest : PixelBuffer) (x y k cap : Nat) (w : Walk) : Prop where
  shape : dest.SameShape w.dest
  inv : w.dest.Inv cap
  clipped : w.clipped = true ↔
    ∃ j < k, dest.inRange (x + j % source.width.toNat) (y + j / source.width.toNat) = false
  reached : ∀ j < k, dest.inRange (x + j % source.width.toNat) (y + j / source.width.toNat) = true →
    w.dest.pixelAt (x + j % source.width.toNat) (y + j / source.width.toNat) =
      act.result (source.pixelAt (j % source.width.toNat) (j / source.width.toNat))
        (dest.pixelAt (x + j % source.width.toNat) (y + j / source.width.toNat))
  missed : ∀ dx dy, dest.inRange dx dy = true →
    (∀ j < k, ¬(x + j % source.width.toNat = dx ∧ y + j / source.width.toNat = dy)) →
    w.dest.pixelAt dx dy = dest.pixelAt dx dy

theorem eq_of_mod_div {j k w : Nat} (hm : j % w = k % w) (hd : j / w = k / w) : j = k := by
  rw [← Nat.div_add_mod j w, ← Nat.div_add_mod k w, hm, hd]

/-- One visit, in terms of the action's result. -/
theorem visitPixel_eq (act : PixelAction) (source : PixelBuffer) (x y sx sy : Nat) (w : Walk) :
    (outsideDest w.dest (x + sx) (y + sy) = true ∧
      visitPixel act source x y sx sy w = { w with clipped := true }) ∨
    (outsideDest w.dest (x + sx) (y + sy) = false ∧ ∃ d,
      (d = w.dest ∧ act (source.pixelAt sx sy) (w.dest.pixelAt (x + sx) (y + sy)) = none ∨
        ∃ p, act (source.pixelAt sx sy) (w.dest.pixelAt (x + sx) (y + sy)) = some p ∧
          d = w.dest.setPixel (x + sx) (y + sy) p) ∧
      visitPixel act source x y sx sy w = { w with dest := d }) := by
  unfold visitPixel
  cases ho : outsideDest w.dest (x + sx) (y + sy)
  · right
    refine ⟨rfl, ?_⟩
    cases ha : act (source.pixelAt sx sy) (w.dest.pixelAt (x + sx) (y + sy)) with
    | none => exact ⟨w.dest, .inl ⟨rfl, rfl⟩, by simp⟩
    | some p => exact ⟨_, .inr ⟨p, rfl, rfl⟩, by simp⟩
  · exact .inl ⟨rfl, by simp⟩

theorem visitPixels_spec (act : PixelAction) (source : PixelBuffer) {dest : PixelBuffer} {cap : Nat} (h : dest.Inv cap)
    (x y k : Nat) : WalkSpec act source dest x y k cap (visitPixels act source dest x y k) := by
  induction k with
  | zero => exact ⟨.refl _, h, by simp [visitPixels], by simp, fun _ _ _ _ => rfl⟩
  | succ k ih =>
    have hsame := ih.shape.inRange (x + k % source.width.toNat) (y + k / source.width.toNat)
    have hk : ∀ j < k, ¬(x + j % source.width.toNat = x + k % source.width.toNat ∧
        y + j / source.width.toNat = y + k / source.width.toNat) := fun j hj he =>
      hj.ne (eq_of_mod_div (Nat.add_left_cancel he.1) (Nat.add_left_cancel he.2))
    rw [visitPixels]
    rcases visitPixel_eq act source x y (k % source.width.toNat) (k / source.width.toNat)
      (visitPixels act source dest x y k) with ⟨ho, e⟩ | ⟨ho, d, hd, e⟩
    · rw [e]
      have hout : dest.inRange (x + k % source.width.toNat) (y + k / source.width.toNat) = false := by
        rw [← hsame]; simpa [outsideDest] using ho
      refine ⟨ih.shape, ih.inv, by simpa using ⟨k, by omega, hout⟩, fun j hj hr => ?_, fun dx dy hr hn => ?_⟩
      · rcases Nat.lt_succ_iff_lt_or_eq.1 hj with hj | rfl
        · exact ih.reached j hj hr
        · simp [hout] at hr
      · exact ih.missed dx dy hr fun j hj => hn j (by omega)
    · rw [e]
      have hin : dest.inRange (x + k % source.width.toNat) (y + k / source.width.toNat) = true := by
        rw [← hsame]; simpa [outsideDest] using ho
      have hold := ih.missed _ _ hin hk
      have hclip : (visitPixels act source dest x y k).clipped = true ↔ ∃ j < k + 1,
          dest.inRange (x + j % source.width.toNat) (y + j / source.width.toNat) = false := by
        rw [ih.clipped]
        refine ⟨fun ⟨j, hj, hr⟩ => ⟨j, by omega, hr⟩, fun ⟨j, hj, hr⟩ => ?_⟩
        rcases Nat.lt_succ_iff_lt_or_eq.1 hj with hj | rfl
        · exact ⟨j, hj, hr⟩
        · simp [hin] at hr
      rcases hd with ⟨rfl, hn⟩ | ⟨p, hp, rfl⟩
      · refine ⟨ih.shape, ih.inv, hclip, fun j hj hr => ?_, fun dx dy hr hne => ?_⟩
        · rcases Nat.lt_succ_iff_lt_or_eq.1 hj with hj | rfl
          · exact ih.reached j hj hr
          · rw [hold] at hn
            rw [hold, PixelAction.result, hn, Option.getD_none]
        · exact ih.missed dx dy hr fun j hj => hne j (by omega)
      · have hin' := hin
        rw [← hsame] at hin'
        have hpix : ∀ dx dy, dest.inRange dx dy = true →
            ((visitPixels act source dest x y k).dest.setPixel (x + k % source.width.toNat)
              (y + k / source.width.toNat) p).pixelAt dx dy =
            if x + k % source.width.toNat = dx ∧ y + k / source.width.toNat = dy then p
            else (visitPixels act source dest x y k).dest.pixelAt dx dy := fun dx dy hr =>
          ih.inv.pixelAt_setPixel hin' (by rw [ih.shape.inRange]; exact hr) p
        refine ⟨ih.shape.trans (PixelBuffer.setPixel_shape ..), ih.inv.setPixel hin' p, hclip,
          fun j hj hr => ?_, fun dx dy hr hne => ?_⟩
        · rcases Nat.lt_succ_iff_lt_or_eq.1 hj with hj | rfl
          · rw [hpix _ _ hr, if_neg fun he => hk j hj ⟨he.1.symm, he.2.symm⟩]
            exact ih.reached j hj hr
          · rw [hpix _ _ hr, if_pos ⟨rfl, rfl⟩]
            rw [hold] at hp
            rw [PixelAction.result, hp, Option.getD_some]
        · rw [hpix _ _ hr, if_neg (hne k (by omega))]
          exact ih.missed dx dy hr fun j hj => hne j (by omega)

/-! ### The whole walk -/

/-- `FLAG` of a composite: some source pixel falls outside, a function of geometry alone (R112). -/
def clipFlag (sw sh dw dh x y : Nat) : Bool := decide (0 < sw ∧ 0 < sh ∧ (dw < x + sw ∨ dh < y + sh))

theorem compositeWalk_spec (act : PixelAction) (source : PixelBuffer) {dest : PixelBuffer} {cap : Nat} (h : dest.Inv cap)
    (x y : Nat) : WalkSpec act source dest x y (source.width.toNat * source.height.toNat) cap
      (compositeWalk act source dest x y) := visitPixels_spec act source h x y _

theorem source_coordinate {w h sx sy : Nat} (hx : sx < w) (hy : sy < h) :
    sy * w + sx < w * h ∧ (sy * w + sx) % w = sx ∧ (sy * w + sx) / w = sy := by
  have h₁ : (sy + 1) * w ≤ h * w := Nat.mul_le_mul_right w hy
  rw [Nat.add_mul, Nat.one_mul, Nat.mul_comm h] at h₁
  refine ⟨by omega, ?_, ?_⟩
  · rw [Nat.mul_comm, Nat.mul_add_mod, Nat.mod_eq_of_lt hx]
  · rw [Nat.mul_comm, Nat.mul_add_div (by omega), Nat.div_eq_of_lt hx, Nat.add_zero]

theorem coordinate_lt {w h j : Nat} (hj : j < w * h) : j % w < w ∧ j / w < h := by
  have hw : 0 < w := Nat.pos_of_ne_zero (by rintro rfl; simp at hj)
  exact ⟨Nat.mod_lt _ hw, Nat.div_lt_of_lt_mul hj⟩

/-- A source pixel that lands in range meets the action (R112). -/
theorem compositeWalk_reached (act : PixelAction) (source : PixelBuffer) {dest : PixelBuffer} {cap : Nat}
    (h : dest.Inv cap) (x y : Nat) {sx sy : Nat} (hx : sx < source.width.toNat) (hy : sy < source.height.toNat)
    (hr : dest.inRange (x + sx) (y + sy) = true) :
    (compositeWalk act source dest x y).dest.pixelAt (x + sx) (y + sy) =
      act.result (source.pixelAt sx sy) (dest.pixelAt (x + sx) (y + sy)) := by
  obtain ⟨hj, hm, hd⟩ := source_coordinate hx hy
  have := (compositeWalk_spec act source h x y).reached _ hj
  rw [hm, hd] at this
  exact this hr

/-- A destination pixel that no source pixel maps to is unchanged (R112). -/
theorem compositeWalk_missed (act : PixelAction) (source : PixelBuffer) {dest : PixelBuffer} {cap : Nat}
    (h : dest.Inv cap) (x y : Nat) {dx dy : Nat} (hr : dest.inRange dx dy = true)
    (hn : ¬(x ≤ dx ∧ dx < x + source.width.toNat ∧ y ≤ dy ∧ dy < y + source.height.toNat)) :
    (compositeWalk act source dest x y).dest.pixelAt dx dy = dest.pixelAt dx dy :=
  (compositeWalk_spec act source h x y).missed dx dy hr fun j hj he => hn (by
    obtain ⟨h₁, h₂⟩ := coordinate_lt hj
    obtain ⟨rfl, rfl⟩ := he
    exact ⟨Nat.le_add_right .., Nat.add_lt_add_left h₁ _, Nat.le_add_right .., Nat.add_lt_add_left h₂ _⟩)

/-- The clip flag's closed form (R112). -/
theorem compositeWalk_clipped (act : PixelAction) (source : PixelBuffer) {dest : PixelBuffer} {cap : Nat}
    (h : dest.Inv cap) (x y : Nat) : (compositeWalk act source dest x y).clipped =
      clipFlag source.width.toNat source.height.toNat dest.width.toNat dest.height.toNat x y := by
  rw [Bool.eq_iff_iff, (compositeWalk_spec act source h x y).clipped, clipFlag, decide_eq_true_iff]
  constructor
  · rintro ⟨j, hj, hr⟩
    obtain ⟨h₁, h₂⟩ := coordinate_lt hj
    have : ¬(x + j % source.width.toNat < dest.width.toNat ∧ y + j / source.width.toNat < dest.height.toNat) := by
      rw [← PixelBuffer.inRange_iff, hr]; simp
    generalize j % source.width.toNat = sx at *
    generalize j / source.width.toNat = sy at *
    omega
  · rintro ⟨h₁, h₂, h₃⟩
    obtain ⟨hj, hm, hd⟩ := source_coordinate (Nat.sub_one_lt h₁.ne') (Nat.sub_one_lt h₂.ne')
    refine ⟨_, hj, ?_⟩
    rw [hm, hd, Bool.eq_false_iff, Ne, PixelBuffer.inRange_iff]
    omega

theorem compositeWalk_shape (act : PixelAction) (source : PixelBuffer) {dest : PixelBuffer} {cap : Nat}
    (h : dest.Inv cap) (x y : Nat) : dest.SameShape (compositeWalk act source dest x y).dest :=
  (compositeWalk_spec act source h x y).shape

theorem compositeWalk_inv (act : PixelAction) (source : PixelBuffer) {dest : PixelBuffer} {cap : Nat}
    (h : dest.Inv cap) (x y : Nat) : (compositeWalk act source dest x y).dest.Inv cap :=
  (compositeWalk_spec act source h x y).inv

/-! ### The actions -/

@[simp] theorem overlayAction_result (src old : RgbPixel) : PixelAction.result overlayAction src old = src := rfl

@[simp] theorem maskAction_result (key src old : RgbPixel) :
    PixelAction.result (maskAction key) src old = if src = key then old else src := by
  unfold PixelAction.result maskAction
  split <;> rfl

@[simp] theorem addAction_result (src old : RgbPixel) : PixelAction.result addAction src old = addPixel old src := rfl

end Sys2Proof.Machine
end

