-- ==== Sys2Proof/Laws/Exec.lean ====
section
/-! SUPPORT. Once and for all what a command, a packet and a step can do (the inversion lemmas later proofs cite). -/

namespace Sys2Proof.Machine

/-- The four things a command can do: raise, only respond, write the header and respond, write one slot and respond. -/
inductive CommandEffect (i : Instr) (s : State) : State → Prop
  | raised (e : ErrorKind) (he : e ∈ i.errorKinds) : CommandEffect i s (s.raise e)
  | responded (r : BitVec 64) (f : Bool) : CommandEffect i s (s.respond r f)
  | header (m : Memory) (r : BitVec 64) (f : Bool) (hi : i.writesHeader = true)
      (hm : s.Inv → Memory.wf m ∧ Memory.below headerLength m) :
      CommandEffect i s (({ s with hb := m } : State).respond r f)
  | slot (a : SlotNum) (b : PixelBuffer) (r : BitVec 64) (f : Bool) (ha : i.destSlot = some a)
      (hx : slotExists s.params.nbuf a = true) (hb : s.Inv → b.Inv s.params.cap) :
      CommandEffect i s ((s.setSlot a b).respond r f)

/-- A one-slot command whose slot exists runs its own rule. -/
theorem withSlot_of_exists {a : SlotNum} {s : State} (h : slotExists s.params.nbuf a = true) (k : PixelBuffer → State) :
    withSlot a s k = .next (k (s.slot a)) := by simp [withSlot, h]

theorem withSlot_of_missing {a : SlotNum} {s : State} (h : slotExists s.params.nbuf a = false) (k : PixelBuffer → State) :
    withSlot a s k = .next (s.raise .illegalCommand) := by simp [withSlot, h]

/-- A two-slot command whose slots exist and differ runs its own rule. -/
theorem withTwoSlots_of_exists {b a : SlotNum} {s : State} (ha : slotExists s.params.nbuf a = true)
    (hb : slotExists s.params.nbuf b = true) (hab : a ≠ b) (k : PixelBuffer → PixelBuffer → State) :
    withTwoSlots b a s k = .next (k (s.slot b) (s.slot a)) := by simp [withTwoSlots, ha, hb, hab]

theorem withTwoSlots_of_missing {b a : SlotNum} {s : State}
    (h : (slotExists s.params.nbuf a && slotExists s.params.nbuf b) = false) (k : PixelBuffer → PixelBuffer → State) :
    withTwoSlots b a s k = .next (s.raise .illegalCommand) := by simp [withTwoSlots, h]

theorem withTwoSlots_of_aliased {a : SlotNum} {s : State} (ha : slotExists s.params.nbuf a = true)
    (k : PixelBuffer → PixelBuffer → State) :
    withTwoSlots a a s k = .next (s.raise .aliasedOperands) := by simp [withTwoSlots, ha]

theorem withSlot_effect {i : Instr} {a : SlotNum} {s : State} {k : PixelBuffer → State}
    (he : ErrorKind.illegalCommand ∈ i.errorKinds)
    (hk : slotExists s.params.nbuf a = true → CommandEffect i s (k (s.slot a))) :
    ∃ t, withSlot a s k = .next t ∧ CommandEffect i s t := by
  cases h : slotExists s.params.nbuf a
  · exact ⟨_, withSlot_of_missing h k, .raised _ he⟩
  · exact ⟨_, withSlot_of_exists h k, hk h⟩

theorem withTwoSlots_effect {i : Instr} {b a : SlotNum} {s : State} {k : PixelBuffer → PixelBuffer → State}
    (he : ErrorKind.illegalCommand ∈ i.errorKinds) (he' : ErrorKind.aliasedOperands ∈ i.errorKinds)
    (hk : slotExists s.params.nbuf a = true → CommandEffect i s (k (s.slot b) (s.slot a))) :
    ∃ t, withTwoSlots b a s k = .next t ∧ CommandEffect i s t := by
  cases h : slotExists s.params.nbuf a && slotExists s.params.nbuf b
  · exact ⟨_, withTwoSlots_of_missing h k, .raised _ he⟩
  · obtain ⟨ha, hb⟩ := Bool.and_eq_true_iff.1 h
    by_cases hab : a = b
    · subst hab
      exact ⟨_, withTwoSlots_of_aliased ha k, .raised _ he'⟩
    · exact ⟨_, withTwoSlots_of_exists ha hb hab k, hk ha⟩

theorem withField_effect {i : Instr} {off size : Byte} {s : State} {k : Nat → Nat → State}
    (he : ErrorKind.fieldSizeOutOfRange ∈ i.errorKinds) (he' : ErrorKind.fieldOutOfBounds ∈ i.errorKinds)
    (hk : off.toNat + size.toNat ≤ headerLength → CommandEffect i s (k off.toNat size.toNat)) :
    ∃ t, withField off size s k = .next t ∧ CommandEffect i s t := by
  unfold withField
  split
  · exact ⟨_, rfl, .raised _ he⟩
  · split
    · exact ⟨_, rfl, .raised _ he'⟩
    · exact ⟨_, rfl, hk (by omega)⟩

/-- The header fields tile the header buffer, so writing them keeps its canonical form. -/
theorem inv_writeFields {fields : List (Nat × Nat × Nat)} (hf : ∀ f ∈ fields, f.1 + f.2.1 ≤ headerLength) {s : State}
    (h : s.Inv) : (writeFields fields s).Inv := by
  unfold writeFields
  induction fields generalizing s with
  | nil => exact h
  | cons f rest ih =>
    exact ih (fun g hg => hf g (by simp [hg])) (h.setHbField (hf f (by simp)) _)

theorem headerFields_fit (p : Config.Params) (b : PixelBuffer) :
    ∀ f ∈ headerFields p b, f.1 + f.2.1 ≤ headerLength := by simp [headerFields, headerLength]

/-- Writing header fields touches `HB` alone. -/
theorem writeFields_eq (fields : List (Nat × Nat × Nat)) (s : State) :
    writeFields fields s = { s with hb := (writeFields fields s).hb } := by
  unfold writeFields
  induction fields generalizing s with
  | nil => rfl
  | cons f rest ih => exact ih (s.setHbField f.1 f.2.1 f.2.2)

theorem composite_effect {i : Instr} {act : PixelAction} {b a : SlotNum} {x y : Word32} {s : State}
    (he : ErrorKind.illegalCommand ∈ i.errorKinds) (he' : ErrorKind.aliasedOperands ∈ i.errorKinds)
    (hd : i.destSlot = some a) : ∃ t, composite act b a x y s = .next t ∧ CommandEffect i s t :=
  withTwoSlots_effect he he' fun hx => .slot _ _ _ _ hd hx fun h => compositeWalk_inv _ _ (h.slot a) _ _

/-- Every command answers a next state, by one of the four effects. -/
theorem exec_effect (i : Instr) (s : State) : ∃ t, exec i s = .next t ∧ CommandEffect i s t := by
  cases i with
  | hbwr idx data =>
    simp only [exec, execHbwr]
    split
    · exact ⟨_, rfl, .raised _ (by simp [Instr.errorKinds])⟩
    · exact ⟨_, rfl, .header _ _ _ rfl fun h => (h.setHbByte (by omega) data).2.1 |> fun h₁ =>
        ⟨h₁, (h.setHbByte (by omega) data).2.2.1⟩⟩
  | hbrd idx =>
    simp only [exec, execHbrd]
    split
    · exact ⟨_, rfl, .raised _ (by simp [Instr.errorKinds])⟩
    · exact ⟨_, rfl, .responded _ _⟩
  | rdf off size =>
    unfold exec execRdf
    exact withField_effect (by simp [Instr.errorKinds]) (by simp [Instr.errorKinds]) fun _ => .responded _ _
  | wrf value off size =>
    unfold exec execWrf
    exact withField_effect (by simp [Instr.errorKinds]) (by simp [Instr.errorKinds]) fun hb =>
      .header _ _ _ rfl fun h => ⟨(h.setHbField hb value.toNat).2.1, (h.setHbField hb value.toNat).2.2.1⟩
  | hparse a =>
    unfold exec execHparse
    refine withSlot_effect (by simp [Instr.errorKinds]) fun hx => ?_
    have h₁ : absI32 (s.hbField 18 4) < 2 ^ 32 := by
      have := s.hbField_lt 18 4; unfold absI32 asI32; split <;> omega
    have h₂ : absI32 (s.hbField 22 4) < 2 ^ 32 := by
      have := s.hbField_lt 22 4; unfold absI32 asI32; split <;> omega
    dsimp only
    split_ifs
    · exact .raised _ (by simp [Instr.errorKinds])
    · exact .raised _ (by simp [Instr.errorKinds])
    · exact .raised _ (by simp [Instr.errorKinds])
    · exact .raised _ (by simp [Instr.errorKinds])
    · refine .slot _ _ _ _ rfl hx fun _ => PixelBuffer.Inv.zeroed ?_ _ _
      rwa [BitVec.toNat_ofNat, BitVec.toNat_ofNat, Nat.mod_eq_of_lt h₁, Nat.mod_eq_of_lt h₂]
  | hbuild a =>
    unfold exec execHbuild
    refine withSlot_effect (by simp [Instr.errorKinds]) fun hx => ?_
    rw [writeFields_eq]
    exact .header _ _ _ rfl fun h => ⟨(inv_writeFields (headerFields_fit _ _) h).2.1,
      (inv_writeFields (headerFields_fit _ _) h).2.2.1⟩
  | stride width => exact ⟨_, rfl, .responded _ _⟩
  | padlen width => exact ⟨_, rfl, .responded _ _⟩
  | init a width height bpp =>
    unfold exec execInit
    refine withSlot_effect (by simp [Instr.errorKinds]) fun hx => ?_
    split_ifs with h₁ h₂
    · exact .raised _ (by simp [Instr.errorKinds])
    · exact .raised _ (by simp [Instr.errorKinds])
    · exact .slot _ _ _ _ rfl hx fun _ => PixelBuffer.Inv.zeroed h₂ _ _
  | clear a =>
    unfold exec execClear
    exact withSlot_effect (by simp [Instr.errorKinds]) fun hx => .slot _ _ _ _ rfl hx fun _ => .empty _
  | get a x y ch =>
    unfold exec execGet
    refine withSlot_effect (by simp [Instr.errorKinds]) fun hx => ?_
    split_ifs <;> exact .responded _ _
  | getpx a x y =>
    unfold exec execGetpx
    refine withSlot_effect (by simp [Instr.errorKinds]) fun hx => ?_
    split_ifs <;> exact .responded _ _
  | set a x y ch val =>
    unfold exec execSet
    refine withSlot_effect (by simp [Instr.errorKinds]) fun hx => ?_
    split_ifs with hr
    · exact .slot _ _ _ _ rfl hx fun h => (h.slot a).setChannel hr _ _
    · exact .responded _ _
  | setpx a x y pix =>
    unfold exec execSetpx
    refine withSlot_effect (by simp [Instr.errorKinds]) fun hx => ?_
    split_ifs with hr
    · exact .slot _ _ _ _ rfl hx fun h => (h.slot a).setPixel hr _
    · exact .responded _ _
  | fill a ch val =>
    unfold exec execFill
    exact withSlot_effect (by simp [Instr.errorKinds]) fun hx => .slot _ _ _ _ rfl hx fun h => (h.slot a).mapChannel _ _
  | invert a ch =>
    unfold exec execInvert
    exact withSlot_effect (by simp [Instr.errorKinds]) fun hx => .slot _ _ _ _ rfl hx fun h => (h.slot a).mapChannel _ _
  | clone b a =>
    unfold exec execClone
    exact withTwoSlots_effect (by simp [Instr.errorKinds]) (by simp [Instr.errorKinds]) fun hx =>
      .slot _ _ _ _ rfl hx fun h => (h.slot b).cloneOf _
  | rddesc a sel =>
    unfold exec execRddesc
    exact withSlot_effect (by simp [Instr.errorKinds]) fun _ => .responded _ _
  | addpx pa pb => exact ⟨_, rfl, .responded _ _⟩
  | overlay b a x y =>
    unfold exec execOverlay
    exact composite_effect (by simp [Instr.errorKinds]) (by simp [Instr.errorKinds]) rfl
  | mask b a x y pix =>
    unfold exec execMask
    exact composite_effect (by simp [Instr.errorKinds]) (by simp [Instr.errorKinds]) rfl
  | add b a x y =>
    unfold exec execAdd
    exact composite_effect (by simp [Instr.errorKinds]) (by simp [Instr.errorKinds]) rfl

/-- What a command that answers t has done. -/
theorem exec_cases {i : Instr} {s t : State} (h : exec i s = .next t) : CommandEffect i s t := by
  obtain ⟨t', h', he⟩ := exec_effect i s
  rw [h'] at h
  cases h
  exact he

/-- Every packet answers a next state: IllegalCommand, or what its command does. -/
theorem runPacket_cases (w : Packet) (s : State) :
    (∃ e, decode w = .illegal e ∧ runPacket w s = .next (s.raise .illegalCommand)) ∨
    (∃ i, decode w = .ok i ∧ runPacket w s = exec i s) := by
  unfold runPacket
  cases decode w with
  | ok i => exact .inr ⟨i, rfl, rfl⟩
  | illegal e => exact .inl ⟨e, rfl, rfl⟩

/-- What a step is: idle, a reset, or a packet. -/
theorem step_cases (s : State) :
    (s.pending = [] ∧ step s = .next s) ∨
    (∃ rest, s.pending = .reset :: rest ∧ step s = .next ({ s with pending := rest } : State).afterReset) ∨
    (∃ w rest, s.pending = .packet w :: rest ∧ step s = runPacket w { s with pending := rest }) := by
  unfold step stepInput
  cases hp : s.pending with
  | nil => exact .inl ⟨rfl, rfl⟩
  | cons input rest =>
    cases input with
    | reset => exact .inr (.inl ⟨rest, rfl, rfl⟩)
    | packet w => exact .inr (.inr ⟨w, rest, rfl, rfl⟩)

end Sys2Proof.Machine
end

