-- ==== Sys2Proof/Laws/Outcomes.lean ====
section
/-! SUPPORT. The words of the statements (Safety.lean) in terms of the machine's own operations. -/

namespace Sys2Proof.Machine

/-! ### Outcomes -/

theorem OnlyResponse.refl (s : State) : OnlyResponse s s := ⟨rfl, rfl, rfl, rfl⟩

@[simp] theorem onlyResponse_respond (s : State) (r : BitVec 64) (f : Bool) : OnlyResponse s (s.respond r f) :=
  ⟨rfl, rfl, rfl, rfl⟩

@[simp] theorem onlyResponse_raise (s : State) (e : ErrorKind) : OnlyResponse s (s.raise e) := ⟨rfl, rfl, rfl, rfl⟩

/-- The error end of a command (00_scope.md R12). -/
theorem raises_raise (s : State) (e : ErrorKind) : Raises (.next (s.raise e)) s e.code :=
  ⟨_, rfl, rfl, rfl, rfl, onlyResponse_raise s e⟩

/-- The successful end of a command (00_scope.md R13). -/
theorem succeeds_respond (s : State) {r : BitVec 64} {f : Bool} {P : State → Prop} (h : P (s.respond r f)) :
    Succeeds (.next (s.respond r f)) r f P := ⟨_, rfl, rfl, rfl, rfl, h⟩

/-- A command that only responds. -/
theorem succeeds_onlyResponse (s : State) (r : BitVec 64) (f : Bool) :
    Succeeds (.next (s.respond r f)) r f (OnlyResponse s) := succeeds_respond s (onlyResponse_respond s r f)

theorem onlySlot_setSlot (s : State) (a : SlotNum) (b : PixelBuffer) (r : BitVec 64) (f : Bool) :
    OnlySlot a s ((s.setSlot a b).respond r f) :=
  ⟨rfl, rfl, rfl, by simp, fun _ hc => State.slot_setSlot_ne s b (Ne.symm hc)⟩

/-- A command that writes one slot and responds. -/
theorem succeeds_setSlot {s : State} (h : s.Inv) {a : SlotNum} (ha : slotExists s.params.nbuf a = true)
    (b : PixelBuffer) (r : BitVec 64) (f : Bool) :
    Succeeds (.next ((s.setSlot a b).respond r f)) r f fun t => OnlySlot a s t ∧ t.slot a = b :=
  succeeds_respond _ ⟨onlySlot_setSlot s a b r f, State.slot_setSlot_same s b (h.slot_lt ha)⟩

theorem Succeeds.mono {x : Result} {r : BitVec 64} {f : Bool} {P Q : State → Prop} (h : Succeeds x r f P)
    (hpq : ∀ t, P t → Q t) : Succeeds x r f Q := by
  obtain ⟨t, h₁, h₂, h₃, h₄, h₅⟩ := h
  exact ⟨t, h₁, h₂, h₃, h₄, hpq t h₅⟩

/-! ### Coordinates and fields -/

theorem inRange_iff {b : PixelBuffer} {x y : Nat} : b.inRange x y = true ↔ InRange b x y := by
  simp [PixelBuffer.inRange, InRange]

theorem coordinateFlag_iff {b : PixelBuffer} {x y : Word32} :
    coordinateFlag b x y = true ↔ InRange b x.toNat y.toNat := inRange_iff

theorem offset_eq_channelNumber (c : Channel) : Channel.offset c = channelNumber c := by cases c <;> rfl

theorem storageIndex_eq (b : PixelBuffer) (x y c : Nat) : storageIndex b x y c = pixelIndex b.width.toNat x y c := rfl

theorem channelAt_eq (b : PixelBuffer) (x y : Nat) (c : Channel) :
    b.channelAt x y c = b.px.read (storageIndex b x y (channelNumber c)) := by
  rw [PixelBuffer.channelAt, offset_eq_channelNumber]; rfl

theorem pixelAt_eq_storedPixel (b : PixelBuffer) (x y : Nat) : b.pixelAt x y = storedPixel b x y := rfl

theorem hbField_eq_leField (s : State) (a n : Nat) : s.hbField a n = leField s a n := s.hbField_eq_sum a n

theorem absI32_eq_signedMagnitude {v : Nat} (h : v < 2 ^ 32) : absI32 v = signedMagnitude v := by
  unfold absI32 asI32 signedMagnitude
  split <;> omega

theorem SameShape.refl (b : PixelBuffer) : b.SameShape b := ⟨rfl, rfl, rfl, rfl, rfl⟩

/-- The packed number of a pixel (30_encoding.md R66). -/
theorem pack_toNat (p : RgbPixel) : p.pack.toNat = p.r.toNat * 65536 + p.g.toNat * 256 + p.b.toNat := by
  have hr := p.r.isLt
  have hg := p.g.isLt
  have hb := p.b.isLt
  have h₁ : p.g.toNat * 256 ||| p.b.toNat = p.g.toNat * 256 + p.b.toNat := by
    simpa [Nat.shiftLeft_eq] using (Nat.shiftLeft_add_eq_or_of_lt (i := 8) hb p.g.toNat).symm
  have h₂ : p.r.toNat * 65536 ||| (p.g.toNat * 256 + p.b.toNat) = p.r.toNat * 65536 + (p.g.toNat * 256 + p.b.toNat) := by
    simpa [Nat.shiftLeft_eq] using
      (Nat.shiftLeft_add_eq_or_of_lt (i := 16) (b := p.g.toNat * 256 + p.b.toNat) (by omega) p.r.toNat).symm
  simp only [RgbPixel.pack, BitVec.toNat_or, BitVec.toNat_shiftLeft, BitVec.toNat_setWidth, Nat.shiftLeft_eq]
  rw [Nat.mod_eq_of_lt (a := p.r.toNat) (by omega), Nat.mod_eq_of_lt (a := p.g.toNat) (by omega),
    Nat.mod_eq_of_lt (a := p.b.toNat) (by omega), Nat.mod_eq_of_lt (by omega), Nat.mod_eq_of_lt (by omega), Nat.lor_assoc]
  norm_num only at h₁ h₂ ⊢
  rw [h₁, h₂, Nat.add_assoc]

end Sys2Proof.Machine
end

