-- ==== Sys2Proof/Laws/Commands.lean ====
section
/-! SUPPORT. What each command does once its decode checks pass: one equation per command, so that no later proof unfolds
the dispatch. -/

namespace Sys2Proof.Machine

variable {s : State} {a b : SlotNum}

theorem exec_hbwr_ok {idx : Byte} (h : idx.toNat < headerLength) (data : Byte) :
    exec (.hbwr idx data) s = .next ((s.setHbByte idx.toNat data).respond 0#64 noFlag) := if_neg (Nat.not_le.2 h)

theorem exec_hbwr_bad {idx : Byte} (h : headerLength ≤ idx.toNat) (data : Byte) :
    exec (.hbwr idx data) s = .next (s.raise .fieldOutOfBounds) := if_pos h

theorem exec_hbrd_ok {idx : Byte} (h : idx.toNat < headerLength) :
    exec (.hbrd idx) s = .next (s.respond ((s.hbByte idx.toNat).setWidth 64) noFlag) := if_neg (Nat.not_le.2 h)

theorem exec_hbrd_bad {idx : Byte} (h : headerLength ≤ idx.toNat) :
    exec (.hbrd idx) s = .next (s.raise .fieldOutOfBounds) := if_pos h

theorem withField_ok {off size : Byte} (h₁ : size.toNat ≤ 4) (h₂ : off.toNat + size.toNat ≤ headerLength)
    (k : Nat → Nat → State) : withField off size s k = .next (k off.toNat size.toNat) := by
  rw [withField, if_neg (Nat.not_lt.2 h₁), if_neg (Nat.not_lt.2 h₂)]

theorem withField_badSize {off size : Byte} (h : 4 < size.toNat) (k : Nat → Nat → State) :
    withField off size s k = .next (s.raise .fieldSizeOutOfRange) := if_pos h

theorem withField_badBounds {off size : Byte} (h₁ : size.toNat ≤ 4) (h₂ : headerLength < off.toNat + size.toNat)
    (k : Nat → Nat → State) : withField off size s k = .next (s.raise .fieldOutOfBounds) := by
  rw [withField, if_neg (Nat.not_lt.2 h₁), if_pos h₂]

theorem exec_rdf (off size : Byte) : exec (.rdf off size) s =
    withField off size s fun o n => s.respond (BitVec.ofNat 64 (s.hbField o n)) noFlag := rfl

theorem exec_wrf (value : Word32) (off size : Byte) : exec (.wrf value off size) s =
    withField off size s fun o n => (s.setHbField o n value.toNat).respond 0#64 noFlag := rfl

theorem exec_hbuild (ha : slotExists s.params.nbuf a = true) : exec (.hbuild a) s =
    .next ((writeFields (headerFields s.params (s.slot a)) s).respond 0#64 noFlag) := by
  rw [exec, execHbuild, withSlot_of_exists ha]

theorem exec_stride (width : Word32) :
    exec (.stride width) s = .next (s.respond (BitVec.ofNat 64 (strideOf width.toNat)) noFlag) := rfl

theorem exec_padlen (width : Word32) : exec (.padlen width) s =
    .next (s.respond (BitVec.ofNat 64 (strideOf width.toNat - width.toNat * 3)) noFlag) := rfl

theorem exec_init (ha : slotExists s.params.nbuf a = true) (width height : Word32) (bpp : BitVec 16) :
    exec (.init a width height bpp) s = .next
      (if bpp ≠ 24#16 then s.raise .unsupportedPixelDepth
      else if s.params.cap < width.toNat * height.toNat * 3 then s.raise .capacityExceeded
      else (s.setSlot a (PixelBuffer.zeroed width height s.params.defaultPpm s.params.defaultPpm)).respond 0#64 noFlag) := by
  rw [exec, execInit, withSlot_of_exists ha]

theorem exec_clear (ha : slotExists s.params.nbuf a = true) :
    exec (.clear a) s = .next ((s.setSlot a PixelBuffer.empty).respond 0#64 noFlag) := by
  rw [exec, execClear, withSlot_of_exists ha]

theorem exec_get_inRange (ha : slotExists s.params.nbuf a = true) {x y : Word32}
    (hr : InRange (s.slot a) x.toNat y.toNat) (ch : Channel) : exec (.get a x y ch) s =
    .next (s.respond (((s.slot a).channelAt x.toNat y.toNat ch).setWidth 64) true) := by
  rw [exec, execGet, withSlot_of_exists ha, if_pos (coordinateFlag_iff.2 hr)]

theorem exec_get_outOfRange (ha : slotExists s.params.nbuf a = true) {x y : Word32}
    (hr : ¬ InRange (s.slot a) x.toNat y.toNat) (ch : Channel) :
    exec (.get a x y ch) s = .next (s.respond 0#64 false) := by
  rw [exec, execGet, withSlot_of_exists ha, if_neg (mt coordinateFlag_iff.1 hr)]

theorem exec_getpx_inRange (ha : slotExists s.params.nbuf a = true) {x y : Word32}
    (hr : InRange (s.slot a) x.toNat y.toNat) : exec (.getpx a x y) s =
    .next (s.respond (((s.slot a).pixelAt x.toNat y.toNat).pack.setWidth 64) true) := by
  rw [exec, execGetpx, withSlot_of_exists ha, if_pos (coordinateFlag_iff.2 hr)]

theorem exec_getpx_outOfRange (ha : slotExists s.params.nbuf a = true) {x y : Word32}
    (hr : ¬ InRange (s.slot a) x.toNat y.toNat) : exec (.getpx a x y) s = .next (s.respond 0#64 false) := by
  rw [exec, execGetpx, withSlot_of_exists ha, if_neg (mt coordinateFlag_iff.1 hr)]

theorem exec_set_inRange (ha : slotExists s.params.nbuf a = true) {x y : Word32}
    (hr : InRange (s.slot a) x.toNat y.toNat) (ch : Channel) (v : Byte) : exec (.set a x y ch v) s =
    .next ((s.setSlot a ((s.slot a).setChannel x.toNat y.toNat ch v)).respond 0#64 true) := by
  rw [exec, execSet, withSlot_of_exists ha, if_pos (coordinateFlag_iff.2 hr)]

theorem exec_set_outOfRange (ha : slotExists s.params.nbuf a = true) {x y : Word32}
    (hr : ¬ InRange (s.slot a) x.toNat y.toNat) (ch : Channel) (v : Byte) :
    exec (.set a x y ch v) s = .next (s.respond 0#64 false) := by
  rw [exec, execSet, withSlot_of_exists ha, if_neg (mt coordinateFlag_iff.1 hr)]

theorem exec_setpx_inRange (ha : slotExists s.params.nbuf a = true) {x y : Word32}
    (hr : InRange (s.slot a) x.toNat y.toNat) (p : RgbPixel) : exec (.setpx a x y p) s =
    .next ((s.setSlot a ((s.slot a).setPixel x.toNat y.toNat p)).respond 0#64 true) := by
  rw [exec, execSetpx, withSlot_of_exists ha, if_pos (coordinateFlag_iff.2 hr)]

theorem exec_setpx_outOfRange (ha : slotExists s.params.nbuf a = true) {x y : Word32}
    (hr : ¬ InRange (s.slot a) x.toNat y.toNat) (p : RgbPixel) :
    exec (.setpx a x y p) s = .next (s.respond 0#64 false) := by
  rw [exec, execSetpx, withSlot_of_exists ha, if_neg (mt coordinateFlag_iff.1 hr)]

theorem exec_fill (ha : slotExists s.params.nbuf a = true) (ch : Channel) (v : Byte) : exec (.fill a ch v) s =
    .next ((s.setSlot a ((s.slot a).mapChannel ch fun _ => v)).respond 0#64 noFlag) := by
  rw [exec, execFill, withSlot_of_exists ha]

theorem exec_invert (ha : slotExists s.params.nbuf a = true) (ch : Channel) : exec (.invert a ch) s =
    .next ((s.setSlot a ((s.slot a).mapChannel ch fun v => v ^^^ 0xFF#8)).respond 0#64 noFlag) := by
  rw [exec, execInvert, withSlot_of_exists ha]

theorem exec_clone (ha : slotExists s.params.nbuf a = true) (hb : slotExists s.params.nbuf b = true) (hab : a ≠ b) :
    exec (.clone b a) s = .next ((s.setSlot a (cloneOf s.params (s.slot b))).respond 0#64 noFlag) := by
  rw [exec, execClone, withTwoSlots_of_exists ha hb hab]

theorem exec_rddesc (ha : slotExists s.params.nbuf a = true) (sel : Selector) :
    exec (.rddesc a sel) s = .next (s.respond (descriptor (s.slot a) sel) noFlag) := by
  rw [exec, execRddesc, withSlot_of_exists ha]

theorem exec_addpx (p q : RgbPixel) :
    exec (.addpx p q) s = .next (s.respond ((addPixel p q).pack.setWidth 64) noFlag) := rfl

/-- The three composites (43_compositor.md R112). -/
theorem composite_of_exists (act : PixelAction) (ha : slotExists s.params.nbuf a = true)
    (hb : slotExists s.params.nbuf b = true) (hab : a ≠ b) (x y : Word32) : composite act b a x y s =
    .next ((s.setSlot a (compositeWalk act (s.slot b) (s.slot a) x.toNat y.toNat).dest).respond 0#64
      (compositeWalk act (s.slot b) (s.slot a) x.toNat y.toNat).clipped) := by
  rw [composite, withTwoSlots_of_exists ha hb hab]

/-- A two-slot command on two equal slots (43_compositor.md R116). -/
theorem composite_of_aliased (act : PixelAction) (ha : slotExists s.params.nbuf a = true) (x y : Word32) :
    composite act a a x y s = .next (s.raise .aliasedOperands) := by
  rw [composite, withTwoSlots_of_aliased ha]

/-! ### The checks before the command's own rule -/

/-- A command that names a slot that does not exist (30_encoding.md R74 step 4). -/
theorem exec_of_missing {i : Instr} (h : i.slotsExist s.params.nbuf = false) :
    exec i s = .next (s.raise .illegalCommand) := by
  cases i <;> simp [Instr.slotsExist, Instr.slotFields] at h <;>
    simp [exec, execHparse, execHbuild, execInit, execClear, execGet, execGetpx, execSet, execSetpx, execFill, execInvert,
      execClone, execRddesc, execOverlay, execMask, execAdd, composite, withSlot, withTwoSlots, h] <;>
    intro ha hb <;> simp [h ha] at hb

/-- A command that names the same slot twice (30_encoding.md R74 step 5). -/
theorem exec_of_aliased {i : Instr} (h : i.slotsExist s.params.nbuf = true) (h' : i.slotsDiffer = false) :
    exec i s = .next (s.raise .aliasedOperands) := by
  cases i <;> simp [Instr.slotsDiffer, Instr.slotFields] at h' <;> subst h' <;>
    simp [Instr.slotsExist, Instr.slotFields] at h <;>
    simp [exec, execClone, execOverlay, execMask, execAdd, composite, withTwoSlots, h]

end Sys2Proof.Machine
end

