-- ==== Sys2Proof/Laws/Encoding.lean ====
section
/-! SUPPORT. The small lemmas of the encoding tables: opcodes, channels, selectors, pixels and placed fields. -/

namespace Sys2Proof

@[simp] theorem Opcode.ofCode_code (op : Opcode) : Opcode.ofCode op.code = some op := by cases op <;> decide

theorem Opcode.mem_all (op : Opcode) : op ∈ Opcode.all := by cases op <;> decide

/-- A number that `ofCode` reads is the opcode's own. -/
theorem Opcode.code_of_ofCode {c : BitVec 8} {op : Opcode} (h : Opcode.ofCode c = some op) : op.code = c := by
  have := List.find?_some h
  simpa using this

/-- No two rows of R62 share an opcode. -/
theorem Opcode.code_injective {op op' : Opcode} (h : op.code = op'.code) : op = op' := by
  have h₁ := Opcode.ofCode_code op
  rw [h, Opcode.ofCode_code] at h₁
  exact (Option.some.inj h₁).symm

@[simp] theorem Channel.ofCode_code (c : Channel) : Channel.ofCode c.code = some c := by cases c <;> decide

theorem Channel.code_of_ofCode : ∀ {v : BitVec 2} {c : Channel}, Channel.ofCode v = some c → c.code = v := by decide

theorem Channel.ofCode_eq_none : ∀ {v : BitVec 2}, Channel.ofCode v = none ↔ v = 3#2 := by decide

@[simp] theorem Selector.ofCode_code (s : Selector) : Selector.ofCode s.code = some s := by cases s <;> decide

theorem Selector.code_of_ofCode : ∀ {v : BitVec 3} {s : Selector}, Selector.ofCode v = some s → s.code = v := by decide

theorem Selector.ofCode_eq_none : ∀ {v : BitVec 3}, Selector.ofCode v = none ↔ (v = 6#3 ∨ v = 7#3) := by decide

/-- A bit of a placed field (R61). -/
theorem getLsbD_place {n : Nat} (lo : Nat) (v : BitVec n) (i : Nat) :
    (place lo v).getLsbD i = (decide (i < 128) && decide (lo ≤ i) && v.getLsbD (i - lo)) := by
  simp only [place, BitVec.getLsbD_shiftLeft, BitVec.getLsbD_setWidth]
  by_cases h₁ : i < 128 <;> by_cases h₂ : lo ≤ i
  · have h₃ : ¬ i < lo := by omega
    have h₄ : i - lo < 128 := by omega
    simp [h₁, h₂, h₃, h₄]
  · have h₃ : i < lo := by omega
    simp [h₁, h₂, h₃]
  · simp [h₁]
  · simp [h₁]

/-- A placed field read at its own position is the value placed there. -/
theorem extract_place_same {n : Nat} {lo : Nat} (h : lo + n ≤ 128) (v : BitVec n) :
    (place lo v).extractLsb' lo n = v := by
  apply BitVec.eq_of_getLsbD_eq
  intro i hi
  rw [BitVec.getLsbD_extractLsb', getLsbD_place]
  simp [hi, show lo + i < 128 by omega]

/-- A field read where nothing was placed is 0. -/
theorem extract_place_disjoint {n n' : Nat} {lo lo' : Nat} (h : lo + n ≤ lo' ∨ lo' + n' ≤ lo) (v : BitVec n) :
    (place lo v).extractLsb' lo' n' = 0#n' := by
  apply BitVec.eq_of_getLsbD_eq
  intro i hi
  rw [BitVec.getLsbD_extractLsb', getLsbD_place]
  rcases h with h | h
  · simp [BitVec.getLsbD_of_ge v (lo' + i - lo) (by omega)]
  · simp [show ¬ lo ≤ lo' + i by omega]

theorem or_and_mask (v w m : Packet) : (v ||| w) &&& m = v &&& m ||| w &&& m := by
  apply BitVec.eq_of_getLsbD_eq
  intro i hi
  simp only [BitVec.getLsbD_and, BitVec.getLsbD_or, Bool.and_or_distrib_right]

theorem extract_or (v w : Packet) (lo n : Nat) :
    (v ||| w).extractLsb' lo n = v.extractLsb' lo n ||| w.extractLsb' lo n := by
  apply BitVec.eq_of_getLsbD_eq
  intro i hi
  simp only [BitVec.getLsbD_or, BitVec.getLsbD_extractLsb', Bool.and_or_distrib_left]

/-- A field that lies outside a mask leaves no bit under it. -/
theorem place_and_mask {n : Nat} (lo : Nat) (v : BitVec n) {m : Packet}
    (h : place lo (BitVec.allOnes n) &&& m = 0#128) : place lo v &&& m = 0#128 := by
  apply BitVec.eq_of_getLsbD_eq
  intro i hi
  have hb := congrArg (fun w => BitVec.getLsbD w i) h
  simp only [BitVec.getLsbD_and, getLsbD_place, BitVec.getLsbD_zero, BitVec.getLsbD_allOnes] at hb ⊢
  by_cases hv : i - lo < n
  · simp only [hv, decide_true, Bool.and_true] at hb
    rw [Bool.and_right_comm, hb, Bool.false_and]
  · simp [BitVec.getLsbD_of_ge v (i - lo) (by omega)]

/-- Placing a field outside a mask does not change what stands under it. -/
theorem or_place_and_mask {n lo : Nat} {v : BitVec n} {w m c : Packet} (hw : w &&& m = c)
    (h : place lo (BitVec.allOnes n) &&& m = 0#128) : (w ||| place lo v) &&& m = c := by
  rw [or_and_mask, hw, place_and_mask lo v h, BitVec.or_zero]

/-- A field taken out of a packet and placed again is the packet under the field's bits. -/
theorem place_extract (lo n : Nat) (w : Packet) :
    place lo (w.extractLsb' lo n) = w &&& place lo (BitVec.allOnes n) := by
  apply BitVec.eq_of_getLsbD_eq
  intro i hi
  simp only [getLsbD_place, BitVec.getLsbD_and, BitVec.getLsbD_extractLsb', BitVec.getLsbD_allOnes]
  by_cases h : lo ≤ i
  · simp only [hi, h, show lo + (i - lo) = i by omega, decide_true, Bool.true_and]
    exact Bool.and_comm _ _
  · simp [h]

theorem place_code (op : Opcode) : place 0 op.code = op.code.setWidth 128 := by simp [place]

/-- What a packet that decodes to a command has passed (R74 steps 1 to 3). -/
theorem decode_ok {w : Packet} {i : Instr} (h : decode w = .ok i) :
    ∃ op, Opcode.ofCode w.op = some op ∧ w &&& op.reservedMask = op.code.setWidth 128 ∧ decodeFields op w = .ok i := by
  unfold decode at h
  split at h
  · cases h
  · rename_i op hop
    split at h
    · exact ⟨op, hop, ‹_›, h⟩
    · cases h

theorem withChannel_ok {c : BitVec 2} {k : Channel → Instr} {i : Instr} (h : withChannel c k = .ok i) :
    ∃ ch : Channel, ch.code = c ∧ k ch = i := by
  unfold withChannel at h
  split at h
  · exact ⟨_, Channel.code_of_ofCode ‹_›, by cases h; rfl⟩
  · cases h

theorem withSelector_ok {c : BitVec 3} {k : Selector → Instr} {i : Instr} (h : withSelector c k = .ok i) :
    ∃ sel : Selector, sel.code = c ∧ k sel = i := by
  unfold withSelector at h
  split at h
  · exact ⟨_, Selector.code_of_ofCode ‹_›, by cases h; rfl⟩
  · cases h

theorem RgbPixel.getLsbD_pack (p : RgbPixel) (i : Nat) : p.pack.getLsbD i =
    if i < 8 then p.b.getLsbD i else if i < 16 then p.g.getLsbD (i - 8) else if i < 24 then p.r.getLsbD (i - 16)
    else false := by
  simp only [RgbPixel.pack, BitVec.getLsbD_or, BitVec.getLsbD_shiftLeft, BitVec.getLsbD_setWidth]
  by_cases h₁ : i < 24
  · interval_cases i <;> simp
  · rw [if_neg (by omega), if_neg (by omega), if_neg h₁]
    simp [h₁]

@[simp] theorem RgbPixel.unpack_pack (p : RgbPixel) : RgbPixel.unpack p.pack = p := by
  apply RgbPixel.ext <;> apply BitVec.eq_of_getLsbD_eq <;> intro i hi <;>
    simp only [RgbPixel.unpack, BitVec.getLsbD_extractLsb', RgbPixel.getLsbD_pack] <;>
    interval_cases i <;> simp

@[simp] theorem RgbPixel.pack_unpack (v : BitVec 24) : (RgbPixel.unpack v).pack = v := by
  apply BitVec.eq_of_getLsbD_eq
  intro i hi
  simp only [RgbPixel.getLsbD_pack, RgbPixel.unpack, BitVec.getLsbD_extractLsb']
  interval_cases i <;> simp

end Sys2Proof
end

