-- ==== Sys2Proof/Laws/Header.lean ====
section
/-! SUPPORT. The header fields after a write, and after a list of writes that do not overlap (20_memory.md R41, R49). -/

namespace Sys2Proof.Machine

theorem State.hbField_setHbField_same {s : State} (h : s.Inv) (a n v : Nat) :
    (s.setHbField a n v).hbField a n = v % 256 ^ n := Memory.readLE_writeLE_same h.2.1 a n v

theorem State.hbField_setHbField_disjoint {s : State} (h : s.Inv) {a n b k : Nat} (v : Nat) (hd : b + k ≤ a ∨ a + n ≤ b) :
    (s.setHbField a n v).hbField b k = s.hbField b k := Memory.readLE_writeLE_disjoint h.2.1 v hd

@[simp] theorem State.hbField_respond (s : State) (r : BitVec 64) (f : Bool) (a n : Nat) :
    (s.respond r f).hbField a n = s.hbField a n := rfl

@[simp] theorem writeFields_params (fields : List (Nat × Nat × Nat)) (s : State) :
    (writeFields fields s).params = s.params := by rw [writeFields_eq]

@[simp] theorem writeFields_slots (fields : List (Nat × Nat × Nat)) (s : State) :
    (writeFields fields s).slots = s.slots := by rw [writeFields_eq]

@[simp] theorem writeFields_pending (fields : List (Nat × Nat × Nat)) (s : State) :
    (writeFields fields s).pending = s.pending := by rw [writeFields_eq]

@[simp] theorem State.slot_writeFields (fields : List (Nat × Nat × Nat)) (s : State) (a : SlotNum) :
    (writeFields fields s).slot a = s.slot a := by rw [State.slot, writeFields_slots, State.slot]

/-- Two fields that share no byte. -/
def fieldsApart (f g : Nat × Nat × Nat) : Prop := f.1 + f.2.1 ≤ g.1 ∨ g.1 + g.2.1 ≤ f.1

theorem hbField_writeFields_disjoint {fields : List (Nat × Nat × Nat)}
    (hf : ∀ f ∈ fields, f.1 + f.2.1 ≤ headerLength) {s : State} (h : s.Inv) {b k : Nat}
    (hd : ∀ f ∈ fields, b + k ≤ f.1 ∨ f.1 + f.2.1 ≤ b) : (writeFields fields s).hbField b k = s.hbField b k := by
  induction fields generalizing s with
  | nil => rfl
  | cons f rest ih =>
    have h₁ := ih (fun g hg => hf g (by simp [hg])) (h.setHbField (hf f (by simp)) f.2.2) fun g hg => hd g (by simp [hg])
    exact h₁.trans (State.hbField_setHbField_disjoint h _ (hd f (by simp)))

/-- Each of a list of fields that do not overlap reads back as its value. -/
theorem hbField_writeFields {fields : List (Nat × Nat × Nat)} (hf : ∀ f ∈ fields, f.1 + f.2.1 ≤ headerLength)
    (ha : fields.Pairwise fieldsApart) {s : State} (h : s.Inv) {f : Nat × Nat × Nat} (hm : f ∈ fields) :
    (writeFields fields s).hbField f.1 f.2.1 = f.2.2 % 256 ^ f.2.1 := by
  induction fields generalizing s with
  | nil => cases hm
  | cons g rest ih =>
    have hi := h.setHbField (hf g (by simp)) g.2.2
    have hr : ∀ f ∈ rest, f.1 + f.2.1 ≤ headerLength := fun k hk => hf k (by simp [hk])
    rcases List.mem_cons.1 hm with rfl | hm
    · refine (hbField_writeFields_disjoint hr hi fun k hk => ?_).trans (State.hbField_setHbField_same h _ _ _)
      exact (List.pairwise_cons.1 ha).1 k hk
    · exact ih hr (List.pairwise_cons.1 ha).2 hi hm

theorem headerFields_apart (p : Config.Params) (b : PixelBuffer) : (headerFields p b).Pairwise fieldsApart := by
  simp [headerFields, fieldsApart]

/-- A field that `HBUILD` writes, read after it (40_header_codec.md R87). -/
theorem hbField_headerFields {s : State} (h : s.Inv) {p : Config.Params} {b : PixelBuffer} {off n v : Nat}
    (hm : (off, n, v) ∈ headerFields p b) (hv : v < 256 ^ n) :
    (writeFields (headerFields p b) s).hbField off n = v :=
  (hbField_writeFields (headerFields_fit p b) (headerFields_apart p b) h hm).trans (Nat.mod_eq_of_lt hv)

theorem hbByte_writeFields_outside {fields : List (Nat × Nat × Nat)} (hf : ∀ f ∈ fields, f.1 + f.2.1 ≤ headerLength)
    {s : State} (h : s.Inv) {i : Nat} (hi : headerLength ≤ i) : (writeFields fields s).hbByte i = s.hbByte i := by
  have h₁ := (inv_writeFields hf h).2.2.1
  exact (Memory.read_of_below h₁ hi).trans (Memory.read_of_below h.2.2.1 hi).symm

/-- Everything `HBUILD` does, as one statement about the state it leads to (40_header_codec.md R87). -/
theorem exec_hbuild_spec {s : State} (h : s.Inv) {a : SlotNum} (ha : slotExists s.params.nbuf a = true) :
    ∃ t, exec (.hbuild a) s = .next t ∧ t.Inv ∧ OnlyHeader s t ∧ t.err = 0#8 ∧
      ∀ off n v, (off, n, v) ∈ headerFields s.params (s.slot a) → v < 256 ^ n → t.hbField off n = v := by
  refine ⟨_, exec_hbuild ha, (inv_writeFields (headerFields_fit _ _) h).respond _ _, ⟨?_, ?_, ?_⟩, rfl, ?_⟩
  · simp
  · simp
  · simp
  · intro off n v hm hv
    rw [State.hbField_respond]
    exact hbField_headerFields h hm hv

/-- What `HPARSE` does with the header fields of `HB` (40_header_codec.md R84). -/
theorem exec_hparse {s : State} {a : SlotNum} (ha : slotExists s.params.nbuf a = true) : exec (.hparse a) s = .next
    (if s.hbField 0 2 ≠ 0x4D42 then s.raise .invalidMagicNumber
    else if s.hbField 14 4 ≠ 40 then s.raise .unsupportedHeaderVersion
    else if s.hbField 28 2 ≠ 24 then s.raise .unsupportedPixelDepth
    else if s.params.cap < absI32 (s.hbField 18 4) * absI32 (s.hbField 22 4) * 3 then s.raise .capacityExceeded
    else (s.setSlot a (PixelBuffer.zeroed (BitVec.ofNat 32 (absI32 (s.hbField 18 4)))
      (BitVec.ofNat 32 (absI32 (s.hbField 22 4))) (BitVec.ofNat 32 (s.hbField 38 4))
      (BitVec.ofNat 32 (s.hbField 42 4)))).respond 0#64 noFlag) := by
  rw [exec, execHparse, withSlot_of_exists ha]

theorem absI32_of_le {n : Nat} (h : n ≤ 2 ^ 31) : absI32 n = n := by
  unfold absI32 asI32
  split <;> omega

end Sys2Proof.Machine
end

