-- ==== Sys2Proof/Laws/HostSequences.lean ====
section
/-! SUPPORT. What the host sequences do, command by command (45_file_image.md R121, R122). The lemmas take from the encoding
that a command's packet decodes to the command. -/

namespace Sys2Proof.Machine

/-- Every command's packet decodes to it. -/
def PacketsDecode : Prop := ∀ i : Instr, decode (encode i) = .ok i

theorem issue_of_exec (hd : PacketsDecode) {i : Instr} {s t : State} (h : exec i s = .next t) : issue i s = t := by
  simp [issue, runPacket, hd i, h, Result.stateOr]

/-- A run of commands that succeeded and changed nothing but the response. -/
def Quiet (s t : State) : Prop := OnlyResponse s t ∧ t.err = 0#8

theorem Quiet.respond {s t : State} (h : Quiet s t) (r : BitVec 64) (f : Bool) : Quiet s (t.respond r f) := ⟨h.1, rfl⟩

theorem Quiet.slot {s t : State} (h : Quiet s t) (a : SlotNum) : t.slot a = s.slot a := by
  rw [State.slot, h.1.2.2.1, State.slot]

theorem Quiet.hbByte {s t : State} (h : Quiet s t) (i : Nat) : t.hbByte i = s.hbByte i := by
  rw [State.hbByte, h.1.2.1, State.hbByte]

/-! ### ENCODE_IMAGE -/

/-- The three bytes of a pixel in file order: blue, green, red. -/
def pixelBytes (p : RgbPixel) : List Byte := [p.b, p.g, p.r]

/-- One file row: its pixels, then its pad bytes. -/
def rowBytes (b : PixelBuffer) (y : Nat) : List Byte :=
  (List.range b.width.toNat).flatMap (fun x => pixelBytes (b.pixelAt x y)) ++
    List.replicate (strideOf b.width.toNat - b.width.toNat * 3) 0#8

/-- The header bytes, in order. -/
def headerBytes (s : State) : List Byte := (List.range headerLength).map s.hbByte

/-- The whole file image of a buffer: rows from the bottom of the picture up. -/
def imageBytes (s : State) (b : PixelBuffer) : List Byte :=
  headerBytes s ++ (List.range b.height.toNat).reverse.flatMap (rowBytes b)

theorem packedBytes (p : RgbPixel) : [(p.pack.setWidth 64).extractLsb' 0 8, (p.pack.setWidth 64).extractLsb' 8 8,
    (p.pack.setWidth 64).extractLsb' 16 8] = pixelBytes p := by
  have h : ∀ lo, lo + 8 ≤ 24 → (p.pack.setWidth 64).extractLsb' lo 8 = p.pack.extractLsb' lo 8 := fun lo hlo => by
    apply BitVec.eq_of_getLsbD_eq
    intro i hi
    simp [hi, show lo + i < 64 by omega]
  rw [h 0 (by decide), h 8 (by decide), h 16 (by decide)]
  exact congrArg pixelBytes (RgbPixel.unpack_pack p)

/-- The sequence still runs, and since the block stood at `s` every command has succeeded and changed nothing but the
response. -/
structure Running (s : State) (e : Encoding) : Prop where
  quiet : Quiet s e.block
  ok : e.result = .ok

/-- From `e` on, `n` commands were issued, each answered `ERR` = 0, and `bytes` were written; the sequence still runs. -/
structure Encoded (s : State) (e e' : Encoding) (bytes : List Byte) (n : Nat) : Prop extends Running s e' where
  file : e'.file = e.file ++ bytes
  errs : e'.errs = e.errs ++ List.replicate n 0#8

theorem Encoded.refl {s : State} {e : Encoding} (h : Running s e) : Encoded s e e [] 0 := ⟨h, by simp, by simp⟩

theorem Encoded.trans {s : State} {e e' e'' : Encoding} {bytes bytes' : List Byte} {n n' : Nat}
    (h : Encoded s e e' bytes n) (h' : Encoded s e' e'' bytes' n') : Encoded s e e'' (bytes ++ bytes') (n + n') :=
  ⟨h'.toRunning, by rw [h'.file, h.file, List.append_assoc],
    by rw [h'.errs, h.errs, List.append_assoc, List.replicate_add]⟩

/-- A command that responds leaves the sequence running. -/
theorem Running.send (hd : PacketsDecode) {s : State} {e : Encoding} (h : Running s e) {i : Instr} {r : BitVec 64} {f : Bool}
    (hi : exec i e.block = .next (e.block.respond r f)) :
    Encoded s e (e.send i) [] 1 ∧ (e.send i).block = e.block.respond r f := by
  have hs : e.send i = { e with block := e.block.respond r f, errs := e.errs ++ [0#8], result := .ok } := by
    simp [Encoding.send, h.ok, issue_of_exec hd hi]
  rw [hs]
  exact ⟨⟨⟨h.quiet.respond r f, rfl⟩, by simp, rfl⟩, rfl⟩

theorem Running.emit {s : State} {e : Encoding} (h : Running s e) (bytes : State → List Byte) :
    Encoded s e (e.emit bytes) (bytes e.block) 0 := by
  have hs : e.emit bytes = { e with file := e.file ++ bytes e.block } := by simp [Encoding.emit, h.ok]
  rw [hs]
  exact ⟨⟨h.quiet, h.ok⟩, rfl, by simp⟩

/-- A loop of the sequence: each round writes its bytes with n commands. -/
theorem Encoded.foldl {α : Type} {s : State} {step : Encoding → α → Encoding} {bytes : α → List Byte} {n : Nat} (xs : List α)
    (hstep : ∀ x ∈ xs, ∀ e, Running s e → Encoded s e (step e x) (bytes x) n) {e : Encoding} (h : Running s e) :
    Encoded s e (xs.foldl step e) (xs.flatMap bytes) (xs.length * n) := by
  induction xs generalizing e with
  | nil => simpa using Encoded.refl h
  | cons x xs ih =>
    have h₁ := hstep x (by simp) e h
    have h₂ := h₁.trans (ih (fun y hy => hstep y (by simp [hy])) h₁.toRunning)
    rwa [← List.flatMap_cons, show n + xs.length * n = (x :: xs).length * n by
      rw [List.length_cons, Nat.add_mul]; omega] at h₂

theorem encodeHeaderByte_spec (hd : PacketsDecode) {s : State} {i : Nat} (hi : i < headerLength) (e : Encoding)
    (he : Running s e) : Encoded s e (encodeHeaderByte e i) [s.hbByte i] 1 := by
  have hn : (BitVec.ofNat 8 i).toNat = i := by simp [headerLength] at hi ⊢; omega
  obtain ⟨h₁, h₂⟩ := he.send hd (exec_hbrd_ok (by rw [hn]; exact hi))
  have h₃ := h₁.trans (h₁.emit fun t => [t.res.setWidth 8])
  rw [h₂, State.respond_res, hn, he.quiet.hbByte] at h₃
  simpa [encodeHeaderByte] using h₃

theorem encodePixel_spec (hd : PacketsDecode) {s : State} {a : SlotNum} (ha : slotExists s.params.nbuf a = true) {x y : Nat}
    (hx : x < (s.slot a).width.toNat) (hy : y < (s.slot a).height.toNat) (e : Encoding) (he : Running s e) :
    Encoded s e (encodePixel a y e x) (pixelBytes ((s.slot a).pixelAt x y)) 1 := by
  have hw := (s.slot a).width.isLt
  have hh := (s.slot a).height.isLt
  have hx' : (BitVec.ofNat 32 x).toNat = x := by simp; omega
  have hy' : (BitVec.ofNat 32 y).toNat = y := by simp; omega
  obtain ⟨h₁, h₂⟩ := he.send hd (exec_getpx_inRange (a := a) (x := BitVec.ofNat 32 x) (y := BitVec.ofNat 32 y)
    (by rw [he.quiet.1.1]; exact ha) (by rw [hx', hy', he.quiet.slot]; exact ⟨hx, hy⟩))
  have h₃ := h₁.trans (h₁.emit fun t => [t.res.extractLsb' 0 8, t.res.extractLsb' 8 8, t.res.extractLsb' 16 8])
  rw [h₂, State.respond_res, packedBytes, hx', hy', he.quiet.slot] at h₃
  exact h₃

theorem encodeRow_spec (hd : PacketsDecode) {s : State} {a : SlotNum} (ha : slotExists s.params.nbuf a = true) {y : Nat}
    (hy : y < (s.slot a).height.toNat) (e : Encoding) (he : Running s e) :
    Encoded s e
      (encodeRow a (s.slot a).width.toNat (strideOf (s.slot a).width.toNat - (s.slot a).width.toNat * 3) e y)
      (rowBytes (s.slot a) y) (s.slot a).width.toNat := by
  have h₁ := Encoded.foldl (List.range (s.slot a).width.toNat)
    (fun x hx e' he' => encodePixel_spec hd ha (List.mem_range.1 hx) hy e' he') he
  have h₂ := h₁.trans (h₁.emit fun _ =>
    List.replicate (strideOf (s.slot a).width.toNat - (s.slot a).width.toNat * 3) 0#8)
  simpa [encodeRow, rowBytes] using h₂

theorem strideOf_eq (w : Nat) : strideOf w = w * 3 + w % 4 := by unfold strideOf; split <;> omega

/-- Everything ENCODE_IMAGE does for an existing slot: `HBUILD`, 58 more commands around the header, one `GETPX` a pixel,
each answered `ERR` = 0. -/
theorem encodeImage_spec (hd : PacketsDecode) {s : State} {a : SlotNum} (ha : slotExists s.params.nbuf a = true) :
    ∃ t, exec (.hbuild a) s = .next t ∧ Running t (encodeImage a s) ∧
      (encodeImage a s).file = imageBytes t (s.slot a) ∧
      (encodeImage a s).errs = List.replicate (59 + (s.slot a).height.toNat * (s.slot a).width.toNat) 0#8 := by
  refine ⟨_, exec_hbuild ha, ?_⟩
  set t := (writeFields (headerFields s.params (s.slot a)) s).respond 0#64 noFlag with ht
  have hp : t.params = s.params := by rw [ht]; simp
  have hs : t.slot a = s.slot a := by rw [ht]; simp
  have ha' : slotExists t.params.nbuf a = true := by rw [hp]; exact ha
  have h₀ : (Encoding.start s).send (.hbuild a) = { block := t, file := [], errs := [0#8], result := .ok } := by
    simp only [Encoding.send, Encoding.start, issue_of_exec hd (exec_hbuild ha), ← ht, List.nil_append]
    rw [ht]
    rfl
  have r₀ : Running t ((Encoding.start s).send (.hbuild a)) := by rw [h₀]; exact ⟨⟨OnlyResponse.refl t, rfl⟩, rfl⟩
  have hw := (s.slot a).width.isLt
  have hh := (s.slot a).height.isLt
  have c₁ := Encoded.foldl (List.range headerLength)
    (fun i hi e he => encodeHeaderByte_spec hd (List.mem_range.1 hi) e he) r₀
  obtain ⟨c₂, b₂⟩ := c₁.send hd (exec_rddesc (by rw [c₁.quiet.1.1]; exact ha') .width)
  obtain ⟨c₃, b₃⟩ := c₂.send hd (exec_rddesc (by rw [c₂.quiet.1.1]; exact ha') .height)
  have w₁ := congrArg (fun u : State => u.res.toNat) b₂
  have w₂ := congrArg (fun u : State => u.res.toNat) b₃
  simp only [State.respond_res, c₁.quiet.slot, c₂.quiet.slot, hs, descriptor, BitVec.toNat_setWidth] at w₁ w₂
  rw [Nat.mod_eq_of_lt (by omega)] at w₁ w₂
  obtain ⟨c₄, -⟩ := c₃.send hd (exec_stride (s.slot a).width)
  obtain ⟨c₅, b₅⟩ := c₄.send hd (exec_padlen (s.slot a).width)
  have w₃ : ((((((List.range headerLength).foldl encodeHeaderByte ((Encoding.start s).send (.hbuild a))).send
      (.rddesc a .width)).send (.rddesc a .height)).send (.stride (s.slot a).width)).send
      (.padlen (s.slot a).width)).block.res.toNat =
      strideOf (s.slot a).width.toNat - (s.slot a).width.toNat * 3 := by
    rw [b₅, State.respond_res, strideOf_eq, BitVec.toNat_ofNat, Nat.mod_eq_of_lt]
    omega
  have c₆ := Encoded.foldl (List.range (s.slot a).height.toNat).reverse
    (fun y hy e he => encodeRow_spec hd (y := y) ha' (by rw [hs]; simpa using hy) e he) c₅.toRunning
  have c := ((((c₁.trans c₂).trans c₃).trans c₄).trans c₅).trans c₆
  have he : encodeImage a s = (List.range (s.slot a).height.toNat).reverse.foldl
      (encodeRow a (t.slot a).width.toNat (strideOf (t.slot a).width.toNat - (t.slot a).width.toNat * 3))
      ((((((List.range headerLength).foldl encodeHeaderByte ((Encoding.start s).send (.hbuild a))).send
        (.rddesc a .width)).send (.rddesc a .height)).send (.stride (s.slot a).width)).send
        (.padlen (s.slot a).width)) := by
    simp only [encodeImage, w₁, w₂, BitVec.ofNat_toNat, BitVec.setWidth_eq, w₃, hs]
  rw [he]
  refine ⟨c.toRunning, c.file.trans ?_, c.errs.trans ?_⟩
  · simp [h₀, imageBytes, headerBytes, hs, ← List.map_eq_flatMap]
  · rw [h₀, hs, show [0#8] = List.replicate 1 0#8 from rfl, ← List.replicate_add]
    simp [headerLength]
    omega

/-- A sequence that has ended issues and writes nothing more. -/
theorem Encoding.foldl_of_error {α : Type} {step : Encoding → α → Encoding} {c : BitVec 8}
    (hstep : ∀ (e : Encoding) (x : α), e.result = .error c → step e x = e) (xs : List α) (e : Encoding)
    (h : e.result = .error c) : xs.foldl step e = e := by
  induction xs with
  | nil => rfl
  | cons x xs ih => rw [List.foldl_cons, hstep e x h, ih]

theorem Encoding.send_of_error {e : Encoding} {c : BitVec 8} (h : e.result = .error c) (i : Instr) : e.send i = e := by
  simp [Encoding.send, h]

theorem Encoding.emit_of_error {e : Encoding} {c : BitVec 8} (h : e.result = .error c) (bytes : State → List Byte) :
    e.emit bytes = e := by simp [Encoding.emit, h]

/-- For a slot number that names no slot the sequence ends at `HBUILD`. -/
theorem encodeImage_of_missing (hd : PacketsDecode) {s : State} {a : SlotNum} (ha : slotExists s.params.nbuf a = false) :
    encodeImage a s = { block := s.raise .illegalCommand, file := [], errs := [8#8], result := .error 8#8 } := by
  have h₀ : (Encoding.start s).send (.hbuild a) =
      { block := s.raise .illegalCommand, file := [], errs := [8#8], result := .error 8#8 } := by
    have hm : Instr.slotsExist s.params.nbuf (.hbuild a) = false := by simp [Instr.slotsExist, Instr.slotFields, ha]
    simp only [Encoding.send, Encoding.start, issue_of_exec hd (exec_of_missing hm), List.nil_append]
    rfl
  have hr := congrArg Encoding.result h₀
  have hbyte : ∀ (e : Encoding) (i : Nat), e.result = .error 8#8 → encodeHeaderByte e i = e := fun e i h => by
    rw [encodeHeaderByte, Encoding.send_of_error h, Encoding.emit_of_error h]
  have hpixel : ∀ (y : Nat) (e : Encoding) (x : Nat), e.result = .error 8#8 → encodePixel a y e x = e := fun y e x h => by
    rw [encodePixel, Encoding.send_of_error h, Encoding.emit_of_error h]
  have hrow : ∀ (w pad : Nat) (e : Encoding) (y : Nat), e.result = .error 8#8 → encodeRow a w pad e y = e :=
    fun w pad e y h => by
      rw [encodeRow, Encoding.foldl_of_error (hpixel y) _ e h, Encoding.emit_of_error h]
  simp only [encodeImage]
  rw [Encoding.foldl_of_error hbyte _ _ hr]
  simp only [Encoding.send_of_error hr]
  rw [Encoding.foldl_of_error (hrow _ _) _ _ hr, h₀]

/-! ### The layout of the image (45_file_image.md R120) -/

theorem getElem?_flatMap_blocks {α β : Type} (g : α → List β) (n : Nat) (ys : List α) (hg : ∀ y ∈ ys, (g y).length = n)
    {i k : Nat} (hi : i < ys.length) (hk : k < n) : (ys.flatMap g)[i * n + k]? = (g ys[i])[k]? := by
  induction ys generalizing i with
  | nil => simp at hi
  | cons y ys ih =>
    have hy : (g y).length = n := hg y (by simp)
    rw [List.flatMap_cons]
    cases i with
    | zero => rw [Nat.zero_mul, Nat.zero_add, List.getElem?_append_left (by omega)]; rfl
    | succ i =>
      rw [List.getElem?_append_right (by rw [hy, Nat.add_mul]; omega), hy,
        show (i + 1) * n + k - n = i * n + k by rw [Nat.add_mul]; omega]
      exact ih (fun z hz => hg z (by simp [hz])) (by simpa using hi)

theorem length_flatMap_blocks {α β : Type} (g : α → List β) (n : Nat) (ys : List α) (hg : ∀ y ∈ ys, (g y).length = n) :
    (ys.flatMap g).length = ys.length * n := by
  induction ys with
  | nil => simp
  | cons y ys ih =>
    rw [List.flatMap_cons, List.length_append, ih fun z hz => hg z (by simp [hz]), hg y (by simp), List.length_cons,
      Nat.add_mul]
    omega

theorem length_pixels (b : PixelBuffer) (y : Nat) :
    ((List.range b.width.toNat).flatMap (fun x => pixelBytes (b.pixelAt x y))).length = b.width.toNat * 3 := by
  rw [length_flatMap_blocks _ 3 _ fun _ _ => rfl, List.length_range]

theorem length_rowBytes (b : PixelBuffer) (y : Nat) : (rowBytes b y).length = strideOf b.width.toNat := by
  rw [rowBytes, List.length_append, length_pixels, List.length_replicate, strideOf_eq]
  omega

theorem length_headerBytes (s : State) : (headerBytes s).length = 54 := by simp [headerBytes, headerLength]

theorem length_imageBytes (s : State) (b : PixelBuffer) :
    (imageBytes s b).length = 54 + strideOf b.width.toNat * b.height.toNat := by
  rw [imageBytes, List.length_append, length_headerBytes,
    length_flatMap_blocks _ _ _ fun y _ => length_rowBytes b y, List.length_reverse, List.length_range, Nat.mul_comm]

/-- Channel byte c of pixel x of a file row. -/
theorem getElem?_rowBytes_pixel (b : PixelBuffer) (y : Nat) {x : Nat} (hx : x < b.width.toNat) {c : Nat} (hc : c < 3) :
    (rowBytes b y)[x * 3 + c]? = (pixelBytes (b.pixelAt x y))[c]? := by
  rw [rowBytes, List.getElem?_append_left (by rw [length_pixels]; omega),
    getElem?_flatMap_blocks _ 3 _ (fun _ _ => rfl) (by simpa using hx) hc]
  simp

theorem getElem?_rowBytes_pad (b : PixelBuffer) (y : Nat) {j : Nat}
    (hj : j < strideOf b.width.toNat - b.width.toNat * 3) : (rowBytes b y)[b.width.toNat * 3 + j]? = some 0#8 := by
  rw [rowBytes, List.getElem?_append_right (by rw [length_pixels]; omega), length_pixels, Nat.add_sub_cancel_left]
  simp [hj]

/-- A byte of file row f is that byte of buffer row height − 1 − f. -/
theorem getElem?_imageBytes (s : State) (b : PixelBuffer) {f k : Nat} (hf : f < b.height.toNat)
    (hk : k < strideOf b.width.toNat) :
    (imageBytes s b)[54 + f * strideOf b.width.toNat + k]? = (rowBytes b (b.height.toNat - 1 - f))[k]? := by
  rw [imageBytes, List.getElem?_append_right (by rw [length_headerBytes]; omega), length_headerBytes,
    show 54 + f * strideOf b.width.toNat + k - 54 = f * strideOf b.width.toNat + k by omega,
    getElem?_flatMap_blocks _ _ _ (fun y _ => length_rowBytes b y) (by simpa using hf) hk]
  simp

theorem getElem?_imageBytes_header (s : State) (b : PixelBuffer) {i : Nat} (hi : i < headerLength) :
    (imageBytes s b)[i]? = some (s.hbByte i) := by
  rw [imageBytes, List.getElem?_append_left (by rw [length_headerBytes]; exact hi)]
  simp [headerBytes, hi]

/-! ### DECODE_IMAGE -/

theorem OnlySlot.trans {a : SlotNum} {s t u : State} (h₁ : OnlySlot a s t) (h₂ : OnlySlot a t u) : OnlySlot a s u :=
  ⟨h₂.1.trans h₁.1, h₂.2.1.trans h₁.2.1, h₂.2.2.1.trans h₁.2.2.1, h₂.2.2.2.1.trans h₁.2.2.2.1,
    fun c hc => (h₂.2.2.2.2 c hc).trans (h₁.2.2.2.2 c hc)⟩

theorem OnlySlot.refl (a : SlotNum) (s : State) : OnlySlot a s s := ⟨rfl, rfl, rfl, rfl, fun _ _ => rfl⟩

/-- The header bytes of a file, loaded one by one. -/
theorem loadHeader_spec (hd : PacketsDecode) (f : FileSource) {s : State} (h : s.Inv) (n : Nat) (hn : n ≤ headerLength) :
    let t := (List.range n).foldl (loadHeaderByte f) s
    t.Inv ∧ OnlyHeader s t ∧ ∀ i, t.hbByte i = if i < n then f.byte i else s.hbByte i := by
  induction n with
  | zero => exact ⟨h, ⟨rfl, rfl, rfl⟩, fun i => by simp⟩
  | succ n ih =>
    obtain ⟨h₁, h₂, h₃⟩ := ih (by omega)
    simp only [List.range_succ, List.foldl_append, List.foldl_cons, List.foldl_nil, loadHeaderByte]
    have hi : (BitVec.ofNat 8 n).toNat = n := by simp [headerLength] at hn ⊢; omega
    rw [issue_of_exec hd (exec_hbwr_ok (by rw [hi]; omega) _), hi]
    refine ⟨(h₁.setHbByte (by omega) _).respond _ _, h₂, fun i => ?_⟩
    rw [State.hbByte_respond, State.hbByte_setHbByte h₁, h₃]
    by_cases h₄ : n = i
    · subst h₄; simp
    · rw [if_neg h₄]
      by_cases h₅ : i < n
      · rw [if_pos h₅, if_pos (by omega)]
      · rw [if_neg h₅, if_neg (by omega)]

/-- The pixel whose bytes stand at a file position. -/
def filePixel (f : FileSource) (i : Nat) : RgbPixel where
  r := f.byte (i + 2)
  g := f.byte (i + 1)
  b := f.byte i

/-- What a run of pixel writes into slot a has done. -/
structure RowsWritten (a : SlotNum) (s t : State) (pixel : Nat → Nat → RgbPixel) : Prop where
  inv : t.Inv
  frame : OnlySlot a s t
  shape : (s.slot a).SameShape (t.slot a)
  pixels : ∀ x y, (s.slot a).inRange x y = true → (t.slot a).pixelAt x y = pixel x y

theorem decodePixel_spec (hd : PacketsDecode) (f : FileSource) {s : State} (h : s.Inv) {a : SlotNum}
    (ha : slotExists s.params.nbuf a = true) (rowAt : Nat) {y : Nat} (hy : y < (s.slot a).height.toNat) (n : Nat)
    (hn : n ≤ (s.slot a).width.toNat) : RowsWritten a s ((List.range n).foldl (decodePixel a f rowAt y) s)
      (fun x' y' => if y' = y ∧ x' < n then filePixel f (rowAt + x' * 3) else (s.slot a).pixelAt x' y') := by
  induction n with
  | zero => exact ⟨h, .refl a s, SameShape.refl _, fun x y _ => by simp⟩
  | succ n ih =>
    obtain ⟨h₁, h₂, h₃, h₄⟩ := ih (by omega)
    simp only [List.range_succ, List.foldl_append, List.foldl_cons, List.foldl_nil, decodePixel]
    generalize (List.range n).foldl (decodePixel a f rowAt y) s = t at h₁ h₂ h₃ h₄ ⊢
    have hw := (s.slot a).width.isLt
    have hh := (s.slot a).height.isLt
    have hx' : (BitVec.ofNat 32 n).toNat = n := by simp; omega
    have hy' : (BitVec.ofNat 32 y).toNat = y := by simp; omega
    have ha' : slotExists t.params.nbuf a = true := by rw [h₂.1]; exact ha
    have hr : InRange (t.slot a) n y := ⟨by rw [h₃.1]; omega, by rw [h₃.2.1]; exact hy⟩
    rw [issue_of_exec hd (exec_setpx_inRange ha' (by rw [hx', hy']; exact hr) _), hx', hy']
    have hr' := inRange_iff.2 hr
    have hs : ∀ b, (t.setSlot a b).slot a = b := fun b => State.slot_setSlot_same t b (h₁.slot_lt ha')
    refine ⟨(h₁.setSlot a ((h₁.slot a).setPixel hr' _)).respond _ _, h₂.trans (onlySlot_setSlot t a _ _ _), ?_, ?_⟩
    · rw [State.slot_respond, hs]
      exact h₃
    · intro x' y' hxy
      have hxy' : (t.slot a).inRange x' y' = true := by
        rw [inRange_iff] at hxy ⊢
        exact ⟨by rw [h₃.1]; exact hxy.1, by rw [h₃.2.1]; exact hxy.2⟩
      rw [State.slot_respond, hs, (h₁.slot a).pixelAt_setPixel hr' hxy', h₄ x' y' hxy]
      by_cases h₅ : y' = y
      · by_cases h₆ : n = x'
        · subst h₅ h₆
          rw [if_pos ⟨rfl, rfl⟩, if_pos ⟨rfl, by omega⟩]
          rfl
        · rw [if_neg (fun e => h₆ e.1)]
          by_cases h₇ : x' < n
          · rw [if_pos ⟨h₅, h₇⟩, if_pos ⟨h₅, by omega⟩]
          · rw [if_neg (fun e => h₇ e.2), if_neg (fun e => by omega)]
      · rw [if_neg (fun e => h₅ e.2.symm), if_neg (fun e => h₅ e.1), if_neg (fun e => h₅ e.1)]

/-- Everything step 10 does: it stops at a row that cannot be read, with the slot empty, or every row has been written. -/
theorem decodeRows_spec (hd : PacketsDecode) (f : FileSource) {s : State} (h : s.Inv) {a : SlotNum}
    (ha : slotExists s.params.nbuf a = true) (p stride n : Nat) (hn : n ≤ (s.slot a).height.toNat) :
    let r := decodeRows a f p (s.slot a).width.toNat (s.slot a).height.toNat stride n s
    (∃ e, r.2 = .error e ∧ r.1.slot a = PixelBuffer.empty) ∨
    (r.2 = .ok ∧ RowsWritten a s r.1 fun x y => if y < n
      then filePixel f (p + ((s.slot a).height.toNat - 1 - y) * stride + x * 3) else (s.slot a).pixelAt x y) := by
  induction n generalizing s with
  | zero => exact .inr ⟨rfl, h, .refl a s, SameShape.refl _, fun x y _ => by simp [decodeRows]⟩
  | succ n ih =>
    simp only [decodeRows]
    cases hf : f.readError _ _ with
    | some e =>
      left
      rw [issue_of_exec hd (exec_clear ha)]
      exact ⟨_, rfl, State.slot_setSlot_same s _ (h.slot_lt ha)⟩
    | none =>
      have hrow : (s.slot a).height.toNat - 1 - ((s.slot a).height.toNat - (n + 1)) = n := by omega
      obtain ⟨h₁, h₂, h₃, h₄⟩ := decodePixel_spec hd f h ha
        (p + ((s.slot a).height.toNat - (n + 1)) * stride) (y := n) (by omega) (s.slot a).width.toNat le_rfl
      rw [hrow]
      generalize (List.range (s.slot a).width.toNat).foldl
        (decodePixel a f (p + ((s.slot a).height.toNat - (n + 1)) * stride) n) s = t at h₁ h₂ h₃ h₄ ⊢
      have hk := ih h₁ (by rw [h₂.1]; exact ha) (by rw [h₃.2.1]; omega)
      rw [h₃.1, h₃.2.1] at hk
      rcases hk with hk | ⟨hk, h₅, h₆, h₇, h₈⟩
      · exact .inl hk
      · refine .inr ⟨hk, h₅, h₂.trans h₆, ?_, fun x y hxy => ?_⟩
        · exact ⟨h₇.1.trans h₃.1, h₇.2.1.trans h₃.2.1, h₇.2.2.1.trans h₃.2.2.1, h₇.2.2.2.1.trans h₃.2.2.2.1,
            h₇.2.2.2.2.trans h₃.2.2.2.2⟩
        · have hxy' : (t.slot a).inRange x y = true := by
            rw [inRange_iff] at hxy ⊢
            exact ⟨by rw [h₃.1]; exact hxy.1, by rw [h₃.2.1]; exact hxy.2⟩
          rw [h₈ x y hxy', h₄ x y hxy]
          have hx := (inRange_iff.1 hxy).1
          by_cases h₉ : y < n
          · rw [if_pos h₉, if_pos (by omega)]
          · rw [if_neg h₉]
            by_cases h₁₀ : y = n
            · subst h₁₀
              rw [if_pos ⟨rfl, hx⟩, if_pos (by omega), show (s.slot a).height.toNat - 1 - y =
                (s.slot a).height.toNat - (y + 1) by omega]
            · rw [if_neg (fun e => h₁₀ e.1), if_neg (by omega)]

/-- A file that is long enough can be read. -/
theorem readError_ofBytes {f : List Byte} {lo hi : Nat} (h : hi ≤ f.length) :
    (FileSource.ofBytes f).readError lo hi = none := by
  have : ¬ f.length < hi := by omega
  simp [FileSource.readError, FileSource.ofBytes, this]

/-- A file that is long enough for all its rows decodes to the end. -/
theorem decodeRows_ok (f : List Byte) (a : SlotNum) (p w h stride n : Nat) (s : State) (hn : n ≤ h)
    (hf : p + h * stride ≤ f.length) : (decodeRows a (.ofBytes f) p w h stride n s).2 = .ok := by
  induction n generalizing s with
  | zero => rfl
  | succ n ih =>
    have h₁ : (h - (n + 1) + 1) * stride ≤ h * stride := Nat.mul_le_mul_right _ (by omega)
    simp only [decodeRows]
    rw [readError_ofBytes (by omega)]
    exact ih _ (by omega)

end Sys2Proof.Machine
end

