-- ==== Sys2Proof/Laws/PerInstr.lean ====
section
/-! SUPPORT. Statements about every instruction as syntax, one lemma per constructor. -/

namespace Sys2Proof.Laws.EncodedBits

/-- The packet of a command carries its opcode in bits 7:0 and 0 in every reserved bit (30_encoding.md R61, R62,
R64). -/
def Statement (i : Instr) : Prop :=
  Packet.op (encode i) = i.opcode.code ∧ encode i &&& i.opcode.reservedMask = i.opcode.code.setWidth 128

theorem op_of_masked {w : Packet} {op : Opcode} (h : w &&& op.reservedMask = op.code.setWidth 128) :
    Packet.op w = op.code := by
  apply BitVec.eq_of_getLsbD_eq
  intro i hi
  have hb := congrArg (fun v => BitVec.getLsbD v i) h
  have hm : op.reservedMask.getLsbD i = true := by
    cases op <;> interval_cases i <;> decide
  rw [BitVec.getLsbD_and, hm, Bool.and_true] at hb
  rw [Packet.op, BitVec.getLsbD_extractLsb', Nat.zero_add, hb, BitVec.getLsbD_setWidth]
  simp [hi, show i < 128 by omega]

theorem hbwr (idx data : Byte) : Statement (.hbwr idx data) := by
  have h : encode (.hbwr idx data) &&& Opcode.reservedMask .hbwr = (Opcode.code .hbwr).setWidth 128 := by
    iterate 2 refine or_place_and_mask ?_ (by decide)
    decide
  exact ⟨op_of_masked h, h⟩

theorem hbrd (idx : Byte) : Statement (.hbrd idx) := by
  have h : encode (.hbrd idx) &&& Opcode.reservedMask .hbrd = (Opcode.code .hbrd).setWidth 128 := by
    refine or_place_and_mask ?_ (by decide)
    decide
  exact ⟨op_of_masked h, h⟩

theorem rdf (off size : Byte) : Statement (.rdf off size) := by
  have h : encode (.rdf off size) &&& Opcode.reservedMask .rdf = (Opcode.code .rdf).setWidth 128 := by
    iterate 2 refine or_place_and_mask ?_ (by decide)
    decide
  exact ⟨op_of_masked h, h⟩

theorem wrf (value : Word32) (off size : Byte) : Statement (.wrf value off size) := by
  have h : encode (.wrf value off size) &&& Opcode.reservedMask .wrf = (Opcode.code .wrf).setWidth 128 := by
    iterate 3 refine or_place_and_mask ?_ (by decide)
    decide
  exact ⟨op_of_masked h, h⟩

theorem hparse (a : SlotNum) : Statement (.hparse a) := by
  have h : encode (.hparse a) &&& Opcode.reservedMask .hparse = (Opcode.code .hparse).setWidth 128 := by
    refine or_place_and_mask ?_ (by decide)
    decide
  exact ⟨op_of_masked h, h⟩

theorem hbuild (a : SlotNum) : Statement (.hbuild a) := by
  have h : encode (.hbuild a) &&& Opcode.reservedMask .hbuild = (Opcode.code .hbuild).setWidth 128 := by
    refine or_place_and_mask ?_ (by decide)
    decide
  exact ⟨op_of_masked h, h⟩

theorem stride (width : Word32) : Statement (.stride width) := by
  have h : encode (.stride width) &&& Opcode.reservedMask .stride = (Opcode.code .stride).setWidth 128 := by
    refine or_place_and_mask ?_ (by decide)
    decide
  exact ⟨op_of_masked h, h⟩

theorem padlen (width : Word32) : Statement (.padlen width) := by
  have h : encode (.padlen width) &&& Opcode.reservedMask .padlen = (Opcode.code .padlen).setWidth 128 := by
    refine or_place_and_mask ?_ (by decide)
    decide
  exact ⟨op_of_masked h, h⟩

theorem init (a : SlotNum) (width height : Word32) (bpp : BitVec 16) : Statement (.init a width height bpp) := by
  have h : encode (.init a width height bpp) &&& Opcode.reservedMask .init = (Opcode.code .init).setWidth 128 := by
    iterate 4 refine or_place_and_mask ?_ (by decide)
    decide
  exact ⟨op_of_masked h, h⟩

theorem clear (a : SlotNum) : Statement (.clear a) := by
  have h : encode (.clear a) &&& Opcode.reservedMask .clear = (Opcode.code .clear).setWidth 128 := by
    refine or_place_and_mask ?_ (by decide)
    decide
  exact ⟨op_of_masked h, h⟩

theorem get (a : SlotNum) (x y : Word32) (ch : Channel) : Statement (.get a x y ch) := by
  have h : encode (.get a x y ch) &&& Opcode.reservedMask .get = (Opcode.code .get).setWidth 128 := by
    iterate 4 refine or_place_and_mask ?_ (by decide)
    decide
  exact ⟨op_of_masked h, h⟩

theorem getpx (a : SlotNum) (x y : Word32) : Statement (.getpx a x y) := by
  have h : encode (.getpx a x y) &&& Opcode.reservedMask .getpx = (Opcode.code .getpx).setWidth 128 := by
    iterate 3 refine or_place_and_mask ?_ (by decide)
    decide
  exact ⟨op_of_masked h, h⟩

theorem set (a : SlotNum) (x y : Word32) (ch : Channel) (val : Byte) : Statement (.set a x y ch val) := by
  have h : encode (.set a x y ch val) &&& Opcode.reservedMask .set = (Opcode.code .set).setWidth 128 := by
    iterate 5 refine or_place_and_mask ?_ (by decide)
    decide
  exact ⟨op_of_masked h, h⟩

theorem setpx (a : SlotNum) (x y : Word32) (pix : RgbPixel) : Statement (.setpx a x y pix) := by
  have h : encode (.setpx a x y pix) &&& Opcode.reservedMask .setpx = (Opcode.code .setpx).setWidth 128 := by
    iterate 4 refine or_place_and_mask ?_ (by decide)
    decide
  exact ⟨op_of_masked h, h⟩

theorem fill (a : SlotNum) (ch : Channel) (val : Byte) : Statement (.fill a ch val) := by
  have h : encode (.fill a ch val) &&& Opcode.reservedMask .fill = (Opcode.code .fill).setWidth 128 := by
    iterate 3 refine or_place_and_mask ?_ (by decide)
    decide
  exact ⟨op_of_masked h, h⟩

theorem invert (a : SlotNum) (ch : Channel) : Statement (.invert a ch) := by
  have h : encode (.invert a ch) &&& Opcode.reservedMask .invert = (Opcode.code .invert).setWidth 128 := by
    iterate 2 refine or_place_and_mask ?_ (by decide)
    decide
  exact ⟨op_of_masked h, h⟩

theorem clone (b a : SlotNum) : Statement (.clone b a) := by
  have h : encode (.clone b a) &&& Opcode.reservedMask .clone = (Opcode.code .clone).setWidth 128 := by
    iterate 2 refine or_place_and_mask ?_ (by decide)
    decide
  exact ⟨op_of_masked h, h⟩

theorem rddesc (a : SlotNum) (sel : Selector) : Statement (.rddesc a sel) := by
  have h : encode (.rddesc a sel) &&& Opcode.reservedMask .rddesc = (Opcode.code .rddesc).setWidth 128 := by
    iterate 2 refine or_place_and_mask ?_ (by decide)
    decide
  exact ⟨op_of_masked h, h⟩

theorem addpx (pa pb : RgbPixel) : Statement (.addpx pa pb) := by
  have h : encode (.addpx pa pb) &&& Opcode.reservedMask .addpx = (Opcode.code .addpx).setWidth 128 := by
    iterate 2 refine or_place_and_mask ?_ (by decide)
    decide
  exact ⟨op_of_masked h, h⟩

theorem overlay (b a : SlotNum) (x y : Word32) : Statement (.overlay b a x y) := by
  have h : encode (.overlay b a x y) &&& Opcode.reservedMask .overlay = (Opcode.code .overlay).setWidth 128 := by
    iterate 4 refine or_place_and_mask ?_ (by decide)
    decide
  exact ⟨op_of_masked h, h⟩

theorem mask (b a : SlotNum) (x y : Word32) (pix : RgbPixel) : Statement (.mask b a x y pix) := by
  have h : encode (.mask b a x y pix) &&& Opcode.reservedMask .mask = (Opcode.code .mask).setWidth 128 := by
    iterate 5 refine or_place_and_mask ?_ (by decide)
    decide
  exact ⟨op_of_masked h, h⟩

theorem add (b a : SlotNum) (x y : Word32) : Statement (.add b a x y) := by
  have h : encode (.add b a x y) &&& Opcode.reservedMask .add = (Opcode.code .add).setWidth 128 := by
    iterate 4 refine or_place_and_mask ?_ (by decide)
    decide
  exact ⟨op_of_masked h, h⟩

end Sys2Proof.Laws.EncodedBits
end

