-- ==== Sys2Proof/Laws/Ports.lean ====
section
/-! SUPPORT. What a run of clock edges does between a packet taken and its response, and while the host is idle
(70_reset_and_hazards.md R148). -/

namespace Sys2Proof.Machine

theorem clockEdges_append (p : PortState) (l l' : List PortIn) : clockEdges p (l ++ l') = clockEdges (clockEdges p l) l' := by
  induction l generalizing p with
  | nil => rfl
  | cons i l ih => exact ih _

/-- Without reset and without a packet offered, an idle block only ends its `rsp_valid` pulse. -/
theorem clockEdges_idle {idle : List PortIn} (hne : idle ≠ []) {p : PortState} (hp : p.executing = none)
    (h : ∀ i ∈ idle, i.rst = false ∧ i.cmdValid = false) : clockEdges p idle = { p with rspValid := false } := by
  induction idle generalizing p with
  | nil => exact absurd rfl hne
  | cons i rest ih =>
    obtain ⟨h₁, h₂⟩ := h i (by simp)
    have hc : clockEdge p i = { p with rspValid := false } := by simp [clockEdge, h₁, h₂, hp]
    rw [clockEdges, hc]
    by_cases hr : rest = []
    · rw [hr]; rfl
    · exact ih (p := { p with rspValid := false }) hr hp fun j hj => h j (by simp [hj])

/-- Without reset, a packet with n cycles left waits n edges and ends at the next, whatever the host offers. -/
theorem clockEdges_executing {n : Nat} {p : PortState} {w : Packet} (hp : p.executing = some ⟨w, n⟩)
    (hv : p.rspValid = false) {inputs : List PortIn} (hr : ∀ i ∈ inputs, i.rst = false) :
    (inputs.length ≤ n → clockEdges p inputs = { p with executing := some ⟨w, n - inputs.length⟩ }) ∧
    (inputs.length = n + 1 → clockEdges p inputs = finishEdge p w) := by
  induction inputs generalizing p n with
  | nil => exact ⟨fun _ => by cases p; simp_all [clockEdges], fun h => by simp at h⟩
  | cons i rest ih =>
    have hi := hr i (by simp)
    cases n with
    | succ n =>
      have hc : clockEdge p i = { p with executing := some ⟨w, n⟩, rspValid := false } := by
        unfold clockEdge; simp [hi, hp]
      have hk := ih (n := n) (p := { p with executing := some ⟨w, n⟩, rspValid := false }) rfl rfl
        (fun j hj => hr j (by simp [hj]))
      simp only [clockEdges, hc, List.length_cons]
      exact ⟨fun h => by rw [hk.1 (by omega)]; simp [hv], fun h => by rw [hk.2 (by omega)]; rfl⟩
    | zero =>
      refine ⟨fun h => by simp at h, fun h => ?_⟩
      have hn : rest = [] := by simpa using h
      subst hn
      unfold clockEdges clockEdges clockEdge
      simp [hi, hp]

end Sys2Proof.Machine
end

