-- ==== Sys2Proof/Tests/Slice0.lean ====
section
/-! SUPPORT. Tests on fixed values, with results taken from 95_test_vectors.md or worked out by hand from the rules, and
one witness for each statement that has hypotheses. -/

namespace Sys2Proof.Tests

set_option Elab.async false

open Sys2Proof Sys2Proof.Machine Sys2Proof.Config Sys2Proof.Spec

/-! ### Small states -/

/-- The next state of a step, if there is one. -/
def nextOf (r : Result) : Option State :=
  match r with
  | .next t => some t
  | .fault _ => none
  | .refused _ => none

/-- One step on a packet written as a number. -/
def after (w : Nat) (s : State) : Option State := nextOf (step (s.withFetchWord 128 w))

/-- `ERR`, `FLAG`, `RES`. -/
def response (s : State) : Nat × Bool × Nat := (s.err.toNat, s.flag, s.res.toNat)

/-- The response after one packet. -/
def answer (w : Nat) (s : State) : Option (Nat × Bool × Nat) := (after w s).map response

def pxBytes (b : PixelBuffer) : List Nat := (List.range b.px.len).map (fun i => (b.px.read i).toNat)

/-- `FLAG` and the storage of a slot after one packet. -/
def storageAfter (w : Nat) (a : SlotNum) (s : State) : Option (Bool × List Nat) :=
  (after w s).map (fun t => (t.flag, pxBytes (t.slot a)))

def headerAfter (w : Nat) (at' n : Nat) (s : State) : Option (List Nat) :=
  (after w s).map (fun t => (List.range n).map (fun k => (t.hbByte (at' + k)).toNat))

def pxOf (bytes : List Byte) : ByteSeq where
  len := bytes.length
  cells := bytes.zipIdx.filterMap (fun c => if c.1 = 0#8 then none else some (c.2, c.1))

def bufferOf (w h : Word32) (bytes : List Byte) : PixelBuffer where
  width := w
  height := h
  hRes := 11811#32
  vRes := 11811#32
  px := pxOf bytes

/-- The start state of 95_test_vectors.md T6. -/
def stateE : State :=
  { State.reset with
    slots := [bufferOf 3 2 [0xC8, 0x96, 0x64, 0xC8, 0x96, 0x64, 0xC8, 0x96, 0x64,
                            0xC8, 0x96, 0x64, 0xC8, 0x96, 0x64, 0xC8, 0x96, 0x64],
              bufferOf 2 2 [0x64, 0x0A, 0xC8, 1, 1, 1, 0, 0, 0, 9, 9, 9]] }

/-- The state after T4 row 5. -/
def stateP : State :=
  { State.reset with
    slots := [bufferOf 3 2 [0, 0, 0, 0, 0, 0, 0, 0x7F, 0, 0, 0, 0, 0x1E, 0x14, 0x0A, 0, 0, 0], .empty] }

/-- Slot 0 with the given shape and zero storage, slot 1 empty. -/
def stateZ (w h hRes vRes : Word32) : State := { State.reset with slots := [.zeroed w h hRes vRes, .empty] }

/-- The 70-byte file of 45_file_image.md R121's example, a 2×2 image; its first 54 bytes are the good header of T3. -/
def file70 : List Byte :=
  [0x42, 0x4D, 0x46, 0, 0, 0, 0, 0, 0, 0, 0x36, 0, 0, 0, 0x28, 0, 0, 0, 2, 0, 0, 0, 2, 0, 0, 0, 1, 0, 0x18, 0, 0, 0, 0, 0,
   0x10, 0, 0, 0, 0x23, 0x2E, 0, 0, 0x23, 0x2E, 0, 0, 0, 0, 0, 0, 0, 0, 0, 0] ++
  [9, 8, 7, 0xC, 0xB, 0xA, 0, 0, 3, 2, 1, 6, 5, 4, 0, 0]

/-- The good header with fields (offset, size, value) edited. -/
def headerWith (edits : List (Nat × Nat × Nat)) : Memory :=
  edits.foldl (fun m f => m.writeLE f.1 f.2.1 f.2.2)
    ((file70.take 54).zipIdx.foldl (fun m c => m.write c.2 c.1) [])

def stateH (edits : List (Nat × Nat × Nat)) : State := { State.reset with hb := headerWith edits }

/-! ### Well-formedness: one ill-formed command for each check -/

theorem test_wellFormed_slot_a_missing : Instr.wellFormed 2 (.clear 2#4) = false := by decide
theorem test_wellFormed_slot_b_missing : Instr.wellFormed 2 (.clone 2#4 1#4) = false := by decide
theorem test_wellFormed_slots_equal : Instr.wellFormed 2 (.add 1#4 1#4 5#32 5#32) = false := by decide
theorem test_wellFormed_accepts :
    Instr.wellFormed 2 (.clone 0#4 1#4) = true ∧ Instr.wellFormed 16 (.clear 15#4) = true ∧
      Instr.wellFormed 2 (.addpx ⟨1, 2, 3⟩ ⟨4, 5, 6⟩) = true := by decide

/-! ### Decoding: a packet of every command, as 95_test_vectors.md writes it -/

theorem test_decode_hbwr : decode 0x00000000000000000000004D00000101#128 = .ok (.hbwr 1#8 0x4D#8) := by decide
theorem test_decode_hbrd : decode 0x0000000000000000000000000000FF02#128 = .ok (.hbrd 255#8) := by decide
theorem test_decode_rdf : decode 0x00000000000000000000000000043203#128 = .ok (.rdf 50#8 4#8) := by decide
theorem test_decode_wrf :
    decode 0x00000000000000001122334400043204#128 = .ok (.wrf 0x11223344#32 50#8 4#8) := by decide
theorem test_decode_hparse : decode 0x00000000000000000000000000000105#128 = .ok (.hparse 1#4) := by decide
theorem test_decode_hbuild : decode 0x00000000000000000000000000000006#128 = .ok (.hbuild 0#4) := by decide
theorem test_decode_stride : decode 0x00000000000000000000000200000010#128 = .ok (.stride 2#32) := by decide
theorem test_decode_padlen : decode 0x00000000000000000000000500000011#128 = .ok (.padlen 5#32) := by decide
theorem test_decode_init :
    decode 0x00000018000000020000000300000020#128 = .ok (.init 0#4 3#32 2#32 24#16) := by decide
theorem test_decode_clear : decode 0x00000000000000000000000000000121#128 = .ok (.clear 1#4) := by decide
theorem test_decode_get : decode 0x00000000000000010000000100020022#128 = .ok (.get 0#4 1#32 1#32 .red) := by decide
theorem test_decode_getpx : decode 0x00000000000000000000000200000023#128 = .ok (.getpx 0#4 2#32 0#32) := by decide
theorem test_decode_set :
    decode 0x0000007F000000000000000200010024#128 = .ok (.set 0#4 2#32 0#32 .green 0x7F#8) := by decide
theorem test_decode_setpx :
    decode 0x000A141E000000010000000100000025#128 = .ok (.setpx 0#4 1#32 1#32 ⟨10#8, 20#8, 30#8⟩) := by decide
theorem test_decode_fill : decode 0x000000AA000000000000000000020026#128 = .ok (.fill 0#4 .red 0xAA#8) := by decide
theorem test_decode_invert : decode 0x00000000000000000000000000010127#128 = .ok (.invert 1#4 .green) := by decide
theorem test_decode_clone : decode 0x00000000000000000000000000000128#128 = .ok (.clone 0#4 1#4) := by decide
theorem test_decode_rddesc : decode 0x00000000000000000000000000500129#128 = .ok (.rddesc 1#4 .length) := by decide
theorem test_decode_addpx :
    decode 0x00000000000405060001020300000030#128 = .ok (.addpx ⟨1#8, 2#8, 3#8⟩ ⟨4#8, 5#8, 6#8⟩) := by decide
theorem test_decode_overlay :
    decode 0x00000000000000010000000200001031#128 = .ok (.overlay 1#4 0#4 2#32 1#32) := by decide
theorem test_decode_mask :
    decode 0x00C80A65000000000000000200001032#128 = .ok (.mask 1#4 0#4 2#32 0#32 ⟨200#8, 10#8, 101#8⟩) := by decide
theorem test_decode_add : decode 0x00000000000000000000000300001033#128 = .ok (.add 1#4 0#4 3#32 0#32) := by decide

theorem test_decode_refuses_reserved_opcode : decode 0x07#128 = .illegal .reservedOpcode := by decide
theorem test_decode_refuses_reserved_bit :
    decode 0x00000000000000000000000200000110#128 = .illegal .reservedBits ∧
      decode 0x00000001000000000000000000001031#128 = .illegal .reservedBits := by decide
theorem test_decode_refuses_channel_3 : decode 0x00000000000000000000000000030022#128 = .illegal .badChannel := by decide
theorem test_decode_refuses_selector_6_7 :
    decode 0x600029#128 = .illegal .badSelector ∧ decode 0x700029#128 = .illegal .badSelector := by decide

/-- R71: `ERR` stands in bits 79:72 of the response number. -/
theorem test_rsp_number : ({ State.reset with err := 7#8 } : State).rsp = 0x07000000000000000000#80 := by decide

/-! ### Header codec, one step each (T1, T3) -/

theorem test_hbwr_writes_one_byte : headerAfter 0x00000000000000000000004D00000101 0 3 State.reset = some [0, 0x4D, 0] := by
  decide +kernel
theorem test_hbwr_index_54 : answer 0x00000000000000000000000100003601 State.reset = some (7, false, 0) := by
  decide +kernel
theorem test_hbrd_reads_byte : answer 0x00000000000000000000000000000102 (stateH []) = some (0, false, 0x4D) := by
  decide +kernel
theorem test_hbrd_index_255 : answer 0x0000000000000000000000000000FF02 (stateH []) = some (7, false, 0) := by
  decide +kernel
theorem test_rdf_odd_offset :
    answer 0x00000000000000000000000000023303 (stateH [(50, 4, 0x11223344)]) = some (0, false, 0x2233) := by
  decide +kernel
theorem test_rdf_size_before_bounds :
    answer 0x00000000000000000000000000FFFF03 State.reset = some (6, false, 0) := by decide +kernel
theorem test_wrf_low_bytes_only :
    headerAfter 0x0000000000000000AABBCCDD00020A04 9 5 State.reset = some [0, 0xDD, 0xCC, 0, 0] := by decide +kernel
theorem test_wrf_out_of_bounds_writes_nothing :
    (after 0x0000000000000000FFFFFFFF00043404 State.reset).map (fun t => (t.err, t.hb)) = some (7#8, []) := by
  decide +kernel
theorem test_hparse_negative_width :
    (after 0x00000000000000000000000000000105 (stateH [(18, 4, 0xFFFFFFFD)])).map (fun t => (t.err, t.slot 1)) =
      some (0#8, .zeroed 3 2 11811 11811) := by decide +kernel
theorem test_hparse_depth_before_capacity :
    (after 0x00000000000000000000000000000105
      (stateH [(28, 2, 8), (18, 4, 0x7FFFFFFF), (22, 4, 0x7FFFFFFF)])).map (fun t => (t.err, t.slot 1)) =
      some (3#8, .empty) := by decide +kernel
theorem test_hbuild_resolution_byte_order :
    headerAfter 0x00000000000000000000000000000006 34 12 (stateZ 5 1 0x01020304 0xA0B0C0D0) =
      some [0x10, 0, 0, 0, 4, 3, 2, 1, 0xD0, 0xC0, 0xB0, 0xA0] := by decide +kernel
theorem test_hbuild_good_header :
    (after 0x00000000000000000000000000000006 (stateZ 2 2 11811 11811)).map (fun t => t.hb) = some (headerWith []) := by
  decide +kernel

/-! ### Stride calculator (T2) -/

theorem test_stride_largest : answer 0x0000000000000000FFFFFFFF00000010 State.reset = some (0, false, 0x300000000) := by
  decide +kernel
theorem test_stride_no_pad : answer 0x00000000000000000000000400000010 State.reset = some (0, false, 12) := by
  decide +kernel
theorem test_padlen_largest : answer 0x00000000000000000000000300000011 State.reset = some (0, false, 3) := by
  decide +kernel
theorem test_padlen_zero : answer 0x00000000000000000000000800000011 State.reset = some (0, false, 0) := by
  decide +kernel

/-! ### Pixel buffer (T4) -/

theorem test_init_shape :
    (after 0x00000018000000020000000300000020 State.reset).map (fun t => (t.err, t.slot 0)) =
      some (0#8, .zeroed 3 2 11811 11811) := by decide +kernel
theorem test_init_over_capacity :
    answer 0x0000001800000002002AAAAB00000020 State.reset = some (9, false, 0) ∧
      answer 0x00000008FFFFFFFFFFFFFFFF00000020 State.reset = some (3, false, 0) := by decide +kernel
theorem test_clear_empties : (after 0x00000000000000000000000000000121 stateE).map (fun t => t.slot 1) = some .empty := by
  decide +kernel
theorem test_get_red : answer 0x00000000000000010000000100020022 stateP = some (0, true, 10) := by decide +kernel
theorem test_get_x_is_width : answer 0x00000000000000000000000300000022 stateP = some (0, false, 0) := by
  decide +kernel
theorem test_getpx_packed : answer 0x00000000000000010000000100000023 stateP = some (0, true, 0x0A141E) := by
  decide +kernel
theorem test_getpx_far_out : answer 0x0000000000000000FFFFFFFF00000023 stateP = some (0, false, 0) := by
  decide +kernel
theorem test_set_one_byte :
    storageAfter 0x0000007F000000000000000200010024 0 (stateZ 3 2 1 1) =
      some (true, [0, 0, 0, 0, 0, 0, 0, 0x7F, 0, 0, 0, 0, 0, 0, 0, 0, 0, 0]) := by decide +kernel
theorem test_set_out_of_range :
    storageAfter 0x00000009000000010000000300010024 0 (stateZ 3 2 1 1) = some (false, List.replicate 18 0) := by
  decide +kernel
theorem test_setpx_blue_green_red :
    storageAfter 0x000A141E000000010000000100000025 0 (stateZ 3 2 1 1) =
      some (true, [0, 0, 0, 0, 0, 0, 0, 0, 0, 0, 0, 0, 0x1E, 0x14, 0x0A, 0, 0, 0]) := by decide +kernel
theorem test_setpx_empty_slot :
    storageAfter 0x00010203000000000000000000000125 1 stateP = some (false, []) := by decide +kernel
theorem test_fill_red :
    storageAfter 0x000000AA000000000000000000020026 0 stateP =
      some (false, [0, 0, 0xAA, 0, 0, 0xAA, 0, 0x7F, 0xAA, 0, 0, 0xAA, 0x1E, 0x14, 0xAA, 0, 0, 0xAA]) := by
  decide +kernel
theorem test_invert_blue :
    storageAfter 0x00000000000000000000000000000027 0 stateP =
      some (false, [0xFF, 0, 0, 0xFF, 0, 0, 0xFF, 0x7F, 0, 0xFF, 0, 0, 0xE1, 0x14, 0x0A, 0xFF, 0, 0]) := by
  decide +kernel
theorem test_clone_copies :
    (after 0x00000000000000000000000000000128 stateP).map (fun t => (t.slot 1, t.slot 0)) =
      some (stateP.slot 0, stateP.slot 0) := by decide +kernel
theorem test_clone_slot_check_before_alias_check :
    answer 0x00000000000000000000000000002228 stateP = some (8, false, 0) ∧
      answer 0x00000000000000000000000000001128 stateP = some (10, false, 0) := by decide +kernel
theorem test_rddesc_length : answer 0x00000000000000000000000000500029 stateP = some (0, false, 18) := by
  decide +kernel
theorem test_rddesc_empty_slot_bpp : answer 0x00000000000000000000000000200129 stateP = some (0, false, 24) := by
  decide +kernel

/-! ### Compositor (T5, T6) -/

theorem test_addpx_saturates_one_lane :
    answer 0x000000000064000000C8000000000030 State.reset = some (0, false, 0xFF0000) := by decide +kernel
theorem test_addpx_no_carry_between_lanes :
    answer 0x000000000001000100FE00FF00000030 State.reset = some (0, false, 0xFF00FF) := by decide +kernel
theorem test_overlay_clips :
    storageAfter 0x00000000000000010000000200001031 0 stateE =
      some (true, [0xC8, 0x96, 0x64, 0xC8, 0x96, 0x64, 0xC8, 0x96, 0x64,
        0xC8, 0x96, 0x64, 0xC8, 0x96, 0x64, 0x64, 0x0A, 0xC8]) := by decide +kernel
theorem test_overlay_offset_does_not_wrap :
    (after 0x0000000000000000FFFFFFFF00001031 stateE).map (fun t => (t.flag, t.slots)) = some (true, stateE.slots) := by
  decide +kernel
theorem test_mask_counts_clip_of_key_pixel :
    storageAfter 0x00010101000000000000000200001032 0 stateE =
      some (true, [0xC8, 0x96, 0x64, 0xC8, 0x96, 0x64, 0x64, 0x0A, 0xC8,
        0xC8, 0x96, 0x64, 0xC8, 0x96, 0x64, 0, 0, 0]) := by decide +kernel
theorem test_mask_skips_key_pixel :
    storageAfter 0x00C80A64000000000000000000001032 0 stateE =
      some (false, [0xC8, 0x96, 0x64, 1, 1, 1, 0xC8, 0x96, 0x64, 0, 0, 0, 9, 9, 9, 0xC8, 0x96, 0x64]) := by
  decide +kernel
theorem test_add_saturates :
    storageAfter 0x00000000000000000000000000001033 0 stateE =
      some (false, [0xFF, 0xA0, 0xFF, 0xC9, 0x97, 0x65, 0xC8, 0x96, 0x64,
        0xC8, 0x96, 0x64, 0xD1, 0x9F, 0x6D, 0xC8, 0x96, 0x64]) := by decide +kernel
theorem test_add_aliased : answer 0x00000000000000050000000500001133 stateE = some (10, false, 0) := by decide +kernel

/-! ### Reset, the host sequences, the ports and the assembler -/

theorem test_reset_is_safe : State.reset.Safe := by decide +kernel
theorem test_zero_packet_is_illegal : answer 0 State.reset = some (8, false, 0) := by decide +kernel
theorem test_reset_input :
    nextOf (step { stateE with pending := [.reset] }) = some State.reset := by decide +kernel
theorem test_core_steps : nextOf (core.step core.reset) = some State.reset := by decide +kernel

def buffer22 : PixelBuffer := bufferOf 2 2 [3, 2, 1, 6, 5, 4, 9, 8, 7, 0xC, 0xB, 0xA]

theorem test_encode_image : (encodeImage 0 { State.reset with slots := [buffer22, .empty] }).file = file70 := by
  decide +kernel

/-- R18: the sequence ends at the first nonzero `ERR`, here `HBUILD`'s for slot 2 of two. -/
theorem test_encode_image_missing_slot :
    encodeImage 2 stateE = { block := stateE.raise .illegalCommand, file := [], errs := [8#8], result := .error 8#8 } := by
  decide +kernel

/-- The 70-byte file does not fit a sink of 69 bytes; 5 is IoFailure (R131). -/
theorem test_write_out :
    writeOut 70 (encodeImage 0 { State.reset with slots := [buffer22, .empty] }) = .ok ∧
      writeOut 69 (encodeImage 0 { State.reset with slots := [buffer22, .empty] }) = .error 5#8 := by decide +kernel

/-- R49, R120: the good header declares offset 54 and a 2×2 buffer. -/
theorem test_good_header_is_header_block : IsHeaderBlock (headerWith []) buffer22 54 :=
  ⟨by decide +kernel, by decide +kernel, by decide +kernel, .inl (by decide +kernel), .inl (by decide +kernel),
    by decide +kernel, by decide +kernel, by decide +kernel⟩

/-- A height field of −2 declares 2 rows; 3 rows it does not declare. -/
theorem test_declares_size_signed : declaresSize 0xFFFFFFFE 2 ∧ ¬ declaresSize 0xFFFFFFFE 3 := by
  unfold declaresSize
  decide
theorem test_decode_image :
    (decodeImage 1 (.ofBytes file70) State.reset).2 = .ok ∧
      (decodeImage 1 (.ofBytes file70) State.reset).1.slot 1 = buffer22 := by decide +kernel
theorem test_decode_image_truncated :
    (decodeImage 1 (.ofBytes (file70.take 69)) State.reset).2 = .error 4#8 ∧
      (decodeImage 1 (.ofBytes (file70.take 69)) State.reset).1.slot 1 = .empty := by decide +kernel

def portsAtReset : PortState := { block := State.reset, executing := none, rspValid := false, taken := 0 }

theorem test_ports_busy_after_taking_packet :
    portOutputs (clockEdge portsAtReset { rst := false, cmdValid := true, cmd := 0x10#128 }) =
      { cmdReady := false, rspValid := false, rspErr := 0#8, rspFlag := false, rspRes := 0#64 } := rfl

theorem test_assemble_set :
    assembleText "SET s0, 2, 0, G, 0x7F ; one channel" = some (.set 0#4 2#32 0#32 .green 0x7F#8) := by decide +kernel
theorem test_assemble_mask :
    assembleText "MASK s1, s0, 2, 0, px(1,1,1)" = some (.mask 1#4 0#4 2#32 0#32 ⟨1#8, 1#8, 1#8⟩) := by decide +kernel
theorem test_assemble_refuses : assembleText "INIT s0, 3, 2" = none ∧ assembleText "HBRD 256" = none := by
  decide +kernel

/-! ### Witnesses: the hypotheses of each statement, met together

Slot numbers 1 and 2 are the boundary of `NBUF` = 2; `stateE` holds a 3×2 buffer in slot 0 and a 2×2 buffer in slot 1. -/

theorem stateE_inv : stateE.Inv := by decide +kernel
theorem stateP_inv : stateP.Inv := by decide +kernel
theorem stateH_inv : (stateH []).Inv := by decide +kernel
theorem slots_zero_and_one : slotExists stateE.params.nbuf 0 = true ∧ slotExists stateE.params.nbuf 1 = true := by decide

theorem witness_EncodeOfDecodeIsIdentity : decode 0x500129#128 = .ok (.rddesc 1#4 .length) := by decide

/-- Each check of R74, where only it and later ones fail, and a packet that passes. -/
theorem witness_PacketChecksRunInSpecOrder :
    packetError 2 0xFFFFFFFFFFFFFFFFFFFFFFFFFFFFFFFF#128 = some 8#8 ∧
      packetError 2 0x00000000000000000000000100033322#128 = some 8#8 ∧
      packetError 2 0x702029#128 = some 8#8 ∧
      packetError 2 0x0221#128 = some 8#8 ∧ packetError 2 0x0121#128 = none ∧
      packetError 2 0x2128#128 = some 8#8 ∧ packetError 2 0x2228#128 = some 8#8 ∧
      packetError 2 0x1128#128 = some 10#8 ∧ packetError 2 0x1028#128 = none ∧
      packetError 2 0x500129#128 = none ∧ packetError 2 0x10#128 = none := by decide +kernel

/-- The ends of the reserved ranges, and both reserved selectors. -/
theorem witness_ReservedOpcodesAreIllegal :
    (∀ n ∈ [0x00, 0x07, 0x0F, 0x12, 0x1F, 0x2A, 0x2F, 0x34, 0xFF],
      isReservedOpcode ((BitVec.ofNat 128 n).extractLsb' 0 8).toNat) ∧
      (0x600029#128).extractLsb' 0 8 = 0x29#8 ∧ (0x600029#128).extractLsb' 20 3 = 6#3 ∧
      (0x700029#128).extractLsb' 20 3 = 7#3 := by
  refine ⟨?_, by decide, by decide, by decide⟩
  intro n hn
  simp only [List.mem_cons, List.not_mem_nil, or_false] at hn
  unfold isReservedOpcode
  rcases hn with rfl | rfl | rfl | rfl | rfl | rfl | rfl | rfl | rfl <;> decide

/-- Bits 8, 31 and 64 lie just outside the one field of `STRIDE`, bits 63:32; bit 127 is the top of the packet. -/
theorem witness_ReservedBitsAreIllegal :
    ∀ i ∈ [8, 31, 64, 127], isReservedBit .stride i ∧
      (0x10#128 ||| 1#128 <<< i).extractLsb' 0 8 = Opcode.stride.code ∧ (0x10#128 ||| 1#128 <<< i).getLsbD i = true := by
  intro i hi
  simp only [List.mem_cons, List.not_mem_nil, or_false] at hi
  refine ⟨?_, ?_, ?_⟩
  · unfold isReservedBit operandFields
    simp only [List.mem_cons, List.not_mem_nil, or_false, forall_eq]
    omega
  all_goals rcases hi with rfl | rfl | rfl | rfl <;> decide

theorem witness_BadSlotOperandsRaise :
    Instr.slotsExist 2 (.clear 2) = false ∧ Instr.slotsExist 2 (.clear 1) = true ∧
      Instr.slotsExist 2 (.overlay 2 1 0 0) = false ∧ Instr.slotsExist 2 (.overlay 1 1 0 0) = true ∧
      Instr.slotsDiffer (.overlay 1 1 0 0) = false ∧ Instr.slotsDiffer (.overlay 1 0 0 0) = true := by decide

theorem witness_StepRunsDecodedCommand :
    (stateE.withFetchWord 128 0x500129).pending = .packet 0x500129#128 :: [] ∧
      decode 0x500129#128 = .ok (.rddesc 1#4 .length) ∧
      decodeTableWord 128 0x500129 = some (.rddesc 1#4 .length) := by decide

theorem witness_ResetGivesResetState :
    ({ stateE with pending := [.reset] } : State).pending = .reset :: [] ∧ stateE.pending = [] ∧
      (∃ i : PortIn, i.rst = true) ∧
      ∀ j ∈ ([{ rst := true, cmdValid := true, cmd := 0x10#128 }, { rst := false, cmdValid := false, cmd := 0#128 }] :
        List PortIn), j.rst = true ∨ j.cmdValid = false := by
  refine ⟨rfl, rfl, ⟨{ rst := true, cmdValid := false, cmd := 0#128 }, rfl⟩, ?_⟩
  simp

theorem witness_CommandsRaiseOnlyTheirErrors :
    exec (.hbrd 54) stateE = .next (stateE.raise .fieldOutOfBounds) := rfl

theorem witness_TwelveCommandsCannotFail :
    Instr.opcode (.clear 1) ∈ cannotFail ∧ Instr.slotsExist stateE.params.nbuf (.clear 1) = true ∧
      Instr.opcode (.stride 0xFFFFFFFF) ∈ [Opcode.addpx, .stride, .padlen] := by decide

/-- A step from a state that meets the invariant and the response invariants, to a next state. -/
theorem witness_StepKeepsStorageInvariant :
    (stateE.withFetchWord 128 0x10).Inv ∧ (stateE.withFetchWord 128 0x10).errLegal ∧
      (stateE.withFetchWord 128 0x10).errorClean ∧
      step (stateE.withFetchWord 128 0x10) = .next (stateE.respond 0#64 false) := by
  refine ⟨by decide +kernel, by decide, by decide, rfl⟩

theorem witness_StepKeepsResponseLegal :
    (stateE.withFetchWord 128 0x3602).errLegal ∧ (stateE.withFetchWord 128 0x3602).errorClean ∧
      step (stateE.withFetchWord 128 0x3602) = .next (stateE.raise .fieldOutOfBounds) := by
  refine ⟨by decide, by decide, rfl⟩

theorem witness_StepKeepsParameters : step { stateE with pending := [.reset] } = .next State.reset := rfl

/-- The smallest and largest `NBUF`, the smallest `CAP`. -/
theorem witness_ResetMeetsStorageInvariant :
    Params.examples.Valid ∧ ({ Params.examples with nbuf := 16, cap := 1 } : Params).Valid := by decide

theorem witness_ResetStateIsZeroAndEmpty :
    slotExists Params.examples.nbuf 1 = true ∧ slotExists 16 15 = true := by decide

theorem witness_OnlyTheNamedSlotChanges :
    exec (.clear 1) stateE = .next ((stateE.setSlot 1 .empty).respond 0#64 false) ∧
      Instr.destSlot (.clear 1) ≠ some 0 ∧ Instr.destSlot (.clear 1) ≠ none := by
  refine ⟨rfl, by decide, by decide⟩

theorem witness_OnlyHeaderWritersChangeHeader :
    exec (.clear 1) stateE = .next ((stateE.setSlot 1 .empty).respond 0#64 false) ∧
      Instr.writesHeader (.clear 1) = false := ⟨rfl, rfl⟩

theorem witness_ReadOnlyCommandsRepeat :
    exec (.rddesc 1 .bitsPerPixel) stateE = .next (stateE.respond 24#64 false) ∧
      Instr.opcode (.rddesc 1 .bitsPerPixel) ∈ readOnly := ⟨rfl, by decide⟩

/-- `IDX` 53 is the last header byte, 54 the first index outside. -/
theorem witness_HbwrWritesOneHeaderByte : stateE.Inv ∧ (53#8).toNat < 54 ∧ 54 ≤ (54#8).toNat :=
  ⟨stateE_inv, by decide, by decide⟩

theorem witness_HbrdReadsOneHeaderByte : (53#8).toNat < 54 ∧ 54 ≤ (54#8).toNat := by decide

/-- `SIZE` 5; `SIZE` 4 with `OFF` 51 and 50; `SIZE` 0 with `OFF` 55 and 54. -/
theorem witness_RdfReadsLittleEndianField :
    4 < (5#8).toNat ∧ ((4#8).toNat ≤ 4 ∧ 54 < (51#8).toNat + (4#8).toNat) ∧
      ((4#8).toNat ≤ 4 ∧ (50#8).toNat + (4#8).toNat ≤ 54) ∧ 54 < (55#8).toNat + (0#8).toNat ∧
      (54#8).toNat + (0#8).toNat ≤ 54 := by decide

theorem witness_WrfWritesLittleEndianField :
    stateE.Inv ∧ 4 < (5#8).toNat ∧ ((4#8).toNat ≤ 4 ∧ 54 < (51#8).toNat + (4#8).toNat) ∧
      ((4#8).toNat ≤ 4 ∧ (50#8).toNat + (4#8).toNat ≤ 54) := ⟨stateE_inv, by decide⟩

theorem witness_FieldWriteReadsBack : stateE.Inv ∧ (4#8).toNat ≤ 4 ∧ (50#8).toNat + (4#8).toNat ≤ 54 :=
  ⟨stateE_inv, by decide⟩

/-- A header for each clause: wrong magic number, wrong version, wrong depth, one pixel row too many for `CAP`, and the
largest one that fits (T3 rows 2, 5, 8, 22, 21). -/
theorem witness_HparseValidatesAndSetsUpSlot :
    (stateH []).Inv ∧ slotExists (stateH []).params.nbuf 1 = true ∧
      leField (stateH [(0, 2, 0x424D)]) 0 2 ≠ 0x4D42 ∧
      (leField (stateH [(14, 4, 12)]) 0 2 = 0x4D42 ∧ leField (stateH [(14, 4, 12)]) 14 4 ≠ 40) ∧
      (leField (stateH [(28, 2, 8)]) 0 2 = 0x4D42 ∧ leField (stateH [(28, 2, 8)]) 14 4 = 40 ∧
        leField (stateH [(28, 2, 8)]) 28 2 ≠ 24) ∧
      (leField (stateH [(18, 4, 2796203)]) 0 2 = 0x4D42 ∧ leField (stateH [(18, 4, 2796203)]) 14 4 = 40 ∧
        leField (stateH [(18, 4, 2796203)]) 28 2 = 24 ∧
        (stateH []).params.cap < signedMagnitude (leField (stateH [(18, 4, 2796203)]) 18 4) *
          signedMagnitude (leField (stateH [(18, 4, 2796203)]) 22 4) * 3) ∧
      leField (stateH [(18, 4, 2796202)]) 0 2 = 0x4D42 ∧ leField (stateH [(18, 4, 2796202)]) 14 4 = 40 ∧
        leField (stateH [(18, 4, 2796202)]) 28 2 = 24 ∧
        signedMagnitude (leField (stateH [(18, 4, 2796202)]) 18 4) *
          signedMagnitude (leField (stateH [(18, 4, 2796202)]) 22 4) * 3 ≤ (stateH []).params.cap :=
  ⟨stateH_inv, by unfold leField signedMagnitude; decide +kernel⟩

/-- The good header with the file size and the last two fields overwritten: `HPARSE` reads none of them. -/
theorem witness_HparseReadsOnlyItsFields :
    ∀ i, parsedByte i →
      ({ stateH [] with hb := headerWith [(2, 4, 0), (46, 4, 77), (50, 4, 0xFFFFFFFF)] } : State).hbByte i =
        (stateH []).hbByte i := by
  intro i h
  unfold parsedByte at h
  have hi : i ∈ [0, 1, 14, 15, 16, 17, 18, 19, 20, 21, 22, 23, 24, 25, 28, 29, 38, 39, 40, 41, 42, 43, 44, 45] := by
    simp only [List.mem_cons, List.not_mem_nil, or_false]
    omega
  revert i
  suffices H : ∀ i ∈ [0, 1, 14, 15, 16, 17, 18, 19, 20, 21, 22, 23, 24, 25, 28, 29, 38, 39, 40, 41, 42, 43, 44, 45],
      ({ stateH [] with hb := headerWith [(2, 4, 0), (46, 4, 77), (50, 4, 0xFFFFFFFF)] } : State).hbByte i =
        (stateH []).hbByte i from fun i _ hi => H i hi
  decide +kernel

theorem witness_SignedFieldMagnitude :
    0x80000000 < 2 ^ 32 ∧ 0xFFFFFFFF < 2 ^ 32 ∧ 0 < 0xFFFFFFFF ∧ absI32 0xFFFFFFFE = 2 ∧ absI32 0x7FFFFFFF = 0x7FFFFFFF := by
  decide

theorem witness_HbuildWritesHeaderFields : stateE.Inv ∧ slotExists stateE.params.nbuf 1 = true :=
  ⟨stateE_inv, by decide⟩

/-- The largest `CAP` and `FILESIZE_EXTRA` of R88. -/
theorem witness_SizeFieldsAreNotCutOff :
    (State.resetWith { Params.examples with cap := 3 * 2 ^ 30 - 43, fileSizeExtra := 2 }).Inv ∧
      3 * 2 ^ 30 - 43 < 3 * 2 ^ 30 - 42 := by decide +kernel

/-- The round trips hold for one slot (`a = b`) and for two. -/
theorem witness_HeaderRoundTrip :
    stateE.Inv ∧ slotExists stateE.params.nbuf 0 = true ∧ slotExists stateE.params.nbuf 1 = true ∧
      (stateE.slot 0).width.toNat ≤ 2 ^ 31 ∧ (stateE.slot 0).height.toNat ≤ 2 ^ 31 := ⟨stateE_inv, by decide +kernel⟩

theorem witness_StrideLaws : 16 % 4 = 0 ∧ 5 * 3 ≤ 16 ∧ 1 ≤ 5 := by decide

/-- Depth 32; depth 24 with 2796203×2 pixels, one column too many for `CAP` = 2^24; 2796202×2 pixels. -/
theorem witness_InitCreatesZeroedBuffer :
    stateE.Inv ∧ slotExists stateE.params.nbuf 1 = true ∧ 32#16 ≠ 24#16 ∧
      stateE.params.cap < (2796203#32).toNat * (2#32).toNat * 3 ∧
      (2796202#32).toNat * (2#32).toNat * 3 ≤ stateE.params.cap := ⟨stateE_inv, by decide⟩

theorem witness_ClearEmptiesSlot : stateE.Inv ∧ slotExists stateE.params.nbuf 1 = true := ⟨stateE_inv, by decide⟩

/-- In the 3×2 buffer of slot 0 the pixel (2, 1) is the last; (3, 1) and (2, 2) are out of range. -/
theorem inRange_boundary : InRange (stateE.slot 0) (2#32).toNat (1#32).toNat ∧
    ¬ InRange (stateE.slot 0) (3#32).toNat (1#32).toNat ∧ ¬ InRange (stateE.slot 0) (2#32).toNat (2#32).toNat := by
  unfold InRange
  decide +kernel

theorem witness_GetReadsChannelOrZero : slotExists stateE.params.nbuf 0 = true ∧
    InRange (stateE.slot 0) (2#32).toNat (1#32).toNat ∧ ¬ InRange (stateE.slot 0) (3#32).toNat (1#32).toNat :=
  ⟨slots_zero_and_one.1, inRange_boundary.1, inRange_boundary.2.1⟩

theorem witness_GetpxReadsPixelOrZero : slotExists stateE.params.nbuf 0 = true ∧
    InRange (stateE.slot 0) (2#32).toNat (1#32).toNat ∧ ¬ InRange (stateE.slot 0) (2#32).toNat (2#32).toNat :=
  ⟨slots_zero_and_one.1, inRange_boundary.1, inRange_boundary.2.2⟩

theorem witness_SetWritesOneChannel : stateE.Inv ∧ slotExists stateE.params.nbuf 0 = true ∧
    InRange (stateE.slot 0) (2#32).toNat (1#32).toNat ∧ ¬ InRange (stateE.slot 0) (3#32).toNat (1#32).toNat :=
  ⟨stateE_inv, witness_GetReadsChannelOrZero⟩

theorem witness_SetpxWritesOnePixel : stateE.Inv ∧ slotExists stateE.params.nbuf 0 = true ∧
    InRange (stateE.slot 0) (2#32).toNat (1#32).toNat ∧ ¬ InRange (stateE.slot 0) (2#32).toNat (2#32).toNat :=
  ⟨stateE_inv, witness_GetpxReadsPixelOrZero⟩

/-- Byte 17 is the last byte of slot 0's storage and byte 18 lies outside; byte 17 is red, byte 16 green. -/
theorem witness_FillSetsOneChannelEverywhere : stateE.Inv ∧ slotExists stateE.params.nbuf 0 = true ∧
    (17 < (stateE.slot 0).px.len ∧ 17 % 3 = channelNumber .red) ∧ ¬ 18 < (stateE.slot 0).px.len ∧
    16 % 3 = channelNumber .green := ⟨stateE_inv, by decide +kernel⟩

theorem witness_InvertComplementsOneChannel : stateE.Inv ∧ slotExists stateE.params.nbuf 0 = true ∧
    (17 < (stateE.slot 0).px.len ∧ 17 % 3 = channelNumber .red) ∧ ¬ 18 < (stateE.slot 0).px.len ∧
    16 % 3 = channelNumber .green := witness_FillSetsOneChannelEverywhere

/-- Both policies; equal and different slots. -/
theorem witness_CloneCopiesBuffer : stateE.Inv ∧ ({ stateE with
      params := { Params.examples with cloneResPolicy := .default } } : State).Inv ∧
    stateE.params.cloneResPolicy = .copy ∧ slotExists stateE.params.nbuf 0 = true ∧
    slotExists stateE.params.nbuf 1 = true ∧ (1#4 : SlotNum) ≠ 0#4 := ⟨stateE_inv, by decide +kernel⟩

theorem witness_RddescReadsDescriptor : stateE.Inv ∧ slotExists stateE.params.nbuf 0 = true ∧
    (stateE.slot 0).px.len < 2 ^ 64 := ⟨stateE_inv, by decide +kernel⟩

theorem witness_PixelBufferLaws : stateE.Inv ∧ slotExists stateE.params.nbuf 0 = true ∧
    InRange (stateE.slot 0) (2#32).toNat (1#32).toNat ∧ ¬ InRange (stateE.slot 0) (3#32).toNat (1#32).toNat ∧
    exec (.clear 0) stateE = .next ((stateE.setSlot 0 .empty).respond 0#64 false) ∧
    (3#32).toNat * (2#32).toNat * 3 ≤ stateE.params.cap ∧ (2#32).toNat < (3#32).toNat ∧ (1#32).toNat < (2#32).toNat :=
  ⟨stateE_inv, slots_zero_and_one.1, inRange_boundary.1, inRange_boundary.2.1, rfl, by decide⟩

theorem witness_SaturatingSumLaws : (254#8).toNat ≤ (255#8).toNat ∧ sat8 254 1 = 255#8 ∧ sat8 254 0 = 254#8 := by decide

/-- Different and equal slots; at offset (1, 0) the 2×2 source just fits the 3×2 destination, at (2, 0) it is clipped;
(2, 1) is covered, (0, 0) is not. -/
theorem witness_OverlayCopiesSourcePixels : stateE.Inv ∧ slotExists stateE.params.nbuf 0 = true ∧
    slotExists stateE.params.nbuf 1 = true ∧ (0#4 : SlotNum) ≠ 1#4 ∧
    geometricClip (stateE.slot 1) (stateE.slot 0) 1 0 = false ∧ geometricClip (stateE.slot 1) (stateE.slot 0) 2 0 = true ∧
    (InRange (stateE.slot 0) 2 1 ∧ Covers (stateE.slot 1) 1 0 2 1) ∧
    (InRange (stateE.slot 0) 0 0 ∧ ¬ Covers (stateE.slot 1) 1 0 0 0) :=
  ⟨stateE_inv, by unfold InRange Covers; decide +kernel⟩

/-- As for `OVERLAY`; the key colour (1, 1, 1) is source pixel (1, 0) and differs from source pixel (0, 0). -/
theorem witness_MaskSkipsKeyColour : stateE.Inv ∧ slotExists stateE.params.nbuf 0 = true ∧
    slotExists stateE.params.nbuf 1 = true ∧ (0#4 : SlotNum) ≠ 1#4 ∧
    storedPixel (stateE.slot 1) 1 0 = ⟨1#8, 1#8, 1#8⟩ ∧ storedPixel (stateE.slot 1) 0 0 ≠ ⟨1#8, 1#8, 1#8⟩ ∧
    (InRange (stateE.slot 0) 2 1 ∧ Covers (stateE.slot 1) 1 0 2 1) ∧
    (InRange (stateE.slot 0) 0 0 ∧ ¬ Covers (stateE.slot 1) 1 0 0 0) :=
  ⟨stateE_inv, by unfold InRange Covers; decide +kernel⟩

theorem witness_AddSaturatesChannels : stateE.Inv ∧ slotExists stateE.params.nbuf 0 = true ∧
    slotExists stateE.params.nbuf 1 = true ∧ (0#4 : SlotNum) ≠ 1#4 ∧
    (InRange (stateE.slot 0) 2 1 ∧ Covers (stateE.slot 1) 1 0 2 1) ∧
    (InRange (stateE.slot 0) 0 0 ∧ ¬ Covers (stateE.slot 1) 1 0 0 0) :=
  ⟨stateE_inv, by unfold InRange Covers; decide +kernel⟩

/-- The key (5, 5, 5) occurs nowhere in slot 1 (T6). -/
theorem witness_MaskWithAbsentKeyIsOverlay : stateE.Inv ∧ slotExists stateE.params.nbuf 0 = true ∧
    slotExists stateE.params.nbuf 1 = true ∧ (0#4 : SlotNum) ≠ 1#4 ∧
    ∀ sx sy, InRange (stateE.slot 1) sx sy → storedPixel (stateE.slot 1) sx sy ≠ ⟨5#8, 5#8, 5#8⟩ := by
  refine ⟨stateE_inv, slots_zero_and_one.1, slots_zero_and_one.2, by decide, ?_⟩
  rintro sx sy ⟨hx, hy⟩
  have hx' : sx < 2 := hx
  have hy' : sy < 2 := hy
  interval_cases sx <;> interval_cases sy <;> decide +kernel

theorem witness_EncodeImageWritesFileImage : stateE.Inv ∧ slotExists stateE.params.nbuf 1 = true ∧
    slotExists stateE.params.nbuf 2 = false := ⟨stateE_inv, by decide⟩

theorem witness_DecodeOfEncodedImageIsIdentity : stateE.Inv ∧ slotExists stateE.params.nbuf 0 = true ∧
    slotExists stateE.params.nbuf 1 = true ∧ (0#4 : SlotNum) ≠ 1#4 ∧ (stateE.slot 0).width.toNat ≤ 2 ^ 31 ∧
    (stateE.slot 0).height.toNat ≤ 2 ^ 31 := ⟨stateE_inv, by decide +kernel⟩

/-- 53 bytes are too few for a header, 54 are enough; a file cut by one byte fails in its last row; slot 2 does not exist. -/
theorem witness_DecodeImageLeavesNoPartialBuffer : (file70.take 53).length < 54 ∧ stateE.Inv ∧
    slotExists stateE.params.nbuf 1 = true ∧ (decodeImage 1 (.ofBytes (file70.take 69)) stateE).2 ≠ .ok ∧
    slotExists stateE.params.nbuf 2 = false ∧ 54 ≤ (file70.take 54).length :=
  ⟨by decide, stateE_inv, by decide, by decide +kernel, by decide, by decide⟩

/-- Inputs of every length without reset, with a packet offered in each cycle, and an idle cycle. -/
theorem witness_PortsAnswerEachTakenPacket : portsAtReset.executing = none ∧
    (∀ k, ∃ inputs : List PortIn, inputs.length = k ∧ ∀ i ∈ inputs, i.rst = false) ∧
    ∃ idle : List PortIn, idle ≠ [] ∧ ∀ i ∈ idle, i.rst = false ∧ i.cmdValid = false := by
  refine ⟨rfl, fun k => ⟨List.replicate k { rst := false, cmdValid := true, cmd := 0x10#128 }, by simp, fun i hi => ?_⟩,
    [{ rst := false, cmdValid := false, cmd := 0#128 }], by simp, by simp⟩
  rw [List.eq_of_mem_replicate hi]

end Sys2Proof.Tests
end

section
/-! PROOFS. What one packet answers and what one step runs (00_scope.md R12, R16; 70_reset_and_hazards.md R146). -/

namespace Sys2Proof.Machine

/-! ### The outcome of a packet -/

/-- The inversion of a command's response: an error can only come from `State.raise`. -/
theorem CommandEffect.err_zero_or_raised {i : Instr} {s t : State} (h : CommandEffect i s t) :
    t.err = 0#8 ∨ ∃ e ∈ i.errorKinds, t = s.raise e := by
  cases h with
  | raised e he => exact .inr ⟨e, he, rfl⟩
  | responded => exact .inl rfl
  | header => exact .inl rfl
  | slot => exact .inl rfl

/-- The same for a packet, whether it decodes or not. -/
theorem runPacket_err_zero_or_raised (w : Packet) (s : State) :
    ∃ t, runPacket w s = .next t ∧ (t.err = 0#8 ∨ ∃ e, t = s.raise e) := by
  rcases runPacket_cases w s with ⟨_, -, hrun⟩ | ⟨i, -, hrun⟩
  · exact ⟨_, hrun, .inr ⟨.illegalCommand, rfl⟩⟩
  · obtain ⟨t, hexec, heffect⟩ := exec_effect i s
    exact ⟨t, hrun.trans hexec, heffect.err_zero_or_raised.imp_right fun ⟨e, _, ht⟩ => ⟨e, ht⟩⟩

/-- Settles O13: a packet ends with `ERR` = 0 or in `State.raise`, which touches the response registers alone. -/
theorem everyPacketAnswersAndErrorsChangeNothing : Obligations.EveryPacketAnswersAndErrorsChangeNothing := by
  intro s w
  obtain ⟨t, hrun, hok | ⟨e, rfl⟩⟩ := runPacket_err_zero_or_raised w s
  · exact ⟨t, hrun, .inl hok⟩
  · exact ⟨_, hrun, .inr ⟨e, s.raise_err e, s.raise_flag e, s.raise_res e, onlyResponse_raise s e⟩⟩

/-! ### The step and the decoder -/

theorem runPacket_of_decode {w : Packet} {i : Instr} (h : decode w = .ok i) (s : State) : runPacket w s = exec i s := by
  rw [runPacket, h]

theorem step_of_pending_packet {s : State} {w : Packet} {rest : List HostInput} (h : s.pending = .packet w :: rest) :
    step s = runPacket w { s with pending := rest } := by
  rw [step, stepInput, h]
  rfl

/-- Taking the placed packet gives back the state it was placed in. -/
theorem step_withFetchWord (s : State) (nbits w : Nat) :
    step (s.withFetchWord nbits w) = runPacket (packetOfTableWord nbits w) s :=
  step_of_pending_packet (placePacket_pending (packetOfTableWord nbits w) s)

theorem decodeTableWord_eq_some {nbits w : Nat} {i : Instr} (h : decodeTableWord nbits w = some i) :
    decode (packetOfTableWord nbits w) = .ok i := by
  unfold decodeTableWord at h
  split at h
  next j hj => exact Option.some.inj h ▸ hj
  next => cases h

/-- Settles O11: a step on a packet is `runPacket`, which is `exec` of the decoded command. -/
theorem stepRunsDecodedCommand : Obligations.StepRunsDecodedCommand := by
  refine ⟨fun s w rest i hpending hdecode => ?_, fun s w i _ hdecode => ?_⟩
  · rw [step_of_pending_packet hpending, runPacket_of_decode hdecode]
  · rw [step_withFetchWord, runPacket_of_decode (decodeTableWord_eq_some hdecode)]

end Sys2Proof.Machine
end

section
/-! PROOFS. What every step keeps, what a command leaves unchanged, and the reset state (10_state.md R21, R25, R28, R31,
R34). -/

namespace Sys2Proof

/-! ### The two kinds of writers -/

theorem Instr.destSlot_of_writesHeader {i : Instr} (h : i.writesHeader = true) : i.destSlot = none := by
  cases i
  case hbwr | wrf | hbuild => rfl
  all_goals cases h

theorem Instr.writesHeader_of_destSlot {i : Instr} (h : i.destSlot ≠ none) : i.writesHeader = false :=
  Bool.eq_false_iff.2 (mt Instr.destSlot_of_writesHeader h)

end Sys2Proof

namespace Sys2Proof.Machine

/-! ### What a command's effect keeps -/

theorem CommandEffect.params {i : Instr} {s t : State} (h : CommandEffect i s t) : t.params = s.params := by
  cases h <;> rfl

/-- The bytes a command writes are canonical and inside their space, whether it writes `HB` or a slot. -/
theorem CommandEffect.inv {i : Instr} {s t : State} (h : CommandEffect i s t) (hs : s.Inv) : t.Inv := by
  cases h with
  | raised e => exact hs.raise e
  | responded r f => exact hs.respond r f
  | header m r f _ hm =>
    obtain ⟨hwf, hbelow⟩ := hm hs
    obtain ⟨hparams, -, -, hslots⟩ := hs
    exact ⟨hparams, hwf, hbelow, hslots⟩
  | slot a b r f _ _ hb => exact (hs.setSlot a (hb hs)).respond r f

theorem CommandEffect.slot_eq {i : Instr} {s t : State} (h : CommandEffect i s t) {c : SlotNum}
    (hc : i.destSlot ≠ some c) : t.slot c = s.slot c := by
  cases h with
  | raised | responded | header => rfl
  | slot a b r f ha =>
    have hac : a ≠ c := by
      rintro rfl
      exact hc ha
    rw [State.slot_respond, State.slot_setSlot_ne s b hac]

theorem CommandEffect.hb_eq {i : Instr} {s t : State} (h : CommandEffect i s t) (hi : i.writesHeader = false) :
    t.hb = s.hb := by
  cases h with
  | raised | responded | slot => rfl
  | header m r f hw => rw [hi] at hw; cases hw

/-! ### What a step keeps -/

/-- A property that no command, no error, no reset and no taking of an input destroys is kept by every step. -/
theorem step_keeps {P : State → Prop} (hpending : ∀ s rest, P s → P { s with pending := rest })
    (hreset : ∀ s, P s → P s.afterReset) (hraise : ∀ s e, P s → P (s.raise e))
    (heffect : ∀ i s t, CommandEffect i s t → P s → P t) {s t : State} (h : step s = .next t) (hs : P s) : P t := by
  rcases step_cases s with ⟨-, hstep⟩ | ⟨rest, -, hstep⟩ | ⟨w, rest, -, hstep⟩
  · cases hstep.symm.trans h
    exact hs
  · cases hstep.symm.trans h
    exact hreset _ (hpending s rest hs)
  · rcases runPacket_cases w { s with pending := rest } with ⟨_, -, hrun⟩ | ⟨i, -, hrun⟩
    · cases (hstep.trans hrun).symm.trans h
      exact hraise _ _ (hpending s rest hs)
    · exact heffect i _ t (exec_cases ((hstep.trans hrun).symm.trans h)) (hpending s rest hs)

/-- Settles O17: the invariant is kept by each of a command's effects, by an error and by a reset. -/
theorem stepKeepsStorageInvariant : Obligations.StepKeepsStorageInvariant := by
  intro s t hinv hstep
  exact step_keeps (P := State.Inv) (fun _ rest h => h.withPending rest) (fun _ h => h.afterReset)
    (fun _ e h => h.raise e) (fun _ _ _ heffect h => heffect.inv h) hstep hinv

/-- Settles O20: the parameters are a field that no effect, error or reset writes. -/
theorem stepKeepsParameters : Obligations.StepKeepsParameters := by
  intro s t hstep
  exact step_keeps (P := fun u => u.params = s.params) (fun _ _ h => h) (fun u h => u.afterReset_params.trans h)
    (fun u e h => (u.raise_params e).trans h) (fun _ _ _ heffect h => heffect.params.trans h) hstep rfl

/-! ### What a command leaves unchanged -/

/-- Settles O22: of a command's effects one writes a slot, the command's own, and the one that writes `HB` belongs to
commands without such a slot. -/
theorem onlyTheNamedSlotChanges : Obligations.OnlyTheNamedSlotChanges := by
  intro s t i hexec
  have heffect := exec_cases hexec
  exact ⟨fun _ hc => heffect.slot_eq hc, fun hd => heffect.hb_eq (Instr.writesHeader_of_destSlot hd)⟩

/-- Settles O23: only the header effect writes `HB`, and it belongs to the header writers. -/
theorem onlyHeaderWritersChangeHeader : Obligations.OnlyHeaderWritersChangeHeader :=
  fun _ _ _ hexec hi => (exec_cases hexec).hb_eq hi

/-! ### The reset state -/

/-- Settles O18: `HB` stores nothing and every slot is the empty buffer, which is legal (`State.inv_of_reset`). -/
theorem resetMeetsStorageInvariant : Obligations.ResetMeetsStorageInvariant := fun _ hp => State.inv_of_reset hp

@[simp] theorem State.hbByte_resetWith (p : Config.Params) (i : Nat) : (State.resetWith p).hbByte i = 0#8 := rfl

/-- After reset every slot is empty; one that does not exist reads as empty too. -/
@[simp] theorem State.slot_resetWith (p : Config.Params) (a : SlotNum) :
    (State.resetWith p).slot a = PixelBuffer.empty := by
  rw [State.slot, State.resetWith_slots, List.getD_eq_getElem?_getD, List.getElem?_getD_replicate_default_eq]

/-- An empty slot has the stated depth of 24 and every other descriptor 0 (R26, R34). -/
theorem descriptor_empty (sel : Selector) :
    descriptor PixelBuffer.empty sel = if sel = .bitsPerPixel then 24#64 else 0#64 := by
  cases sel <;> rfl

theorem rddesc_resetWith {p : Config.Params} {a : SlotNum} (ha : slotExists p.nbuf a = true) (sel : Selector) :
    Succeeds (exec (.rddesc a sel) (State.resetWith p)) (if sel = .bitsPerPixel then 24#64 else 0#64) false
      (OnlyResponse (State.resetWith p)) := by
  rw [exec_rddesc (s := State.resetWith p) ha, State.slot_resetWith, descriptor_empty]
  exact succeeds_onlyResponse _ _ _

/-- Settles O21: the reset values by definition, and `RDDESC` by the descriptors of an empty slot. -/
theorem resetStateIsZeroAndEmpty : Obligations.ResetStateIsZeroAndEmpty := by
  intro p
  refine ⟨State.hbByte_resetWith p, by simp, rfl, rfl, rfl, fun a ha => ?_⟩
  have hrddesc := rddesc_resetWith ha
  exact ⟨State.slot_resetWith p a, hrddesc .width, hrddesc .height, hrddesc .bitsPerPixel, hrddesc .hRes, hrddesc .vRes,
    hrddesc .length⟩

end Sys2Proof.Machine
end

section
/-! PROOFS. The bytes of a packet, the response number, and the commands without side effects (20_memory.md R43, R48;
30_encoding.md R71). -/

namespace Sys2Proof

/-! ### The bytes of a packet -/

@[simp] theorem length_packetBytes (w : Packet) : (packetBytes w).length = 16 := by
  rw [packetBytes, List.length_map, List.length_range]

theorem getElem?_packetBytes (w : Packet) {k : Nat} (hk : k < 16) :
    (packetBytes w)[k]? = some (w.extractLsb' (8 * k) 8) := by
  rw [packetBytes, List.getElem?_map, List.getElem?_range hk, Option.map_some]

/-- Bit i of the carried packet stands in byte i / 8 of the transfer; a byte that is not sent counts as 0. -/
theorem getLsbD_packetOfBytes (bytes : List Byte) {i : Nat} (hi : i < 128) :
    (packetOfBytes bytes).getLsbD i = (bytes[i / 8]?.getD 0#8).getLsbD (i % 8) := by
  induction bytes generalizing i with
  | nil => simp [packetOfBytes]
  | cons b rest ih =>
    rw [packetOfBytes, BitVec.getLsbD_or, BitVec.getLsbD_setWidth, BitVec.getLsbD_shiftLeft]
    by_cases h : i < 8
    · simp [hi, h, Nat.div_eq_of_lt h, Nat.mod_eq_of_lt h]
    · obtain ⟨j, rfl⟩ : ∃ j, i = j + 8 := ⟨i - 8, by omega⟩
      have hdiv : (j + 8) / 8 = j / 8 + 1 := by omega
      simp [hi, hdiv, ih (show j < 128 by omega)]

theorem packetOfBytes_packetBytes (w : Packet) : packetOfBytes (packetBytes w) = w := by
  apply BitVec.eq_of_getLsbD_eq
  intro i hi
  rw [getLsbD_packetOfBytes _ hi, getElem?_packetBytes w (show i / 8 < 16 by omega), Option.getD_some,
    BitVec.getLsbD_extractLsb', Nat.div_add_mod, decide_eq_true (Nat.mod_lt i (by decide)), Bool.true_and]

/-- Settles O9: each bit of the packet is a bit of exactly one byte, and the response number is read bit by bit
(`State.rsp_fields`). -/
theorem packetBytesAndResponseNumber : Obligations.PacketBytesAndResponseNumber :=
  ⟨fun w => ⟨length_packetBytes w, fun _ hk => getElem?_packetBytes w hk, packetOfBytes_packetBytes w⟩,
    Machine.State.rsp_fields⟩

/-! ### The commands without side effects -/

/-- The commands of R48 are among those that write neither a slot nor `HB`. -/
theorem Instr.writesNothing_of_readOnly {i : Instr} (h : i.opcode ∈ Spec.readOnly) :
    i.destSlot = none ∧ i.writesHeader = false := by
  cases i
  case hbrd | rdf | stride | padlen | get | getpx | rddesc | addpx => exact ⟨rfl, rfl⟩
  all_goals simp [Instr.opcode, Spec.readOnly] at h

end Sys2Proof

namespace Sys2Proof.Machine

theorem CommandEffect.onlyResponse {i : Instr} {s t : State} (h : CommandEffect i s t) (hd : i.destSlot = none)
    (hw : i.writesHeader = false) : OnlyResponse s t := by
  cases h with
  | raised e => exact onlyResponse_raise s e
  | responded r f => exact onlyResponse_respond s r f
  | header _ _ _ hi => rw [hw] at hi; cases hi
  | slot _ _ _ _ ha => rw [hd] at ha; cases ha

/-- No command reads the response registers, and every command overwrites all three (60_exceptions.md R137). -/
theorem exec_eq_of_onlyResponse {s t : State} (h : OnlyResponse s t) (i : Instr) : exec i t = exec i s := by
  obtain ⟨hparams, hhb, hslots, hpending⟩ := h
  cases s
  cases t
  subst hparams hhb hslots hpending
  cases i <;> rfl

/-- Settles O24: a command of R48 has no effect but its response, and no command reads the response. -/
theorem readOnlyCommandsRepeat : Obligations.ReadOnlyCommandsRepeat := by
  intro s t i hi hexec
  obtain ⟨hd, hw⟩ := Instr.writesNothing_of_readOnly hi
  have honly : OnlyResponse s t := (exec_cases hexec).onlyResponse hd hw
  exact ⟨honly, (exec_eq_of_onlyResponse honly i).trans hexec⟩

end Sys2Proof.Machine
end

section
/-! PROOFS. The decoder against the encoder and against the tables of R62 and R74, the operand checks, packed pixels and
the assembler (30_encoding.md R60 to R74). -/

namespace Sys2Proof

open Laws.EncodedBits in
/-- The per-command lemmas together: every encoded command passes R74 steps 1 and 2. -/
theorem encodedBits : ∀ i : Instr, Statement i
  | .hbwr idx data => hbwr idx data
  | .hbrd idx => hbrd idx
  | .rdf off size => rdf off size
  | .wrf value off size => wrf value off size
  | .hparse a => hparse a
  | .hbuild a => hbuild a
  | .stride width => stride width
  | .padlen width => padlen width
  | .init a width height bpp => init a width height bpp
  | .clear a => clear a
  | .get a x y ch => get a x y ch
  | .getpx a x y => getpx a x y
  | .set a x y ch val => set a x y ch val
  | .setpx a x y pix => setpx a x y pix
  | .fill a ch val => fill a ch val
  | .invert a ch => invert a ch
  | .clone b a => clone b a
  | .rddesc a sel => rddesc a sel
  | .addpx pa pb => addpx pa pb
  | .overlay b a x y => overlay b a x y
  | .mask b a x y pix => mask b a x y pix
  | .add b a x y => add b a x y

/-! ### The checks of the decoder, one at a time -/

/-- R74 step 1 fails. -/
theorem decode_of_reservedOpcode {w : Packet} (h : Opcode.ofCode w.op = none) :
    decode w = .illegal .reservedOpcode := by
  rw [decode, h]

/-- R74 step 2 fails. -/
theorem decode_of_reservedBits {w : Packet} {op : Opcode} (hop : w.op = op.code)
    (h : w &&& op.reservedMask ≠ op.code.setWidth 128) : decode w = .illegal .reservedBits := by
  rw [decode, hop, Opcode.ofCode_code]
  exact if_neg h

/-- R74 steps 1 and 2 pass: the mask holds the opcode bits too. -/
theorem decode_of_masked {w : Packet} {op : Opcode} (h : w &&& op.reservedMask = op.code.setWidth 128) :
    decode w = decodeFields op w := by
  rw [decode, Laws.EncodedBits.op_of_masked h, Opcode.ofCode_code]
  exact if_pos h

@[simp] theorem withChannel_code (c : Channel) (k : Channel → Instr) : withChannel c.code k = .ok (k c) := by
  rw [withChannel, Channel.ofCode_code]

theorem withChannel_three (k : Channel → Instr) : withChannel 3#2 k = .illegal .badChannel := rfl

@[simp] theorem withSelector_code (s : Selector) (k : Selector → Instr) : withSelector s.code k = .ok (k s) := by
  rw [withSelector, Selector.ofCode_code]

theorem Channel.exists_code {c : BitVec 2} (h : c ≠ 3#2) : ∃ ch : Channel, ch.code = c := by
  obtain ⟨ch, hch⟩ := Option.ne_none_iff_exists'.1 (mt Channel.ofCode_eq_none.1 h)
  exact ⟨ch, Channel.code_of_ofCode hch⟩

theorem Selector.six_le_iff : ∀ {c : BitVec 3}, 6 ≤ c.toNat ↔ Selector.ofCode c = none := by decide

theorem Selector.exists_code {c : BitVec 3} (h : ¬ 6 ≤ c.toNat) : ∃ sel : Selector, sel.code = c := by
  obtain ⟨sel, hsel⟩ := Option.ne_none_iff_exists'.1 (mt Selector.six_le_iff.2 h)
  exact ⟨sel, Selector.code_of_ofCode hsel⟩

/-! ### Decode after encode, encode after decode -/

/-- Each field of an encoded command reads back what was placed there: the other fields lie elsewhere. -/
theorem decodeFields_encode (i : Instr) : decodeFields i.opcode (encode i) = .ok i := by
  cases i <;>
    simp (disch := decide) only [Instr.opcode, decodeFields, encode, Packet.idx, Packet.off, Packet.size, Packet.a,
      Packet.b, Packet.ch, Packet.sel, Packet.data, Packet.value, Packet.width, Packet.x, Packet.pa, Packet.height,
      Packet.y, Packet.pb, Packet.bpp, Packet.val, Packet.pix, extract_or, extract_place_same, extract_place_disjoint,
      BitVec.zero_or, BitVec.or_zero, withChannel_code, withSelector_code, RgbPixel.unpack_pack]

/-- Settles O1: an encoded command passes the opcode and reserved-bit checks, and its fields read back. -/
theorem decodeOfEncodeIsIdentity : Obligations.DecodeOfEncodeIsIdentity := by
  intro i
  obtain ⟨-, hmask⟩ := encodedBits i
  rw [decode_of_masked hmask, decodeFields_encode]

theorem and_eq_of_full_mask (w : Packet) {m : Packet} (h : m = BitVec.allOnes 128) : w &&& m = w := by
  rw [h, BitVec.and_allOnes]

/-- Encoding what was read gives the packet under each field's bits and under the reserved mask; together these bits are
the whole packet. -/
theorem encode_of_decodeFields {op : Opcode} {w : Packet} {i : Instr}
    (hmask : w &&& op.reservedMask = op.code.setWidth 128) (h : decodeFields op w = .ok i) : encode i = w := by
  rw [← place_code] at hmask
  cases op
  case get | set | fill | invert =>
    obtain ⟨ch, hch, rfl⟩ := withChannel_ok h
    simp only [encode, hch, Packet.a, Packet.ch, Packet.x, Packet.y, Packet.val, place_extract, ← hmask,
      ← BitVec.and_or_distrib_left]
    exact and_eq_of_full_mask w (by decide)
  case rddesc =>
    obtain ⟨sel, hsel, rfl⟩ := withSelector_ok h
    simp only [encode, hsel, Packet.a, Packet.sel, place_extract, ← hmask, ← BitVec.and_or_distrib_left]
    exact and_eq_of_full_mask w (by decide)
  all_goals
    cases h
    simp only [encode, Packet.idx, Packet.off, Packet.size, Packet.a, Packet.b, Packet.data, Packet.value, Packet.width,
      Packet.x, Packet.pa, Packet.height, Packet.y, Packet.pb, Packet.bpp, Packet.pix, RgbPixel.pack_unpack,
      place_extract, ← hmask, ← BitVec.and_or_distrib_left]
    exact and_eq_of_full_mask w (by decide)

/-- Settles O2: the reserved bits are checked, and every other bit of the packet is a field's. -/
theorem encodeOfDecodeIsIdentity : Obligations.EncodeOfDecodeIsIdentity := by
  intro w i h
  obtain ⟨op, -, hmask, hfields⟩ := decode_ok h
  exact encode_of_decodeFields hmask hfields

/-! ### Reserved bits (R64) -/

/-- The bits of a list of fields, each a lowest bit and a width. -/
def fieldMask (fields : List (Nat × Nat)) : Packet :=
  fields.foldr (fun f m => place f.1 (BitVec.allOnes f.2) ||| m) 0#128

/-- The mask of R62 is the complement of the fields of R61. -/
theorem Opcode.reservedMask_eq (op : Opcode) : op.reservedMask = ~~~ fieldMask (Spec.operandFields op) := by
  cases op <;> decide

theorem getLsbD_fieldMask_of_outside {fields : List (Nat × Nat)} {i : Nat}
    (h : ∀ f ∈ fields, ¬(f.1 ≤ i ∧ i < f.1 + f.2)) : (fieldMask fields).getLsbD i = false := by
  induction fields with
  | nil => exact BitVec.getLsbD_zero
  | cons f rest ih =>
    obtain ⟨hf, hrest⟩ := List.forall_mem_cons.1 h
    have hplace : (place f.1 (BitVec.allOnes f.2)).getLsbD i = false := by
      rw [getLsbD_place, BitVec.getLsbD_allOnes]
      by_cases hlow : f.1 ≤ i
      · have hhigh : ¬ i - f.1 < f.2 := by omega
        simp [hhigh]
      · simp [hlow]
    rw [fieldMask, List.foldr_cons, BitVec.getLsbD_or, hplace, Bool.false_or]
    exact ih hrest

theorem getLsbD_reservedMask {op : Opcode} {i : Nat} (h : Spec.isReservedBit op i) :
    op.reservedMask.getLsbD i = true := by
  obtain ⟨-, hi, hfields⟩ := h
  rw [Opcode.reservedMask_eq, BitVec.getLsbD_not, getLsbD_fieldMask_of_outside hfields, decide_eq_true hi]
  rfl

/-- A reserved bit stands under the mask, and the opcode has no bit there. -/
theorem masked_ne_of_reservedBit {w : Packet} {op : Opcode} {i : Nat} (h : Spec.isReservedBit op i)
    (hw : w.getLsbD i = true) : w &&& op.reservedMask ≠ op.code.setWidth 128 := by
  intro hmask
  have hleft : (w &&& op.reservedMask).getLsbD i = true := by
    rw [BitVec.getLsbD_and, hw, getLsbD_reservedMask h, Bool.and_self]
  obtain ⟨hi, -⟩ := h
  rw [hmask, BitVec.getLsbD_setWidth, BitVec.getLsbD_of_ge op.code i hi, Bool.and_false] at hleft
  cases hleft

end Sys2Proof

namespace Sys2Proof.Machine

open Sys2Proof.Spec

theorem raises_of_illegal {w : Packet} {e : DecodeError} (h : decode w = .illegal e) (s : State) :
    Raises (runPacket w s) s 8#8 := by
  rw [runPacket, h]
  exact raises_raise s .illegalCommand

/-- Settles O6: a reserved bit makes the masked packet differ from the opcode, which is R74 step 2. -/
theorem reservedBitsAreIllegal : Obligations.ReservedBitsAreIllegal :=
  fun s _ _ _ hop hi hw => raises_of_illegal (decode_of_reservedBits hop (masked_ne_of_reservedBit hi hw)) s

/-! ### Reserved opcodes and selectors (R69) -/

theorem not_isReservedOpcode_code (op : Opcode) : ¬ isReservedOpcode op.code.toNat := by
  cases op <;> unfold isReservedOpcode <;> decide

theorem ofCode_of_isReservedOpcode {c : BitVec 8} (h : isReservedOpcode c.toNat) : Opcode.ofCode c = none := by
  cases hop : Opcode.ofCode c with
  | none => rfl
  | some op =>
    rw [← Opcode.code_of_ofCode hop] at h
    exact absurd h (not_isReservedOpcode_code op)

theorem raises_of_isReservedOpcode {w : Packet} (h : isReservedOpcode w.op.toNat) (s : State) :
    Raises (runPacket w s) s 8#8 :=
  raises_of_illegal (decode_of_reservedOpcode (ofCode_of_isReservedOpcode h)) s

theorem decodeFields_badSelector {w : Packet} (h : 6 ≤ w.sel.toNat) :
    decodeFields .rddesc w = .illegal .badSelector := by
  rw [decodeFields, withSelector, Selector.six_le_iff.1 h]

/-- A packet whose operands are refused is refused, if not for a reserved bit already. -/
theorem raises_of_fields_illegal {w : Packet} {op : Opcode} {e : DecodeError} (hop : w.op = op.code)
    (h : decodeFields op w = .illegal e) (s : State) : Raises (runPacket w s) s 8#8 := by
  by_cases hmask : w &&& op.reservedMask = op.code.setWidth 128
  · exact raises_of_illegal ((decode_of_masked hmask).trans h) s
  · exact raises_of_illegal (decode_of_reservedBits hop hmask) s

/-- Settles O5: no opcode of R62 has a reserved number, 0 among them, and `SEL` 6 and 7 name no selector. -/
theorem reservedOpcodesAreIllegal : Obligations.ReservedOpcodesAreIllegal := by
  refine ⟨fun s w h => raises_of_isReservedOpcode h s, fun s => raises_of_isReservedOpcode (.inl rfl) s,
    fun s w hop hsel => ?_⟩
  have hsix : 6 ≤ w.sel.toNat := Selector.six_le_iff.2 (Selector.ofCode_eq_none.2 hsel)
  exact raises_of_fields_illegal (op := .rddesc) hop (decodeFields_badSelector hsix) s

/-! ### Slot operands (R68, R116) -/

theorem slotsDiffer_eq_false_iff (i : Instr) : i.slotsDiffer = false ↔
    ∃ (a : SlotNum) (x y : Word32) (key : RgbPixel),
      i = .clone a a ∨ i = .overlay a a x y ∨ i = .mask a a x y key ∨ i = .add a a x y := by
  constructor
  · intro h
    cases i <;> simp [Instr.slotsDiffer, Instr.slotFields] at h
    case clone b a => exact ⟨a, 0, 0, ⟨0, 0, 0⟩, .inl (by rw [h])⟩
    case overlay b a x y => exact ⟨a, x, y, ⟨0, 0, 0⟩, .inr (.inl (by rw [h]))⟩
    case mask b a x y key => exact ⟨a, x, y, key, .inr (.inr (.inl (by rw [h])))⟩
    case add b a x y => exact ⟨a, x, y, ⟨0, 0, 0⟩, .inr (.inr (.inr (by rw [h])))⟩
  · rintro ⟨a, x, y, key, rfl | rfl | rfl | rfl⟩ <;> simp [Instr.slotsDiffer, Instr.slotFields]

theorem raises_of_missing {i : Instr} {s : State} (h : i.slotsExist s.params.nbuf = false) :
    Raises (exec i s) s 8#8 := by
  rw [exec_of_missing h]
  exact raises_raise s .illegalCommand

theorem raises_of_aliased {i : Instr} {s : State} (h : i.slotsExist s.params.nbuf = true) (h' : i.slotsDiffer = false) :
    Raises (exec i s) s 10#8 := by
  rw [exec_of_aliased h h']
  exact raises_raise s .aliasedOperands

/-- Settles O7: the slot checks come before the command's own rule, and four commands name two slots. -/
theorem badSlotOperandsRaise : Obligations.BadSlotOperandsRaise :=
  fun _ i => ⟨raises_of_missing, raises_of_aliased, slotsDiffer_eq_false_iff i⟩

/-! ### The order of the checks (R74) -/

/-- The slot fields of a packet that R62's row for an opcode uses. -/
def packetSlots (op : Opcode) (w : Packet) : List SlotNum :=
  if op ∈ usesB then [w.a, w.b] else if op ∈ usesA then [w.a] else []

theorem usesA_of_usesB : ∀ op ∈ usesB, op ∈ usesA := by decide

theorem decodeFields_badChannel {op : Opcode} {w : Packet} (hop : op ∈ usesChannel) (h : w.ch = 3#2) :
    decodeFields op w = .illegal .badChannel := by
  simp only [usesChannel, List.mem_cons, List.not_mem_nil, or_false] at hop
  rcases hop with rfl | rfl | rfl | rfl <;> rw [decodeFields, h, withChannel_three]

/-- R74 step 3 passes: the operands are one command's, and its slots are the packet's. -/
theorem decodeFields_ok {op : Opcode} {w : Packet} (hch : ¬(op ∈ usesChannel ∧ w.ch = 3#2))
    (hsel : ¬(op = .rddesc ∧ 6 ≤ w.sel.toNat)) :
    ∃ i, decodeFields op w = .ok i ∧ i.slotFields = packetSlots op w := by
  cases op
  case get | set | fill | invert =>
    obtain ⟨ch, hch⟩ := Channel.exists_code fun h => hch ⟨by decide, h⟩
    exact ⟨_, by rw [decodeFields, ← hch, withChannel_code], rfl⟩
  case rddesc =>
    obtain ⟨sel, hsel⟩ := Selector.exists_code fun h => hsel ⟨rfl, h⟩
    exact ⟨_, by rw [decodeFields, ← hsel, withSelector_code], rfl⟩
  all_goals exact ⟨_, rfl, rfl⟩

/-- R74 step 4 on the packet's fields. -/
theorem slotsExist_eq_false_iff {i : Instr} {op : Opcode} {w : Packet} (hi : i.slotFields = packetSlots op w)
    (nbuf : Nat) : i.slotsExist nbuf = false ↔
      (op ∈ usesA ∧ nbuf ≤ w.a.toNat) ∨ (op ∈ usesB ∧ nbuf ≤ w.b.toNat) := by
  rw [Instr.slotsExist, hi, packetSlots]
  by_cases hB : op ∈ usesB
  · simp [hB, usesA_of_usesB op hB, slotExists, imp_iff_not_or]
  · by_cases hA : op ∈ usesA <;> simp [hB, hA, slotExists]

/-- R74 step 5 on the packet's fields. -/
theorem slotsDiffer_eq_false_iff_of_fields {i : Instr} {op : Opcode} {w : Packet}
    (hi : i.slotFields = packetSlots op w) : i.slotsDiffer = false ↔ op ∈ usesB ∧ w.a = w.b := by
  rw [Instr.slotsDiffer, hi, packetSlots]
  by_cases hB : op ∈ usesB
  · simp [hB]
  · by_cases hA : op ∈ usesA <;> simp [hB, hA]

/-- What O4 says a packet answers, given the error code of its first failing check (none where all pass). -/
def AnswersAsChecked (s : State) (w : Packet) : Option (BitVec 8) → Prop
  | some code => Raises (runPacket w s) s code
  | none => ∃ i, decode w = .ok i ∧ i.wellFormed s.params.nbuf = true ∧ runPacket w s = exec i s

/-- The first failing check decides: steps 1 to 3 on the packet, steps 4 and 5 on the command it decodes to. -/
theorem answersAsChecked_packetError (s : State) (w : Packet) :
    AnswersAsChecked s w (packetError s.params.nbuf w) := by
  unfold packetError
  split
  next hop => exact raises_of_illegal (decode_of_reservedOpcode hop) s
  next op hop =>
    have hcode : w.op = op.code := (Opcode.code_of_ofCode hop).symm
    split_ifs with hmask hch hsel hA hB hAB
    · exact raises_of_illegal (decode_of_reservedBits hcode hmask) s
    · obtain ⟨huses, hthree⟩ := hch
      exact raises_of_fields_illegal hcode (decodeFields_badChannel huses hthree) s
    · obtain ⟨rfl, hsix⟩ := hsel
      exact raises_of_fields_illegal hcode (decodeFields_badSelector hsix) s
    all_goals
      obtain ⟨i, hfields, hslots⟩ := decodeFields_ok hch hsel
      have hdecode : decode w = .ok i := (decode_of_masked (not_not.1 hmask)).trans hfields
      have hmissing := slotsExist_eq_false_iff hslots s.params.nbuf
      have halias := slotsDiffer_eq_false_iff_of_fields hslots
      rw [AnswersAsChecked, runPacket_of_decode hdecode]
    · exact raises_of_missing (hmissing.2 (.inl hA))
    · exact raises_of_missing (hmissing.2 (.inr hB))
    all_goals have hexist := Bool.eq_true_of_not_eq_false (mt hmissing.1 (not_or.2 ⟨hA, hB⟩))
    · exact raises_of_aliased hexist (halias.2 hAB)
    · have hdiffer := Bool.eq_true_of_not_eq_false (mt halias.1 hAB)
      exact ⟨i, hdecode, Bool.and_eq_true_iff.2 ⟨hexist, hdiffer⟩, rfl⟩

/-- Settles O4: by the checks in the order of R74. -/
theorem packetChecksRunInSpecOrder : Obligations.PacketChecksRunInSpecOrder :=
  answersAsChecked_packetError

/-! ### Packed pixels (R66) -/

/-- Settles O8: the three bytes are what `RgbPixel.unpack` reads, so unpacking after packing says them all. -/
theorem pixelPackingIsRedGreenBlue : Obligations.PixelPackingIsRedGreenBlue := by
  have hunpack := RgbPixel.unpack_pack
  refine ⟨fun p => ⟨?_, ?_, ?_, pack_toNat p, hunpack p⟩, fun p q => (Function.LeftInverse.injective hunpack).eq_iff⟩
  · exact congrArg RgbPixel.b (hunpack p)
  · exact congrArg RgbPixel.g (hunpack p)
  · exact congrArg RgbPixel.r (hunpack p)

/-! ### The assembler (R72) -/

@[simp] theorem opcodeOfMnemonic_mnemonicOf (op : Opcode) : opcodeOfMnemonic (mnemonicOf op) = some op := by
  cases op <;> decide

@[simp] theorem asmField_toNat {n : Nat} (v : BitVec n) : asmField n v.toNat = some v := by
  rw [asmField, if_pos v.isLt, BitVec.ofNat_toNat, BitVec.setWidth_eq]

@[simp] theorem asmPixelField_toNat (p : RgbPixel) : asmPixelField p.r.toNat p.g.toNat p.b.toNat = some p := by
  simp [asmPixelField]

theorem assembleOperands_asmOperands (i : Instr) : assembleOperands i.opcode (asmOperands i) = some i := by
  cases i <;> simp [Instr.opcode, asmOperands, asmPixel, assembleOperands]

/-- Settles O10: the mnemonic names the opcode, and every written operand fits its field. -/
theorem assembleOfWrittenCommandIsIdentity : Obligations.AssembleOfWrittenCommandIsIdentity := by
  intro i
  rw [assemble, asmOf, opcodeOfMnemonic_mnemonicOf]
  exact assembleOperands_asmOperands i

end Sys2Proof.Machine
end

section
/-! PROOFS. The header commands: fields of `HB` read and written, `HPARSE`, `HBUILD` and the round trip of both
(40_header_codec.md R80 to R89). -/

namespace Sys2Proof.Machine

open Sys2Proof.Spec

/-! ### What the header proofs share -/

/-- A command's packet carries the opcode of its own row of R62. -/
theorem encodedAs_opcode (i : Instr) : EncodedAs i i.opcode.code := by
  obtain ⟨hop, -⟩ := encodedBits i
  exact ⟨decodeOfEncodeIsIdentity i, hop⟩

theorem State.hbField_one (s : State) (a : Nat) : s.hbField a 1 = (s.hbByte a).toNat := rfl

theorem State.setHbField_one (s : State) (a v : Nat) : s.setHbField a 1 v = s.setHbByte a (BitVec.ofNat 8 v) := rfl

theorem toNat_ofNat_of_lt {w n : Nat} (h : n < 2 ^ w) : (BitVec.ofNat w n).toNat = n :=
  (BitVec.toNat_ofNat n w).trans (Nat.mod_eq_of_lt h)

theorem onlyHeader_setHbByte (s : State) (i : Nat) (v : Byte) (r : BitVec 64) (f : Bool) :
    OnlyHeader s ((s.setHbByte i v).respond r f) := ⟨rfl, rfl, rfl⟩

theorem onlyHeader_setHbField (s : State) (a n v : Nat) (r : BitVec 64) (f : Bool) :
    OnlyHeader s ((s.setHbField a n v).respond r f) := ⟨rfl, rfl, rfl⟩

theorem raises_withField_badSize {off size : Byte} (h : 4 < size.toNat) (s : State) (k : Nat → Nat → State) :
    Raises (withField off size s k) s 6#8 := by
  rw [withField_badSize h]
  exact raises_raise s .fieldSizeOutOfRange

theorem raises_withField_badBounds {off size : Byte} (h₁ : size.toNat ≤ 4) (h₂ : headerLength < off.toNat + size.toNat)
    (s : State) (k : Nat → Nat → State) : Raises (withField off size s k) s 7#8 := by
  rw [withField_badBounds h₁ h₂]
  exact raises_raise s .fieldOutOfBounds

/-! ### One header byte (R80, R81) -/

theorem withField_one_ok {idx : Byte} (h : idx.toNat < headerLength) (s : State) (k : Nat → Nat → State) :
    withField idx 1#8 s k = .next (k idx.toNat 1) := withField_ok (size := 1#8) (by decide) h k

theorem withField_one_bad {idx : Byte} (h : headerLength ≤ idx.toNat) (s : State) (k : Nat → Nat → State) :
    withField idx 1#8 s k = .next (s.raise .fieldOutOfBounds) :=
  withField_badBounds (size := 1#8) (by decide) (Nat.lt_succ_of_le h) k

/-- The last sentence of R80: the bounds of the two commands agree, and so do the writes. -/
theorem exec_hbwr_eq_wrf (s : State) (idx data : Byte) :
    exec (.hbwr idx data) s = exec (.wrf (data.setWidth 32) idx 1#8) s := by
  rw [exec_wrf]
  rcases Nat.lt_or_ge idx.toNat headerLength with hidx | hidx
  · rw [exec_hbwr_ok hidx, withField_one_ok hidx, State.setHbField_one, BitVec.toNat_setWidth_of_le (by decide),
      BitVec.ofNat_toNat, BitVec.setWidth_eq]
  · rw [exec_hbwr_bad hidx, withField_one_bad hidx]

/-- The same for R81. -/
theorem exec_hbrd_eq_rdf (s : State) (idx : Byte) : exec (.hbrd idx) s = exec (.rdf idx 1#8) s := by
  rw [exec_rdf]
  rcases Nat.lt_or_ge idx.toNat headerLength with hidx | hidx
  · rw [exec_hbrd_ok hidx, withField_one_ok hidx, State.hbField_one, BitVec.ofNat_toNat]
  · rw [exec_hbrd_bad hidx, withField_one_bad hidx]

/-- Settles O25: a byte write is a field write of size 1, and a write in canonical memory changes one byte. -/
theorem hbwrWritesOneHeaderByte : Obligations.HbwrWritesOneHeaderByte := by
  intro s idx data hinv
  refine ⟨encodedAs_opcode (.hbwr idx data), fun hidx => ?_, fun hidx => ?_, exec_hbwr_eq_wrf s idx data⟩
  · rw [exec_hbwr_bad hidx]
    exact raises_raise s .fieldOutOfBounds
  · rw [exec_hbwr_ok hidx]
    refine succeeds_respond _ ⟨onlyHeader_setHbByte s _ _ _ _, fun i => ?_⟩
    simp only [State.hbByte_respond, State.hbByte_setHbByte hinv, eq_comm]

/-- Settles O26: a byte read is a field read of size 1. -/
theorem hbrdReadsOneHeaderByte : Obligations.HbrdReadsOneHeaderByte := by
  intro s idx
  refine ⟨encodedAs_opcode (.hbrd idx), fun hidx => ?_, fun hidx => ?_, exec_hbrd_eq_rdf s idx⟩
  · rw [exec_hbrd_bad hidx]
    exact raises_raise s .fieldOutOfBounds
  · rw [exec_hbrd_ok hidx]
    exact succeeds_onlyResponse s _ _

/-! ### Fields of up to four bytes (R82, R83, R89) -/

/-- The state `RDF` of a legal field leads to. -/
def State.respondField (s : State) (o n : Nat) : State := s.respond (BitVec.ofNat 64 (s.hbField o n)) noFlag

theorem exec_rdf_ok {off size : Byte} (h₁ : size.toNat ≤ 4) (h₂ : off.toNat + size.toNat ≤ headerLength) (s : State) :
    exec (.rdf off size) s = .next (s.respondField off.toNat size.toNat) := by
  rw [exec_rdf, withField_ok h₁ h₂, State.respondField]

theorem exec_wrf_ok {off size : Byte} (h₁ : size.toNat ≤ 4) (h₂ : off.toNat + size.toNat ≤ headerLength) (s : State)
    (value : Word32) : exec (.wrf value off size) s =
      .next ((s.setHbField off.toNat size.toNat value.toNat).respond 0#64 noFlag) := by
  rw [exec_wrf, withField_ok h₁ h₂]

/-- `RES` is wide enough for every legal field. -/
theorem State.respondField_res_toNat (s : State) (o : Nat) {n : Nat} (hn : n ≤ 4) :
    (s.respondField o n).res.toNat = s.hbField o n := by
  have hlt : s.hbField o n < 256 ^ n := s.hbField_lt o n
  have hpow : 256 ^ n ≤ 256 ^ 4 := Nat.pow_le_pow_right (by decide) hn
  exact toNat_ofNat_of_lt (by omega)

/-- Settles O27: the two checks of `withField`, then a field that fits `RES`. -/
theorem rdfReadsLittleEndianField : Obligations.RdfReadsLittleEndianField := by
  intro s off size
  rw [exec_rdf]
  refine ⟨encodedAs_opcode (.rdf off size), fun hsize => raises_withField_badSize hsize s _,
    fun hsize hoff => raises_withField_badBounds hsize hoff s _, fun hsize hoff => ?_⟩
  have hres := s.respondField_res_toNat off.toNat hsize
  refine ⟨(s.respondField off.toNat size.toNat).res, hres.trans (hbField_eq_leField s _ _),
    hres.trans_lt (s.hbField_lt _ _), ?_⟩
  rw [withField_ok hsize hoff]
  exact succeeds_onlyResponse s _ _

/-- Byte k of a number, by division (00_scope.md R11) and by bit position (R83). -/
theorem ofNat_div_pow_eq_extract {w : Nat} (v : BitVec w) (k : Nat) :
    BitVec.ofNat 8 (v.toNat / 256 ^ k) = v.extractLsb' (8 * k) 8 := by
  rw [BitVec.extractLsb', Nat.shiftRight_eq_div_pow, Nat.pow_mul]

/-- Settles O28: what each byte reads as after a field write, and the field read back. -/
theorem wrfWritesLittleEndianField : Obligations.WrfWritesLittleEndianField := by
  intro s value off size hinv
  rw [exec_wrf]
  refine ⟨encodedAs_opcode (.wrf value off size), fun hsize => raises_withField_badSize hsize s _,
    fun hsize hoff => raises_withField_badBounds hsize hoff s _, fun hsize hoff => ?_⟩
  rw [withField_ok hsize hoff]
  refine succeeds_respond _ ⟨onlyHeader_setHbField s _ _ _ _ _, fun k hk => ?_, fun i hi => ?_, ?_⟩
  · rw [State.hbByte_respond, State.hbByte_setHbField hinv, if_pos (by omega), Nat.add_sub_cancel_left,
      ofNat_div_pow_eq_extract]
  · rw [State.hbByte_respond, State.hbByte_setHbField hinv, if_neg (by omega)]
  · rw [← hbField_eq_leField, State.hbField_respond, State.hbField_setHbField_same hinv]

/-- The offset of byte k of a legal field does not wrap. -/
theorem toNat_off_add {off size : Byte} (hoff : off.toNat + size.toNat ≤ headerLength) {k : Nat} (hk : k < size.toNat) :
    (off + BitVec.ofNat 8 k).toNat = off.toNat + k := by
  unfold headerLength at hoff
  rw [BitVec.toNat_add, BitVec.toNat_ofNat]
  omega

/-- `RDF` of one byte of a legal field. -/
theorem exec_rdf_byte {off size : Byte} (hoff : off.toNat + size.toNat ≤ headerLength) {k : Nat} (hk : k < size.toNat)
    (s : State) : exec (.rdf (off + BitVec.ofNat 8 k) 1#8) s = .next (s.respondField (off.toNat + k) 1) := by
  have hk' := toNat_off_add hoff hk
  rw [exec_rdf_ok (by decide) (by rw [hk', BitVec.toNat_ofNat]; omega), hk']
  rfl

/-- Settles O29: the written field reads back, and the field is the sum of its bytes. -/
theorem fieldWriteReadsBack : Obligations.FieldWriteReadsBack := by
  intro s value off size hinv hsize hoff
  refine ⟨⟨_, exec_wrf_ok hsize hoff s value, rfl, _, exec_rdf_ok hsize hoff _, rfl, ?_⟩,
    _, exec_rdf_ok hsize hoff s, fun k => s.respondField (off.toNat + k) 1,
    fun k hk => ⟨exec_rdf_byte hoff hk s, rfl⟩, ?_⟩
  · rw [State.respondField_res_toNat _ _ hsize, State.hbField_respond, State.hbField_setHbField_same hinv]
  · simp only [State.respondField_res_toNat _ _ hsize, State.respondField_res_toNat _ _ (show 1 ≤ 4 by decide),
      State.hbField_one, State.hbField_eq_sum s _ size.toNat]

/-! ### Signed fields (R86) -/

theorem signedMagnitude_of_le {v : Nat} (h : v ≤ 2 ^ 31) : signedMagnitude v = v := by
  unfold signedMagnitude
  split <;> omega

theorem signedMagnitude_le {v : Nat} : signedMagnitude v ≤ 2 ^ 31 := by
  unfold signedMagnitude
  split <;> omega

theorem signedMagnitude_eq_max_iff {v : Nat} : signedMagnitude v = 2 ^ 31 ↔ v = 2 ^ 31 := by
  unfold signedMagnitude
  split <;> omega

theorem signedMagnitude_neg {v : Nat} (h : v < 2 ^ 32) : signedMagnitude (2 ^ 32 - v) = signedMagnitude v := by
  unfold signedMagnitude
  split <;> split <;> omega

/-- Settles O32: the model's magnitude is the two's-complement one, which is bounded and symmetric. -/
theorem signedFieldMagnitude : Obligations.SignedFieldMagnitude := by
  intro v hv
  rw [absI32_eq_signedMagnitude hv]
  refine ⟨rfl, signedMagnitude_le, signedMagnitude_eq_max_iff, fun hpos => ?_⟩
  rw [absI32_eq_signedMagnitude (by omega), signedMagnitude_neg hv]

/-! ### `HPARSE` (R84, R85) -/

theorem leField_lt (s : State) (a n : Nat) : leField s a n < 256 ^ n :=
  (hbField_eq_leField s a n).symm.trans_lt (s.hbField_lt a n)

/-- `exec_hparse` in the words of the statements. -/
theorem exec_hparse_leField {s : State} {a : SlotNum} (ha : slotExists s.params.nbuf a = true) :
    exec (.hparse a) s = .next
    (if leField s 0 2 ≠ 0x4D42 then s.raise .invalidMagicNumber
    else if leField s 14 4 ≠ 40 then s.raise .unsupportedHeaderVersion
    else if leField s 28 2 ≠ 24 then s.raise .unsupportedPixelDepth
    else if s.params.cap < signedMagnitude (leField s 18 4) * signedMagnitude (leField s 22 4) * 3 then
      s.raise .capacityExceeded
    else (s.setSlot a (PixelBuffer.zeroed (BitVec.ofNat 32 (signedMagnitude (leField s 18 4)))
      (BitVec.ofNat 32 (signedMagnitude (leField s 22 4))) (BitVec.ofNat 32 (leField s 38 4))
      (BitVec.ofNat 32 (leField s 42 4)))).respond 0#64 noFlag) := by
  simp only [exec_hparse ha, hbField_eq_leField, absI32_eq_signedMagnitude (leField_lt s _ 4)]

/-- The descriptors of a zeroed buffer whose four numbers fit 32 bits. -/
theorem PixelBuffer.zeroed_ofNat {w h r v : Nat} (hw : w < 2 ^ 32) (hh : h < 2 ^ 32) (hr : r < 2 ^ 32)
    (hv : v < 2 ^ 32) {b : PixelBuffer}
    (hb : b = PixelBuffer.zeroed (BitVec.ofNat 32 w) (BitVec.ofNat 32 h) (BitVec.ofNat 32 r) (BitVec.ofNat 32 v)) :
    b.width.toNat = w ∧ b.height.toNat = h ∧ b.hRes.toNat = r ∧ b.vRes.toNat = v ∧ b.px.len = w * h * 3 ∧
      ∀ i, b.px.read i = 0#8 := by
  subst hb
  have hw' : (BitVec.ofNat 32 w).toNat = w := toNat_ofNat_of_lt hw
  have hh' : (BitVec.ofNat 32 h).toNat = h := toNat_ofNat_of_lt hh
  refine ⟨hw', hh', toNat_ofNat_of_lt hr, toNat_ofNat_of_lt hv, ?_, fun _ => rfl⟩
  rw [PixelBuffer.zeroed, ByteSeq.zeros_len, hw', hh']

/-- Settles O30: each clause names the first check that fails; past all four the slot is a zeroed buffer. -/
theorem hparseValidatesAndSetsUpSlot : Obligations.HparseValidatesAndSetsUpSlot := by
  intro s a hinv ha w h
  have hw : w < 2 ^ 32 := signedMagnitude_le.trans_lt (by decide)
  have hh : h < 2 ^ 32 := signedMagnitude_le.trans_lt (by decide)
  rw [exec_hparse_leField ha]
  refine ⟨encodedAs_opcode (.hparse a), fun hmagic => ?_, fun hmagic hversion => ?_, fun hmagic hversion hdepth => ?_,
    fun hmagic hversion hdepth hcap => ?_, fun hmagic hversion hdepth hcap => ?_⟩
  · rw [if_pos hmagic]
    exact raises_raise s .invalidMagicNumber
  · rw [if_neg (not_not.2 hmagic), if_pos hversion]
    exact raises_raise s .unsupportedHeaderVersion
  · rw [if_neg (not_not.2 hmagic), if_neg (not_not.2 hversion), if_pos hdepth]
    exact raises_raise s .unsupportedPixelDepth
  · rw [if_neg (not_not.2 hmagic), if_neg (not_not.2 hversion), if_neg (not_not.2 hdepth), if_pos hcap]
    exact raises_raise s .capacityExceeded
  · rw [if_neg (not_not.2 hmagic), if_neg (not_not.2 hversion), if_neg (not_not.2 hdepth), if_neg (Nat.not_lt.2 hcap)]
    refine (succeeds_setSlot hinv ha _ _ _).mono fun t ⟨honly, hslot⟩ => ⟨honly, ?_⟩
    exact PixelBuffer.zeroed_ofNat hw hh (leField_lt s 38 4) (leField_lt s 42 4) hslot

/-- A field inside the bytes that R85 lists is the same in two headers that agree on them. -/
theorem hbField_withHb_of_parsedByte {s : State} {m : Memory}
    (h : ∀ i, parsedByte i → ({ s with hb := m } : State).hbByte i = s.hbByte i) {a n : Nat}
    (hparsed : ∀ i, a ≤ i → i < a + n → parsedByte i) :
    ({ s with hb := m } : State).hbField a n = s.hbField a n :=
  Memory.readLE_congr fun i hlow hhigh => h i (hparsed i hlow hhigh)

/-- `HPARSE` commutes with a replacement of `HB` that keeps the bytes of R85. -/
theorem exec_hparse_withHb {s : State} {m : Memory} (a : SlotNum)
    (h : ∀ i, parsedByte i → ({ s with hb := m } : State).hbByte i = s.hbByte i) :
    ∃ t, exec (.hparse a) s = .next t ∧ exec (.hparse a) { s with hb := m } = .next { t with hb := m } := by
  cases ha : slotExists s.params.nbuf a
  · have hmissing : (Instr.hparse a).slotsExist s.params.nbuf = false := by
      simp [Instr.slotsExist, Instr.slotFields, ha]
    exact ⟨_, exec_of_missing hmissing, exec_of_missing (s := { s with hb := m }) hmissing⟩
  · refine ⟨_, exec_hparse ha, ?_⟩
    rw [exec_hparse (s := { s with hb := m }) ha]
    repeat rw [hbField_withHb_of_parsedByte h (by unfold parsedByte; omega)]
    split_ifs <;> rfl

/-- Settles O31: the six fields `HPARSE` reads lie inside the bytes of R85. -/
theorem hparseReadsOnlyItsFields : Obligations.HparseReadsOnlyItsFields := by
  intro s m a h
  obtain ⟨t, ht, hu⟩ := exec_hparse_withHb a h
  exact ⟨t, _, ht, hu, rfl, rfl, rfl, rfl, rfl⟩

/-! ### `HBUILD` (R87, R88) -/

/-- Every value `HBUILD` writes fits its field. -/
theorem headerFields_lt (p : Config.Params) (b : PixelBuffer) : ∀ f ∈ headerFields p b, f.2.2 < 256 ^ f.2.1 := by
  have hwidth := b.width.isLt
  have hheight := b.height.isLt
  have hhRes := b.hRes.isLt
  have hvRes := b.vRes.isLt
  simp only [headerFields, List.forall_mem_cons, List.not_mem_nil, false_imp_iff, implies_true, and_true]
  omega

/-- Everything `HBUILD` does, with its table as one statement (R87). -/
theorem succeeds_hbuild {s : State} (h : s.Inv) {a : SlotNum} (ha : slotExists s.params.nbuf a = true) :
    Succeeds (exec (.hbuild a) s) 0#64 false fun t => t.Inv ∧ OnlyHeader s t ∧
      (∀ f ∈ headerFields s.params (s.slot a), leField t f.1 f.2.1 = f.2.2) ∧
      ∀ i, headerLength ≤ i → t.hbByte i = s.hbByte i := by
  have hfit := headerFields_fit s.params (s.slot a)
  rw [exec_hbuild ha]
  refine succeeds_respond _ ⟨(inv_writeFields hfit h).respond _ _, ⟨?_, ?_, ?_⟩, fun f hf => ?_, fun i hi => ?_⟩
  · rw [State.respond_params, writeFields_params]
  · rw [State.respond_slots, writeFields_slots]
  · rw [State.respond_pending, writeFields_pending]
  · rw [← hbField_eq_leField, State.hbField_respond]
    exact hbField_headerFields h hf (headerFields_lt _ _ f hf)
  · rw [State.hbByte_respond, hbByte_writeFields_outside hfit h hi]

/-- Settles O33: the sixteen fields of the table one by one; no byte past the header is written. -/
theorem hbuildWritesHeaderFields : Obligations.HbuildWritesHeaderFields := by
  intro s a hinv ha b raw
  refine ⟨encodedAs_opcode (.hbuild a), (succeeds_hbuild hinv ha).mono ?_⟩
  rintro t ⟨-, honly, hfields, houtside⟩
  simp only [headerFields, fileSize, rawSize, headerLength, List.forall_mem_cons] at hfields
  obtain ⟨h0, h2, h6, h8, h10, h14, h18, h22, h26, h28, h30, h34, h38, h42, h46, h50, -⟩ := hfields
  exact ⟨honly, h0, h2, h6, h8, h10, h14, h18, h22, h26, h28, h30, h34, h38, h42, h46, h50, houtside⟩

/-- A padded row is at most a third longer than its pixels (41_stride.md R90). -/
theorem strideOf_le (w : Nat) : strideOf w ≤ 4 * w := by
  have hmod : w % 4 ≤ w := Nat.mod_le w 4
  rw [strideOf_eq]
  omega

/-- Settles O34: the storage bound limits the pixel count, and the raw size is at most 4 bytes per pixel. -/
theorem sizeFieldsAreNotCutOff : Obligations.SizeFieldsAreNotCutOff := by
  intro s a hinv hcap hextra raw
  obtain ⟨hlen, hle, -⟩ := hinv.slot a
  have hraw : raw ≤ 4 * ((s.slot a).width.toNat * (s.slot a).height.toNat) :=
    (Nat.mul_le_mul_right _ (strideOf_le _)).trans_eq (Nat.mul_assoc ..)
  omega

/-! ### `HBUILD`, then `HPARSE` (R89) -/

/-- The header `HBUILD` leaves passes the first three checks of `HPARSE` and holds the buffer's descriptors. -/
theorem exec_hbuild_parsedFields {s : State} (h : s.Inv) {a : SlotNum} (ha : slotExists s.params.nbuf a = true) :
    ∃ t, exec (.hbuild a) s = .next t ∧ t.Inv ∧ t.params = s.params ∧ t.err = 0#8 ∧
      leField t 0 2 = 0x4D42 ∧ leField t 14 4 = 40 ∧ leField t 28 2 = 24 ∧
      leField t 18 4 = (s.slot a).width.toNat ∧ leField t 22 4 = (s.slot a).height.toNat ∧
      leField t 38 4 = (s.slot a).hRes.toNat ∧ leField t 42 4 = (s.slot a).vRes.toNat := by
  obtain ⟨t, ht, herr, -, -, htinv, ⟨hparams, -, -⟩, hfields, -⟩ := succeeds_hbuild h ha
  simp only [headerFields, List.forall_mem_cons] at hfields
  obtain ⟨h0, -, -, -, -, h14, h18, h22, -, h28, -, -, h38, h42, -⟩ := hfields
  exact ⟨t, ht, htinv, hparams, herr, h0, h14, h28, h18, h22, h38, h42⟩

/-- Settles O35: `HPARSE` accepts what `HBUILD` wrote (O30), and the source's own invariant bounds the storage. -/
theorem headerRoundTrip : Obligations.HeaderRoundTrip := by
  intro s a b hinv ha hb hwidth hheight
  obtain ⟨t, ht, htinv, hparams, herr, hmagic, hversion, hdepth, h18, h22, h38, h42⟩ := exec_hbuild_parsedFields hinv ha
  obtain ⟨hlen, hcap, -⟩ := hinv.slot a
  obtain ⟨-, -, -, -, -, hparse⟩ := hparseValidatesAndSetsUpSlot t b htinv (by rwa [hparams])
  rw [h18, h22, h38, h42, signedMagnitude_of_le hwidth, signedMagnitude_of_le hheight, ← hlen, hparams] at hparse
  refine ⟨t, ht, herr, (hparse hmagic hversion hdepth hcap).mono fun u => ?_⟩
  rintro ⟨honly, hw, hh, hhRes, hvRes, hpx, hzero⟩
  exact ⟨honly, ⟨BitVec.eq_of_toNat_eq hw, BitVec.eq_of_toNat_eq hh, BitVec.eq_of_toNat_eq hhRes,
    BitVec.eq_of_toNat_eq hvRes, hpx⟩, hzero⟩

end Sys2Proof.Machine
end

section
/-! PROOFS. The stride family (41_stride.md R90 to R93): the laws of the padded row length as lemmas about `strideOf`, the
two commands that answer with it, and the packets the spec writes out. -/

namespace Sys2Proof.Machine

/-! ### The padded row length -/

theorem strideOf_mod_four (w : Nat) : strideOf w % 4 = 0 := by rw [strideOf_eq]; omega

theorem mul_three_le_strideOf (w : Nat) : w * 3 ≤ strideOf w := (Nat.le_add_right _ _).trans_eq (strideOf_eq w).symm

/-- The pad bytes of a row (R92). -/
theorem strideOf_sub_mul_three (w : Nat) : strideOf w - w * 3 = w % 4 := by rw [strideOf_eq, Nat.add_sub_cancel_left]

/-- No multiple of 4 lies between the pixels' bytes and the padded row: the padding is less than 4. -/
theorem strideOf_le_of_mod_four {w n : Nat} (hn : n % 4 = 0) (hle : w * 3 ≤ n) : strideOf w ≤ n := by
  rw [strideOf_eq]; omega

theorem strideOf_eq_roundUp (w : Nat) : strideOf w = (w * 3 + 3) / 4 * 4 := by rw [strideOf_eq]; omega

/-- Rows of up to three pixels take as many pad bytes as they have pixels. -/
theorem strideOf_eq_mul_four {w : Nat} (h : w < 4) : strideOf w = 4 * w := by
  rw [strideOf_eq, Nat.mod_eq_of_lt h]; omega

/-- Settles O38: every law follows from `strideOf w = w * 3 + w % 4`. -/
theorem strideLaws : Obligations.StrideLaws := by
  intro w
  have hpad : strideOf w - w * 3 ≤ 3 := by
    rw [strideOf_sub_mul_three]
    exact Nat.le_of_lt_succ (Nat.mod_lt w (by decide))
  exact ⟨strideOf_mod_four w, mul_three_le_strideOf w, hpad, fun _ => strideOf_le_of_mod_four,
    strideOf_eq_roundUp w, strideOf_sub_mul_three w, strideOf_eq w, fun _ => strideOf_le w,
    fun h => strideOf_eq_mul_four (by omega), strideOf_eq_mul_four (by decide)⟩

/-! ### `STRIDE` and `PADLEN` -/

/-- The largest width, `2^32 - 1`, reaches the bound of R91. -/
theorem strideOf_word_le (width : Word32) : strideOf width.toNat ≤ 12884901888 := by
  have hwidth := width.isLt
  rw [strideOf_eq]
  omega

/-- Settles O36: the bound of R91 lies far below `2^64`, so `RES` holds the padded row length exactly. -/
theorem strideRespondsPaddedRowLength : Obligations.StrideRespondsPaddedRowLength := by
  intro s width
  have hbound := strideOf_word_le width
  have hres : (BitVec.ofNat 64 (strideOf width.toNat)).toNat = strideOf width.toNat :=
    toNat_ofNat_of_lt (by omega)
  refine ⟨encodedAs_opcode (.stride width), _, ?_, hres.trans_le hbound, hres⟩
  rw [exec_stride]
  exact succeeds_onlyResponse s _ _

/-- Settles O37: the pad bytes are the remainder of the width modulo 4, which `RES` holds exactly. -/
theorem padlenRespondsPadBytes : Obligations.PadlenRespondsPadBytes := by
  intro s width
  have hlt : width.toNat % 4 < 4 := Nat.mod_lt _ (by decide)
  have hpad := strideOf_sub_mul_three width.toNat
  have hres : (BitVec.ofNat 64 (strideOf width.toNat - width.toNat * 3)).toNat = width.toNat % 4 := by
    rw [hpad]
    exact toNat_ofNat_of_lt (by omega)
  refine ⟨encodedAs_opcode (.padlen width), _, ?_, by omega, hres.trans hpad.symm, hres⟩
  rw [exec_padlen]
  exact succeeds_onlyResponse s _ _

/-! ### The packets the spec writes out -/

theorem decode_eq_ok_of_encode_eq {i : Instr} {w : Packet} (h : encode i = w) : decode w = .ok i := by
  rw [← h]
  exact decodeOfEncodeIsIdentity i

/-- Settles O3: each packet written out is the packet of its command, and decoding inverts encoding (O1). -/
theorem specPacketsDecodeAsWritten : Obligations.SpecPacketsDecodeAsWritten :=
  ⟨decode_eq_ok_of_encode_eq (by decide), decode_eq_ok_of_encode_eq (by decide),
    decode_eq_ok_of_encode_eq (by decide), decode_eq_ok_of_encode_eq (by decide),
    decode_eq_ok_of_encode_eq (by decide), decode_eq_ok_of_encode_eq (by decide)⟩

end Sys2Proof.Machine
end

section
/-! PROOFS. The pixel-buffer commands (42_pixel_buffer.md R95 to R106): what each one reads or leaves in its slot, then
the laws that put two of them in a row. -/

namespace Sys2Proof.Machine

/-! ### What the pixel-buffer proofs share -/

/-- `read_setChannel` in the words of the statements. -/
theorem PixelBuffer.Inv.read_setChannel_storageIndex {b : PixelBuffer} {cap : Nat} (h : b.Inv cap) (x y : Nat)
    (c : Channel) (v : Byte) (i : Nat) : (b.setChannel x y c v).px.read i =
      if i = storageIndex b x y (channelNumber c) then v else b.px.read i := by
  rw [h.read_setChannel, offset_eq_channelNumber, storageIndex_eq]

/-- `read_mapChannel` in the words of the statements. -/
theorem PixelBuffer.Inv.read_mapChannel_channelNumber {b : PixelBuffer} {cap : Nat} (h : b.Inv cap) (c : Channel)
    (f : Byte → Byte) (i : Nat) : (b.mapChannel c f).px.read i =
      if i < b.px.len ∧ i % 3 = channelNumber c then f (b.px.read i) else b.px.read i := by
  rw [h.read_mapChannel, offset_eq_channelNumber]

section
variable {t : State} {a : SlotNum} {b : PixelBuffer} {x y : Word32}

/-- `GET` of a slot with known contents (R98). -/
theorem succeeds_get (ha : slotExists t.params.nbuf a = true) (hb : t.slot a = b) (hr : InRange b x.toNat y.toNat)
    (ch : Channel) :
    Succeeds (exec (.get a x y ch) t) ((b.channelAt x.toNat y.toNat ch).setWidth 64) true (OnlyResponse t) := by
  subst hb
  rw [exec_get_inRange ha hr]
  exact succeeds_onlyResponse t _ _

/-- `GETPX` of a slot with known contents (R99). -/
theorem succeeds_getpx (ha : slotExists t.params.nbuf a = true) (hb : t.slot a = b) (hr : InRange b x.toNat y.toNat) :
    Succeeds (exec (.getpx a x y) t) ((b.pixelAt x.toNat y.toNat).pack.setWidth 64) true (OnlyResponse t) := by
  subst hb
  rw [exec_getpx_inRange ha hr]
  exact succeeds_onlyResponse t _ _

/-- R106 (3): out of range the four coordinate commands answer 0 with `FLAG` = 0. -/
theorem succeeds_outOfRange (ha : slotExists t.params.nbuf a = true) (hr : ¬ InRange (t.slot a) x.toNat y.toNat)
    (ch : Channel) (v : Byte) (p : RgbPixel) :
    Succeeds (exec (.get a x y ch) t) 0#64 false (OnlyResponse t) ∧
    Succeeds (exec (.getpx a x y) t) 0#64 false (OnlyResponse t) ∧
    Succeeds (exec (.set a x y ch v) t) 0#64 false (OnlyResponse t) ∧
    Succeeds (exec (.setpx a x y p) t) 0#64 false (OnlyResponse t) := by
  rw [exec_get_outOfRange ha hr, exec_getpx_outOfRange ha hr, exec_set_outOfRange ha hr, exec_setpx_outOfRange ha hr]
  have hrespond := succeeds_onlyResponse t 0#64 false
  exact ⟨hrespond, hrespond, hrespond, hrespond⟩

end

/-! ### `INIT`, `CLEAR` and `RDDESC` (R95, R96, R105) -/

theorem exec_init_ok {s : State} {a : SlotNum} (ha : slotExists s.params.nbuf a = true) {w h : Word32}
    (hcap : w.toNat * h.toNat * 3 ≤ s.params.cap) : exec (.init a w h 24#16) s =
      .next ((s.setSlot a (PixelBuffer.zeroed w h s.params.defaultPpm s.params.defaultPpm)).respond 0#64 noFlag) := by
  rw [exec_init ha, if_neg (not_not.2 rfl), if_neg (Nat.not_lt.2 hcap)]

/-- Settles O39: each clause names the first check that fails; past both the slot is a zeroed buffer. -/
theorem initCreatesZeroedBuffer : Obligations.InitCreatesZeroedBuffer := by
  intro s a width height bpp hinv ha
  refine ⟨encodedAs_opcode (.init a width height bpp), fun hdepth => ?_, ?_, ?_⟩
  · rw [exec_init ha, if_pos hdepth]
    exact raises_raise s .unsupportedPixelDepth
  · rintro rfl hcap
    rw [exec_init ha, if_neg (not_not.2 rfl), if_pos hcap]
    exact raises_raise s .capacityExceeded
  · rintro rfl hcap
    rw [exec_init_ok ha hcap]
    refine (succeeds_setSlot hinv ha _ _ _).mono fun t ⟨honly, hslot⟩ => ?_
    rw [hslot]
    exact ⟨honly, rfl, rfl, rfl, rfl, rfl, fun _ => rfl⟩

/-- Settles O40: the slot holds the empty buffer. -/
theorem clearEmptiesSlot : Obligations.ClearEmptiesSlot := by
  intro s a hinv ha
  rw [exec_clear ha]
  refine ⟨encodedAs_opcode (.clear a), (succeeds_setSlot hinv ha _ _ _).mono fun t ⟨honly, hslot⟩ => ?_⟩
  rw [hslot]
  exact ⟨honly, rfl, rfl, rfl, rfl, rfl, fun _ => rfl⟩

theorem succeeds_rddesc {s : State} {a : SlotNum} (ha : slotExists s.params.nbuf a = true) (sel : Selector) :
    Succeeds (exec (.rddesc a sel) s) (descriptor (s.slot a) sel) false (OnlyResponse s) := by
  rw [exec_rddesc ha]
  exact succeeds_onlyResponse s _ _

theorem lengthResult_toNat {n : Nat} (h : n < 2 ^ 64) : (lengthResult n).toNat = n := by
  rw [lengthResult, if_pos h]
  exact toNat_ofNat_of_lt h

/-- Settles O48: the five descriptors of fixed width by definition, the length where it fits `RES`. -/
theorem rddescReadsDescriptor : Obligations.RddescReadsDescriptor := by
  intro s a hinv ha
  obtain ⟨hlen, -, -⟩ := hinv.slot a
  have hread := succeeds_rddesc ha
  exact ⟨encodedAs_opcode (.rddesc a .width), hread .width, hread .height, hread .bitsPerPixel, hread .hRes,
    hread .vRes, fun hfits =>
      ⟨_, lengthResult_toNat hfits, (lengthResult_toNat hfits).trans hlen, hread .length⟩⟩

/-! ### `GET` and `GETPX` (R98, R99) -/

/-- Settles O41: the byte stands at the index of R27. -/
theorem getReadsChannelOrZero : Obligations.GetReadsChannelOrZero := by
  intro s a x y ch ha
  refine ⟨encodedAs_opcode (.get a x y ch), fun hr => ?_, fun hr => ?_⟩
  · rw [← channelAt_eq]
    exact succeeds_get ha rfl hr ch
  · rw [exec_get_outOfRange ha hr]
    exact succeeds_onlyResponse s _ _

/-- Settles O42: the number of a packed pixel (`pack_toNat`) fits `RES`. -/
theorem getpxReadsPixelOrZero : Obligations.GetpxReadsPixelOrZero := by
  intro s a x y ha
  refine ⟨encodedAs_opcode (.getpx a x y), fun hr => ⟨_, ?_, succeeds_getpx ha rfl hr⟩, fun hr => ?_⟩
  · rw [BitVec.toNat_setWidth_of_le (by decide), pack_toNat, pixelAt_eq_storedPixel]
  · rw [exec_getpx_outOfRange ha hr]
    exact succeeds_onlyResponse s _ _

/-! ### `SET` and `SETPX` (R100, R101) -/

/-- Settles O43: one write to canonical storage changes one byte. -/
theorem setWritesOneChannel : Obligations.SetWritesOneChannel := by
  intro s a x y ch val hinv ha
  refine ⟨encodedAs_opcode (.set a x y ch val), fun hr => ?_, fun hr => ?_⟩
  · rw [exec_set_inRange ha hr]
    refine (succeeds_setSlot hinv ha _ _ _).mono fun t ⟨honly, hslot⟩ => ?_
    rw [hslot]
    exact ⟨honly, PixelBuffer.setChannel_shape .., (hinv.slot a).read_setChannel_storageIndex _ _ ch val⟩
  · rw [exec_set_outOfRange ha hr]
    exact succeeds_onlyResponse s _ _

/-- A pixel just written reads back. -/
theorem PixelBuffer.Inv.pixelAt_setPixel_same {b : PixelBuffer} {cap : Nat} (h : b.Inv cap) {x y : Nat}
    (hr : InRange b x y) (p : RgbPixel) : (b.setPixel x y p).pixelAt x y = p := by
  rw [h.pixelAt_setPixel (inRange_iff.2 hr) (inRange_iff.2 hr), if_pos ⟨rfl, rfl⟩]

/-- Settles O44: the three channel writes fall on the pixel's three bytes and on no other. -/
theorem setpxWritesOnePixel : Obligations.SetpxWritesOnePixel := by
  intro s a x y p hinv ha
  refine ⟨encodedAs_opcode (.setpx a x y p), fun hr => ?_, fun hr => ?_⟩
  · rw [exec_setpx_inRange ha hr]
    refine (succeeds_setSlot hinv ha _ _ _).mono fun t ⟨honly, hslot⟩ => ?_
    rw [hslot]
    refine ⟨honly, PixelBuffer.setPixel_shape .., (hinv.slot a).pixelAt_setPixel_same hr p,
      fun i hblue hgreen hred => ?_⟩
    rw [storageIndex_eq] at hblue hgreen hred
    rw [(hinv.slot a).read_setPixel (inRange_iff.2 hr), if_neg hblue, if_neg hgreen, if_neg hred]
  · rw [exec_setpx_outOfRange ha hr]
    exact succeeds_onlyResponse s _ _

/-! ### `FILL` and `INVERT` (R102, R103) -/

/-- Settles O45: the channel is replaced by a constant. -/
theorem fillSetsOneChannelEverywhere : Obligations.FillSetsOneChannelEverywhere := by
  intro s a ch val hinv ha
  rw [exec_fill ha]
  refine ⟨encodedAs_opcode (.fill a ch val), (succeeds_setSlot hinv ha _ _ _).mono fun t ⟨honly, hslot⟩ => ?_⟩
  rw [hslot]
  exact ⟨honly, PixelBuffer.mapChannel_shape .., (hinv.slot a).read_mapChannel_channelNumber ch _⟩

/-- The complement of a byte as a number (R103). -/
theorem toNat_xor_ff (v : Byte) : (v ^^^ 0xFF#8).toNat = 255 - v.toNat := by
  change (v ^^^ BitVec.allOnes 8).toNat = 255 - v.toNat
  rw [BitVec.xor_allOnes, BitVec.toNat_not]

/-- Settles O46: the channel is complemented. -/
theorem invertComplementsOneChannel : Obligations.InvertComplementsOneChannel := by
  intro s a ch hinv ha
  rw [exec_invert ha]
  refine ⟨encodedAs_opcode (.invert a ch), (succeeds_setSlot hinv ha _ _ _).mono fun t ⟨honly, hslot⟩ => ?_⟩
  rw [hslot]
  refine ⟨honly, PixelBuffer.mapChannel_shape .., fun i => ?_⟩
  rw [(hinv.slot a).read_mapChannel_channelNumber, apply_ite BitVec.toNat, toNat_xor_ff]

/-! ### `CLONE` (R104) -/

/-- Under either policy a clone keeps the size and the storage. -/
theorem cloneOf_size (p : Config.Params) (b : PixelBuffer) :
    (cloneOf p b).width = b.width ∧ (cloneOf p b).height = b.height ∧ (cloneOf p b).px = b.px := by
  unfold cloneOf
  split <;> exact ⟨rfl, rfl, rfl⟩

theorem cloneOf_of_copy {p : Config.Params} (h : p.cloneResPolicy = .copy) (b : PixelBuffer) : cloneOf p b = b := by
  rw [cloneOf, h]

theorem cloneOf_of_default {p : Config.Params} (h : p.cloneResPolicy = .default) (b : PixelBuffer) :
    cloneOf p b = { b with hRes := p.defaultPpm, vRes := p.defaultPpm } := by
  rw [cloneOf, h]

/-- Settles O47: the slot holds the source's clone, whose resolution the policy decides. -/
theorem cloneCopiesBuffer : Obligations.CloneCopiesBuffer := by
  intro s b a hinv ha hb
  refine ⟨encodedAs_opcode (.clone b a), ?_, fun hab => ?_⟩
  · rintro rfl
    exact raises_of_aliased (by simp [Instr.slotsExist, Instr.slotFields, ha])
      (by simp [Instr.slotsDiffer, Instr.slotFields])
  · rw [exec_clone ha hb hab]
    refine (succeeds_setSlot hinv ha _ _ _).mono fun t ⟨honly, hslot⟩ => ?_
    obtain ⟨hwidth, hheight, hpx⟩ := cloneOf_size s.params (s.slot b)
    rw [hslot, hpx]
    refine ⟨honly, hwidth, hheight, rfl, fun _ => rfl, fun hcopy => ?_, fun hdefault => ?_⟩
    · rw [cloneOf_of_copy hcopy]
      exact ⟨rfl, rfl⟩
    · rw [cloneOf_of_default hdefault]
      exact ⟨rfl, rfl⟩

/-! ### Two commands in a row (R106) -/

/-- Mapping a channel twice by an involution changes nothing. -/
theorem PixelBuffer.Inv.mapChannel_involutive {b : PixelBuffer} {cap : Nat} (h : b.Inv cap) (c : Channel)
    {f : Byte → Byte} (hf : Function.Involutive f) : (b.mapChannel c f).mapChannel c f = b := by
  have hmap := h.mapChannel c f
  have hlen : (b.mapChannel c f).px.len = b.px.len := rfl
  refine h.ext (hmap.mapChannel c f) (PixelBuffer.mapChannel_shape b c f) fun i => ?_
  rw [hmap.read_mapChannel, h.read_mapChannel, hlen]
  split_ifs
  · exact hf _
  · rfl

theorem involutive_xor_ff : Function.Involutive fun v : Byte => v ^^^ 0xFF#8 := fun v => by
  simp only [BitVec.xor_assoc, BitVec.xor_self, BitVec.xor_zero]

/-- Writing a slot's own contents back changes nothing. -/
theorem State.slots_set_slot {s : State} {a : SlotNum} (h : a.toNat < s.slots.length) :
    s.slots.set a.toNat (s.slot a) = s.slots := by
  rw [State.slot, List.getD_eq_getElem _ _ h, List.set_getElem_self]

/-- R106 (2). -/
theorem exec_invert_twice {s : State} (h : s.Inv) {a : SlotNum} (ha : slotExists s.params.nbuf a = true)
    (ch : Channel) : ∃ t u, exec (.invert a ch) s = .next t ∧ exec (.invert a ch) t = .next u ∧
      u.slots = s.slots ∧ u.hb = s.hb := by
  refine ⟨_, _, exec_invert ha ch, exec_invert (by exact ha) ch, ?_, rfl⟩
  rw [State.slot_respond, State.slot_setSlot_same s _ (h.slot_lt ha),
    (h.slot a).mapChannel_involutive ch involutive_xor_ff]
  simp only [State.respond_slots, State.setSlot_slots, List.set_set, State.slots_set_slot (h.slot_lt ha)]

section
variable {s : State} {a : SlotNum} {x y : Word32}

/-- `GET` after a command that put `b` into the slot. -/
theorem succeeds_get_setSlot (h : s.Inv) (ha : slotExists s.params.nbuf a = true) {b : PixelBuffer} {r : BitVec 64}
    {f : Bool} {i : Instr} (hexec : exec i s = .next ((s.setSlot a b).respond r f)) (hr : InRange b x.toNat y.toNat)
    (ch : Channel) {v : Byte} (hv : b.channelAt x.toNat y.toNat ch = v) :
    ∃ t, exec i s = .next t ∧ Succeeds (exec (.get a x y ch) t) (v.setWidth 64) true (OnlyResponse t) := by
  subst hv
  exact ⟨_, hexec, succeeds_get (by exact ha) (State.slot_setSlot_same s b (h.slot_lt ha)) hr ch⟩

/-- R106 (4) for one channel. -/
theorem succeeds_get_after_set (h : s.Inv) (ha : slotExists s.params.nbuf a = true)
    (hr : InRange (s.slot a) x.toNat y.toNat) (ch : Channel) (v : Byte) :
    ∃ t, exec (.set a x y ch v) s = .next t ∧
      Succeeds (exec (.get a x y ch) t) (v.setWidth 64) true (OnlyResponse t) := by
  refine succeeds_get_setSlot h ha (exec_set_inRange ha hr ch v) hr ch ?_
  rw [(h.slot a).channelAt_setChannel (inRange_iff.2 hr) (inRange_iff.2 hr), if_pos ⟨rfl, rfl, rfl⟩]

/-- R106 (4) for a pixel. -/
theorem succeeds_getpx_after_setpx (h : s.Inv) (ha : slotExists s.params.nbuf a = true)
    (hr : InRange (s.slot a) x.toNat y.toNat) (p : RgbPixel) :
    ∃ t, exec (.setpx a x y p) s = .next t ∧
      Succeeds (exec (.getpx a x y) t) (p.pack.setWidth 64) true (OnlyResponse t) := by
  have hget := succeeds_getpx (t := (s.setSlot a ((s.slot a).setPixel x.toNat y.toNat p)).respond 0#64 true)
    (by exact ha) (State.slot_setSlot_same s _ (h.slot_lt ha)) hr
  rw [(h.slot a).pixelAt_setPixel_same hr] at hget
  exact ⟨_, exec_setpx_inRange ha hr p, hget⟩

/-- R106 (5). -/
theorem succeeds_get_after_fill (h : s.Inv) (ha : slotExists s.params.nbuf a = true)
    (hr : InRange (s.slot a) x.toNat y.toNat) (ch : Channel) (v : Byte) :
    ∃ t, exec (.fill a ch v) s = .next t ∧
      Succeeds (exec (.get a x y ch) t) (v.setWidth 64) true (OnlyResponse t) := by
  refine succeeds_get_setSlot h ha (exec_fill ha ch v) hr ch ?_
  rw [(h.slot a).channelAt_mapChannel (inRange_iff.2 hr), if_pos rfl]

/-- R106 (6). -/
theorem succeeds_get_after_init (h : s.Inv) (ha : slotExists s.params.nbuf a = true) (ch : Channel)
    {width height : Word32} (hcap : width.toNat * height.toNat * 3 ≤ s.params.cap) (hx : x.toNat < width.toNat)
    (hy : y.toNat < height.toNat) : ∃ t, exec (.init a width height 24#16) s = .next t ∧
      Succeeds (exec (.get a x y ch) t) 0#64 true (OnlyResponse t) :=
  succeeds_get_setSlot h ha (exec_init_ok ha hcap) ⟨hx, hy⟩ ch (PixelBuffer.channelAt_zeroed ..)

end

/-- Settles O49: the six laws one by one; the first holds for every command (`CommandEffect.inv`). -/
theorem pixelBufferLaws : Obligations.PixelBufferLaws := by
  intro s a x y ch hinv ha
  refine ⟨fun i t hexec => (exec_cases hexec).inv hinv, exec_invert_twice hinv ha ch,
    fun hr v p => succeeds_outOfRange ha hr ch v p, fun hr v p => ?_, fun w h hcap hx hy => ?_⟩
  · exact ⟨succeeds_get_after_set hinv ha hr ch v, succeeds_getpx_after_setpx hinv ha hr p,
      succeeds_get_after_fill hinv ha hr ch v⟩
  · exact succeeds_get_after_init hinv ha ch hcap hx hy

end Sys2Proof.Machine
end

section
/-! PROOFS. The compositor (43_compositor.md R110 to R117): the saturating sum as a number, one theorem for the three
composites, and a walk that depends on its action at the source's pixels alone. -/

namespace Sys2Proof.Machine

/-! ### The saturating sum (R110) -/

/-- The sum is cut off at 255, so it always fits a byte. -/
theorem sat8_toNat (a b : Byte) : (sat8 a b).toNat = min (a.toNat + b.toNat) 255 :=
  toNat_ofNat_of_lt (Nat.lt_succ_of_le (Nat.min_le_right _ 255))

theorem sat8_comm (a b : Byte) : sat8 a b = sat8 b a := by
  rw [sat8, sat8, Nat.add_comm]

theorem sat8_zero (a : Byte) : sat8 a 0#8 = a := by
  have ha := a.isLt
  apply BitVec.eq_of_toNat_eq
  rw [sat8_toNat, BitVec.toNat_ofNat]
  omega

theorem sat8_eq_max_iff (a b : Byte) : sat8 a b = 255#8 ↔ 255 ≤ a.toNat + b.toNat := by
  rw [← BitVec.toNat_inj, sat8_toNat, BitVec.toNat_ofNat]
  omega

theorem sat8_mono {a a' : Byte} (h : a.toNat ≤ a'.toNat) (b : Byte) : (sat8 a b).toNat ≤ (sat8 a' b).toNat := by
  rw [sat8_toNat, sat8_toNat]
  exact min_le_min_right 255 (Nat.add_le_add_right h _)

/-- Cutting off early or late makes no difference. -/
theorem sat8_sat8_toNat (a b c : Byte) : (sat8 (sat8 a b) c).toNat = min (a.toNat + b.toNat + c.toNat) 255 := by
  rw [sat8_toNat, sat8_toNat]
  omega

theorem sat8_assoc (a b c : Byte) : sat8 (sat8 a b) c = sat8 a (sat8 b c) := by
  apply BitVec.eq_of_toNat_eq
  rw [sat8_comm a (sat8 b c), sat8_sat8_toNat, sat8_sat8_toNat, add_rotate]

/-- Settles O50: the laws of `sat8` follow from the number it stands for; 1 and 2 have the same sum with 255. -/
theorem saturatingSumLaws : Obligations.SaturatingSumLaws :=
  ⟨fun a b => ⟨sat8_toNat a b, sat8_comm a b, sat8_zero a, sat8_eq_max_iff a b⟩, fun _ _ b h => sat8_mono h b,
    fun a b c => ⟨sat8_assoc a b c, sat8_sat8_toNat a b c⟩, ⟨1#8, 2#8, 255#8, by decide⟩, fun _ _ => rfl⟩

/-- Settles O51: the number of the packed sum, lane by lane. -/
theorem addpxRespondsPackedSum : Obligations.AddpxRespondsPackedSum := by
  intro s p q
  refine ⟨encodedAs_opcode (.addpx p q), (addPixel p q).pack.setWidth 64, ?_, ?_⟩
  · rw [exec_addpx]
    exact succeeds_onlyResponse s _ _
  · rw [BitVec.toNat_setWidth_of_le (by decide), pack_toNat]
    simp only [addPixel, sat8_toNat]

/-! ### What a composite leaves (R112) -/

/-- A walk is a composite in the words of the statements, for every action that amounts to `f`. -/
theorem composited_compositeWalk {act : PixelAction} {f : RgbPixel → RgbPixel → RgbPixel}
    (hf : ∀ src old, act.result src old = f src old) (source : PixelBuffer) {dest : PixelBuffer} {cap : Nat}
    (h : dest.Inv cap) (x y : Nat) : Composited f source dest (compositeWalk act source dest x y).dest x y := by
  have hshape := compositeWalk_shape act source h x y
  refine ⟨hshape, fun dx dy hr hc => ?_, fun dx dy hr hc => ?_, fun i hi => ?_⟩
  · obtain ⟨hx, hx', hy, hy'⟩ := hc
    obtain ⟨sx, rfl⟩ := Nat.exists_eq_add_of_le hx
    obtain ⟨sy, rfl⟩ := Nat.exists_eq_add_of_le hy
    rw [Nat.add_sub_cancel_left, Nat.add_sub_cancel_left, ← hf]
    exact compositeWalk_reached act source h x y (Nat.lt_of_add_lt_add_left hx') (Nat.lt_of_add_lt_add_left hy')
      (inRange_iff.2 hr)
  · exact compositeWalk_missed act source h x y (inRange_iff.2 hr) hc
  · obtain ⟨-, -, -, -, hlen⟩ := hshape
    obtain ⟨-, -, hwf'⟩ := compositeWalk_inv act source h x y
    obtain ⟨-, -, hwf⟩ := h
    rw [ByteSeq.read_of_le hwf hi, ByteSeq.read_of_le hwf' (by rwa [hlen])]

section
variable {s : State} {b a : SlotNum} {x y : Word32}

/-- What the three composites have in common: the check for equal slots (R116), then the walk (R112). -/
theorem composite_spec (h : s.Inv) (ha : slotExists s.params.nbuf a = true) (hb : slotExists s.params.nbuf b = true)
    {act : PixelAction} {f : RgbPixel → RgbPixel → RgbPixel} (hf : ∀ src old, act.result src old = f src old) :
    (a = b → Raises (composite act b a x y s) s 10#8) ∧
    (a ≠ b → Succeeds (composite act b a x y s) 0#64 (geometricClip (s.slot b) (s.slot a) x.toNat y.toNat) fun t =>
      OnlySlot a s t ∧ Composited f (s.slot b) (s.slot a) (t.slot a) x.toNat y.toNat) := by
  refine ⟨?_, fun hab => ?_⟩
  · rintro rfl
    rw [composite_of_aliased act ha]
    exact raises_raise s .aliasedOperands
  · rw [composite_of_exists act ha hb hab, compositeWalk_clipped act _ (h.slot a)]
    refine (succeeds_setSlot h ha _ _ _).mono fun t ⟨honly, hslot⟩ => ⟨honly, ?_⟩
    rw [hslot]
    exact composited_compositeWalk hf _ (h.slot a) _ _

theorem exec_overlay : exec (.overlay b a x y) s = composite overlayAction b a x y s := rfl

theorem exec_mask (key : RgbPixel) : exec (.mask b a x y key) s = composite (maskAction key) b a x y s := rfl

theorem exec_add : exec (.add b a x y) s = composite addAction b a x y s := rfl

end

/-- The skip test of R114, channel by channel. -/
theorem maskAction_result_channels (key src old : RgbPixel) : PixelAction.result (maskAction key) src old =
    if src.r = key.r ∧ src.g = key.g ∧ src.b = key.b then old else src := by
  simp only [maskAction_result, RgbPixel.ext_iff]

/-- Settles O52: the action copies. -/
theorem overlayCopiesSourcePixels : Obligations.OverlayCopiesSourcePixels := by
  intro s b a x y hinv ha hb
  rw [exec_overlay]
  exact ⟨encodedAs_opcode (.overlay b a x y), composite_spec hinv ha hb overlayAction_result⟩

/-- Settles O53: the action copies unless the three channels are the key's. -/
theorem maskSkipsKeyColour : Obligations.MaskSkipsKeyColour := by
  intro s b a x y key hinv ha hb
  rw [exec_mask]
  exact ⟨encodedAs_opcode (.mask b a x y key), composite_spec hinv ha hb (maskAction_result_channels key)⟩

/-- Settles O54: the action is `addPixel` of the old pixel and the source pixel. -/
theorem addSaturatesChannels : Obligations.AddSaturatesChannels := by
  intro s b a x y hinv ha hb
  rw [exec_add]
  exact ⟨encodedAs_opcode (.add b a x y), composite_spec hinv ha hb addAction_result⟩

/-! ### `MASK` against `OVERLAY` (R117) -/

theorem visitPixel_congr {act act' : PixelAction} {source : PixelBuffer} {sx sy : Nat}
    (h : act (source.pixelAt sx sy) = act' (source.pixelAt sx sy)) (x y : Nat) (w : Walk) :
    visitPixel act source x y sx sy w = visitPixel act' source x y sx sy w := by
  rw [visitPixel, visitPixel, h]

theorem visitPixels_congr {act act' : PixelAction} {source : PixelBuffer}
    (h : ∀ sx sy, InRange source sx sy → act (source.pixelAt sx sy) = act' (source.pixelAt sx sy))
    (dest : PixelBuffer) (x y : Nat) {k : Nat} (hk : k ≤ source.width.toNat * source.height.toNat) :
    visitPixels act source dest x y k = visitPixels act' source dest x y k := by
  induction k with
  | zero => rfl
  | succ k ih => rw [visitPixels, visitPixels, ih (Nat.le_of_succ_le hk), visitPixel_congr (h _ _ (coordinate_lt hk))]

/-- A walk asks its action about the source's own pixels only. -/
theorem compositeWalk_congr {act act' : PixelAction} {source : PixelBuffer}
    (h : ∀ sx sy, InRange source sx sy → act (source.pixelAt sx sy) = act' (source.pixelAt sx sy))
    (dest : PixelBuffer) (x y : Nat) : compositeWalk act source dest x y = compositeWalk act' source dest x y :=
  visitPixels_congr h dest x y le_rfl

theorem maskAction_of_ne {key src : RgbPixel} (h : src ≠ key) : maskAction key src = overlayAction src := by
  funext old
  exact if_neg h

/-- R117 (2). -/
theorem compositeWalk_mask_of_absent {source : PixelBuffer} {key : RgbPixel}
    (h : ∀ sx sy, InRange source sx sy → storedPixel source sx sy ≠ key) (dest : PixelBuffer) (x y : Nat) :
    compositeWalk (maskAction key) source dest x y = compositeWalk overlayAction source dest x y :=
  compositeWalk_congr (fun sx sy hr => maskAction_of_ne (h sx sy hr)) dest x y

/-- Settles O55: without the key colour the two walks are the same, and `FLAG` is the geometric clip condition for every
action (O52, O53, O54). -/
theorem maskWithAbsentKeyIsOverlay : Obligations.MaskWithAbsentKeyIsOverlay := by
  intro s b a x y key hinv ha hb hab
  refine ⟨fun habsent => ?_, ?_⟩
  · rw [exec_mask, exec_overlay, composite_of_exists _ ha hb hab, composite_of_exists _ ha hb hab,
      compositeWalk_mask_of_absent habsent]
  · obtain ⟨-, -, hoverlay⟩ := overlayCopiesSourcePixels s b a x y hinv ha hb
    obtain ⟨-, -, hmask⟩ := maskSkipsKeyColour s b a x y key hinv ha hb
    obtain ⟨-, -, hadd⟩ := addSaturatesChannels s b a x y hinv ha hb
    obtain ⟨t, ht, -, htflag, -⟩ := hoverlay hab
    obtain ⟨u, hu, -, huflag, -⟩ := hmask hab
    obtain ⟨v, hv, -, hvflag, -⟩ := hadd hab
    exact ⟨t, u, v, ht, hu, hv, huflag.trans htflag.symm, hvflag.trans htflag.symm⟩

end Sys2Proof.Machine
end

section
/-! PROOFS. The file image and the two host sequences (45_file_image.md R120 to R124): what `ENCODE_IMAGE` writes is a file
image, `DECODE_IMAGE` of any file image ends with its buffer, and the round trip is the two in a row. -/

namespace Sys2Proof.Machine

/-! ### The file image of a buffer (R120) -/

/-- A pixel's bytes in file order are its storage bytes (20_memory.md R42). -/
theorem getElem?_pixelBytes_pixelAt (b : PixelBuffer) (x y : Nat) {c : Nat} (hc : c < 3) :
    (pixelBytes (b.pixelAt x y))[c]? = some (b.px.read (pixelIndex b.width.toNat x y c)) := by
  interval_cases c <;> rfl

/-- A row's storage bytes stand together, from its first pixel on (10_state.md R27). -/
theorem pixelIndex_row_add (w y k : Nat) : pixelIndex w 0 y 0 + k = pixelIndex w (k / 3) y (k % 3) := by
  unfold pixelIndex
  omega

/-- Before its pad a file row is the row's storage. -/
theorem getElem?_rowBytes (b : PixelBuffer) (y : Nat) {k : Nat} (hk : k < b.width.toNat * 3) :
    (rowBytes b y)[k]? = some (b.px.read (pixelIndex b.width.toNat 0 y 0 + k)) := by
  have hbyte := getElem?_rowBytes_pixel b y (x := k / 3) (c := k % 3) (by omega) (by omega)
  rwa [Nat.div_add_mod', getElem?_pixelBytes_pixelAt b _ y (by omega), ← pixelIndex_row_add] at hbyte

/-- The image is one for every header block that declares the offset 54. -/
theorem isFileImage_imageBytes {t : State} {b : PixelBuffer} (h : IsHeaderBlock t.hb b 54) :
    IsFileImage (imageBytes t b) t.hb b 54 where
  block := h
  header _ hi := getElem?_imageBytes_header t b hi
  pixels row hrow k hk := by
    have hstride := strideOf_eq b.width.toNat
    rw [getElem?_imageBytes t b hrow (by omega), getElem?_rowBytes b _ hk]
  padding row hrow j hj := by
    rw [Nat.add_assoc, getElem?_imageBytes t b hrow (by omega), getElem?_rowBytes_pad b _ hj]

/-! ### `ENCODE_IMAGE` (R121) -/

/-- The header that `HBUILD` leaves declares the buffer, with pixel data right behind the header (40_header_codec.md R87). -/
theorem isHeaderBlock_of_headerFields {t : State} {p : Config.Params} {b : PixelBuffer}
    (h : ∀ f ∈ headerFields p b, leField t f.1 f.2.1 = f.2.2) : IsHeaderBlock t.hb b 54 := by
  simp only [headerFields, List.forall_mem_cons, ← hbField_eq_leField] at h
  obtain ⟨h0, -, -, -, h10, h14, h18, h22, -, h28, -, -, h38, h42, -⟩ := h
  exact ⟨h0, h10, h14, .inl h18, .inl h22, h28, h38, h42⟩

theorem OnlyResponse.inv {s t : State} (h : OnlyResponse s t) (hs : s.Inv) : t.Inv := by
  obtain ⟨hparams, hhb, hslots, -⟩ := h
  obtain ⟨hvalid, hwf, hbelow, hlen, hbuf⟩ := hs
  exact ⟨hparams ▸ hvalid, hhb ▸ hwf, hhb ▸ hbelow, by rw [hslots, hparams]; exact hlen, hslots ▸ hparams ▸ hbuf⟩

theorem OnlyHeader.trans_onlyResponse {s t u : State} (h : OnlyHeader s t) (h' : OnlyResponse t u) : OnlyHeader s u := by
  obtain ⟨hparams, hslots, hpending⟩ := h
  obtain ⟨hparams', -, hslots', hpending'⟩ := h'
  exact ⟨hparams'.trans hparams, hslots'.trans hslots, hpending'.trans hpending⟩

theorem OnlyHeader.slot {s t : State} (h : OnlyHeader s t) (a : SlotNum) : t.slot a = s.slot a := by
  obtain ⟨-, hslots, -⟩ := h
  rw [State.slot, hslots, State.slot]

theorem exec_hbuild_of_missing {s : State} {a : SlotNum} (ha : slotExists s.params.nbuf a = false) :
    exec (.hbuild a) s = .next (s.raise .illegalCommand) := by rw [exec, execHbuild, withSlot_of_missing ha]

/-- Settles O56: `HBUILD` leaves the header block, every later command is quiet (`encodeImage_spec`), and the bytes written
are the image of that header and the slot; for a missing slot `HBUILD` ends the sequence. -/
theorem encodeImageWritesFileImage : Obligations.EncodeImageWritesFileImage := by
  refine ⟨fun s a hinv ha => ?_, fun s a ha => ?_⟩
  · obtain ⟨t, ht, ⟨⟨honly, -⟩, hok⟩, hfile, herrs⟩ := encodeImage_spec decodeOfEncodeIsIdentity ha
    obtain ⟨t', ht', -, -, -, -, hheader, hfields, -⟩ := succeeds_hbuild hinv ha
    cases ht.symm.trans ht'
    have ⟨_, hhb, _, _⟩ := honly
    have himage := isFileImage_imageBytes (isHeaderBlock_of_headerFields hfields)
    refine ⟨hok, by rwa [hfile, hhb], ?_, hheader.trans_onlyResponse honly, ?_, ?_, t, ht, hhb⟩
    · rw [hfile, length_imageBytes]
    · rw [herrs, List.length_replicate, Nat.mul_comm]
    · rw [herrs]
      exact fun c hc => List.eq_of_mem_replicate hc
  · rw [encodeImage_of_missing decodeOfEncodeIsIdentity ha]
    exact ⟨exec_hbuild_of_missing ha, onlyResponse_raise s _, rfl, rfl, rfl⟩

/-! ### `DECODE_IMAGE`, one equation per way it can go (R122) -/

/-- The block once the 54 header bytes of a file are loaded (R122 step 1). -/
def loadHeader (f : FileSource) (s : State) : State := (List.range headerLength).foldl (loadHeaderByte f) s

theorem loadHeader_inv {s : State} (h : s.Inv) (f : FileSource) : (loadHeader f s).Inv := by
  obtain ⟨hinv, -⟩ := loadHeader_spec decodeOfEncodeIsIdentity f h headerLength le_rfl
  exact hinv

theorem loadHeader_onlyHeader {s : State} (h : s.Inv) (f : FileSource) : OnlyHeader s (loadHeader f s) := by
  obtain ⟨-, honly, -⟩ := loadHeader_spec decodeOfEncodeIsIdentity f h headerLength le_rfl
  exact honly

theorem loadHeader_hbByte {s : State} (h : s.Inv) (f : FileSource) {i : Nat} (hi : i < headerLength) :
    (loadHeader f s).hbByte i = f.byte i := by
  obtain ⟨-, -, hbyte⟩ := loadHeader_spec decodeOfEncodeIsIdentity f h headerLength le_rfl
  exact (hbyte i).trans (if_pos hi)

@[simp] theorem State.respond_respond (s : State) (r r' : BitVec 64) (f f' : Bool) :
    (s.respond r f).respond r' f' = s.respond r' f' := rfl

theorem issue_rddesc {s : State} {a : SlotNum} (ha : slotExists s.params.nbuf a = true) (sel : Selector) :
    issue (.rddesc a sel) s = s.respond (descriptor (s.slot a) sel) noFlag :=
  issue_of_exec decodeOfEncodeIsIdentity (exec_rddesc ha sel)

theorem issue_stride (s : State) (width : Word32) :
    issue (.stride width) s = s.respond (BitVec.ofNat 64 (strideOf width.toNat)) noFlag :=
  issue_of_exec decodeOfEncodeIsIdentity (exec_stride width)

theorem descriptor_width_toNat (b : PixelBuffer) : (descriptor b .width).toNat = b.width.toNat :=
  BitVec.toNat_setWidth_of_le (by decide)

theorem descriptor_height_toNat (b : PixelBuffer) : (descriptor b .height).toNat = b.height.toNat :=
  BitVec.toNat_setWidth_of_le (by decide)

section
variable {f : FileSource} {s u : State} {a : SlotNum}

theorem decodeImage_of_readError {e : ErrorKind} (h : f.readError 0 headerLength = some e) :
    decodeImage a f s = (s, .error e.code) := by
  rw [decodeImage, h]

/-- The file has a header, and `HPARSE` refuses it. -/
theorem decodeImage_of_rejected (h : f.readError 0 headerLength = none)
    (hparse : exec (.hparse a) (loadHeader f s) = .next u) (herr : u.err ≠ 0#8) :
    decodeImage a f s = (u, .error u.err) := by
  have hissue := issue_of_exec decodeOfEncodeIsIdentity hparse
  rw [loadHeader] at hissue
  simp only [decodeImage, h, hissue, if_pos herr]

/-- The file has a header, and `HPARSE` accepts it: the four commands that follow change only the response, so that the
rows are read with the offset, the size and the stride that the header and the slot give. -/
theorem decodeImage_of_accepted (h : f.readError 0 headerLength = none)
    (hparse : exec (.hparse a) (loadHeader f s) = .next u) (herr : u.err = 0#8)
    (ha : slotExists u.params.nbuf a = true) :
    decodeImage a f s = decodeRows a f (u.hbField 10 4) (u.slot a).width.toNat (u.slot a).height.toNat
      (strideOf (u.slot a).width.toNat) (u.slot a).height.toNat
      (u.respond (BitVec.ofNat 64 (strideOf (u.slot a).width.toNat)) noFlag) := by
  have hissue := issue_of_exec decodeOfEncodeIsIdentity hparse
  have hrdf : issue (.rdf 10#8 4#8) u = u.respondField 10 4 :=
    issue_of_exec decodeOfEncodeIsIdentity (exec_rdf_ok (by decide) (by decide) u)
  have hstride : strideOf (u.slot a).width.toNat < 2 ^ 64 := (strideOf_word_le _).trans_lt (by decide)
  rw [loadHeader] at hissue
  simp only [decodeImage, h, hissue, if_neg (not_not.2 herr), hrdf]
  rw [State.respondField_res_toNat _ _ (by decide), State.respondField]
  simp only [issue_rddesc, issue_stride, ha, State.respond_params, State.respond_respond, State.respond_res,
    State.slot_respond, descriptor_width_toNat, descriptor_height_toNat, BitVec.ofNat_toNat, BitVec.setWidth_eq,
    toNat_ofNat_of_lt hstride]

/-- What the sequence does then: it stops at a row that cannot be read, with the slot empty, or it writes every row. -/
theorem decodeImage_accepted_cases (h : f.readError 0 headerLength = none)
    (hparse : exec (.hparse a) (loadHeader f s) = .next u) (herr : u.err = 0#8) (hinv : u.Inv)
    (ha : slotExists u.params.nbuf a = true) :
    (∃ e, (decodeImage a f s).2 = .error e ∧ (decodeImage a f s).1.slot a = PixelBuffer.empty) ∨
    ((decodeImage a f s).2 = .ok ∧ RowsWritten a u (decodeImage a f s).1 fun x y => filePixel f (u.hbField 10 4 +
      ((u.slot a).height.toNat - 1 - y) * strideOf (u.slot a).width.toNat + x * 3)) := by
  rw [decodeImage_of_accepted h hparse herr ha]
  rcases decodeRows_spec decodeOfEncodeIsIdentity f (hinv.respond _ noFlag) ha (u.hbField 10 4) _ _ le_rfl with
    hfail | ⟨hok, hinv', hframe, hshape, hpixels⟩
  · exact .inl hfail
  · refine .inr ⟨hok, hinv', hframe, hshape, fun x y hr => (hpixels x y hr).trans (if_pos ?_)⟩
    obtain ⟨-, hy⟩ := inRange_iff.1 hr
    exact hy

end

/-! ### A failed `DECODE_IMAGE` (R122) -/

theorem readError_of_short {f : List Byte} {lo hi : Nat} (h : f.length < hi) :
    (FileSource.ofBytes f).readError lo hi = some .unexpectedEndOfData := if_pos h

/-- Every failure is one of three: before the first command, at `HPARSE`, or in a row, after which the slot is cleared. -/
theorem slot_of_decodeImage_failed {s : State} (hinv : s.Inv) {a : SlotNum} (ha : slotExists s.params.nbuf a = true)
    {f : FileSource} (hfail : (decodeImage a f s).2 ≠ .ok) :
    (decodeImage a f s).1.slot a = s.slot a ∨ (decodeImage a f s).1.slot a = PixelBuffer.empty := by
  cases hread : f.readError 0 headerLength with
  | some e =>
    rw [decodeImage_of_readError hread]
    exact .inl rfl
  | none =>
    have honly := loadHeader_onlyHeader hinv f
    have ⟨hparams, _, _⟩ := honly
    obtain ⟨u, hparse, heffect⟩ := exec_effect (.hparse a) (loadHeader f s)
    by_cases herr : u.err = 0#8
    · rcases decodeImage_accepted_cases hread hparse herr (heffect.inv (loadHeader_inv hinv f))
        (by rwa [heffect.params, hparams]) with ⟨-, -, hempty⟩ | ⟨hok, -⟩
      · exact .inr hempty
      · exact absurd hok hfail
    · obtain ⟨e, -, rfl⟩ := heffect.err_zero_or_raised.resolve_left herr
      rw [decodeImage_of_rejected hread hparse herr]
      exact .inl (honly.slot a)

theorem exec_hparse_of_missing {s : State} {a : SlotNum} (ha : slotExists s.params.nbuf a = false) :
    exec (.hparse a) s = .next (s.raise .illegalCommand) := by rw [exec, execHparse, withSlot_of_missing ha]

/-- Settles O58: a short file fails before any command, a missing slot at `HPARSE`. -/
theorem decodeImageLeavesNoPartialBuffer : Obligations.DecodeImageLeavesNoPartialBuffer := by
  refine ⟨fun s a f hshort => decodeImage_of_readError (readError_of_short hshort),
    fun s a f hinv ha hfail => slot_of_decodeImage_failed hinv ha hfail, fun s a f hinv ha hlen => ?_⟩
  have honly := loadHeader_onlyHeader hinv (.ofBytes f)
  have ⟨hparams, _, _⟩ := honly
  rw [← hparams] at ha
  rw [decodeImage_of_rejected (readError_ofBytes hlen) (exec_hparse_of_missing ha) (show 8#8 ≠ 0#8 by decide)]
  exact ⟨rfl, honly⟩

/-! ### `DECODE_IMAGE` of a file image (R120, R122) -/

/-- A header block is what its 54 bytes say. -/
theorem IsHeaderBlock.congr {m m' : Memory} {b : PixelBuffer} {p : Nat} (h : IsHeaderBlock m b p)
    (hread : ∀ i < headerLength, m'.read i = m.read i) : IsHeaderBlock m' b p := by
  have hfield (a n : Nat) (hfit : a + n ≤ headerLength) : m'.readLE a n = m.readLE a n :=
    Memory.readLE_congr fun i _ hi => hread i (hi.trans_le hfit)
  obtain ⟨hmagic, hoffset, hsize, hwidth, hheight, hdepth, hhRes, hvRes⟩ := h
  constructor <;> rw [hfield _ _ (by decide)] <;> assumption

/-- Either way a header declares a size up to 2^31, `HPARSE` reads that size (40_header_codec.md R86, R88). -/
theorem absI32_of_declaresSize {field size : Nat} (h : declaresSize field size) (hle : size ≤ 2 ^ 31) :
    absI32 field = size := by
  rcases h with rfl | h
  · exact absI32_of_le hle
  · exact h

/-- `HPARSE` accepts a header block of a buffer that fits and gives its slot the buffer's shape. -/
theorem succeeds_hparse_of_isHeaderBlock {s : State} (hinv : s.Inv) {a : SlotNum}
    (ha : slotExists s.params.nbuf a = true) {b : PixelBuffer} (hbuf : b.Inv s.params.cap) (hw : b.width.toNat ≤ 2 ^ 31)
    (hh : b.height.toNat ≤ 2 ^ 31) {p : Nat} (h : IsHeaderBlock s.hb b p) :
    Succeeds (exec (.hparse a) s) 0#64 noFlag fun u => OnlySlot a s u ∧ b.SameShape (u.slot a) := by
  obtain ⟨hmagic, -, hsize, hwidth, hheight, hdepth, hhRes, hvRes⟩ := h
  obtain ⟨hlen, hcap, -⟩ := hbuf
  simp only [exec_hparse ha, State.hbField, hmagic, hsize, hdepth, hhRes, hvRes, absI32_of_declaresSize hwidth hw,
    absI32_of_declaresSize hheight hh, ← hlen, Nat.not_lt.2 hcap, BitVec.ofNat_toNat, BitVec.setWidth_eq, ne_eq,
    not_true_eq_false, if_false]
  refine (succeeds_setSlot hinv ha _ _ _).mono fun u ⟨honly, hslot⟩ => ⟨honly, ?_⟩
  rw [hslot]
  exact ⟨rfl, rfl, rfl, rfl, hlen.symm⟩

section
variable {f : List Byte} {m : Memory} {b : PixelBuffer} {p : Nat}

theorem FileSource.byte_ofBytes {i : Nat} {v : Byte} (h : f[i]? = some v) : (FileSource.ofBytes f).byte i = v := by
  rw [FileSource.byte, FileSource.ofBytes, List.getD_eq_getElem?_getD, h, Option.getD_some]

/-- Channel byte c of pixel (x, y) stands at P + (H−1−y)·S + x·3 + c (R120). -/
theorem IsFileImage.byte_pixel (h : IsFileImage f m b p) {x y c : Nat} (hr : InRange b x y) (hc : c < 3) :
    (FileSource.ofBytes f).byte (p + (b.height.toNat - 1 - y) * strideOf b.width.toNat + x * 3 + c) =
      b.px.read (pixelIndex b.width.toNat x y c) := by
  obtain ⟨hx, hy⟩ := hr
  have hbyte := h.pixels (b.height.toNat - 1 - y) (by omega) (x * 3 + c) (by omega)
  rw [← Nat.add_assoc, pixelIndex_row_add, show b.height.toNat - 1 - (b.height.toNat - 1 - y) = y by omega,
    show (x * 3 + c) / 3 = x by omega, show (x * 3 + c) % 3 = c by omega] at hbyte
  exact FileSource.byte_ofBytes hbyte

theorem IsFileImage.filePixel_eq (h : IsFileImage f m b p) {x y : Nat} (hr : InRange b x y) :
    filePixel (.ofBytes f) (p + (b.height.toNat - 1 - y) * strideOf b.width.toNat + x * 3) = b.pixelAt x y :=
  RgbPixel.ext (h.byte_pixel hr (c := 2) (by decide)) (h.byte_pixel hr (c := 1) (by decide))
    (h.byte_pixel hr (c := 0) (by decide))

theorem IsFileImage.header_length_le (h : IsFileImage f m b p) : headerLength ≤ f.length := by
  obtain ⟨hlt, -⟩ := List.getElem?_eq_some_iff.1 (h.header 53 (by decide))
  exact hlt

/-- Loading a file's header leaves the header block of the image in `HB`. -/
theorem IsFileImage.isHeaderBlock_loadHeader (h : IsFileImage f m b p) {s : State} (hinv : s.Inv) :
    IsHeaderBlock (loadHeader (.ofBytes f) s).hb b p :=
  h.block.congr fun i hi => (loadHeader_hbByte hinv _ hi).trans (FileSource.byte_ofBytes (h.header i hi))

/-- Rows written from a file image into storage of the buffer's shape are the buffer. -/
theorem IsFileImage.slot_eq_of_rowsWritten (h : IsFileImage f m b p) {u t : State} {a : SlotNum}
    (hbuf : b.Inv u.params.cap) (hshape : b.SameShape (u.slot a))
    (hrows : RowsWritten a u t fun x y =>
      filePixel (.ofBytes f) (p + (b.height.toNat - 1 - y) * strideOf b.width.toNat + x * 3)) : t.slot a = b := by
  obtain ⟨hinv, ⟨hparams, -⟩, hshape', hpixels⟩ := hrows
  rw [← hparams] at hbuf
  refine PixelBuffer.ext_channels hbuf (hinv.slot a) (hshape.trans hshape') fun x y c hr => ?_
  rw [PixelBuffer.channelAt_eq_pixelAt, hpixels x y ((hshape.inRange x y).trans hr), h.filePixel_eq (inRange_iff.1 hr),
    ← PixelBuffer.channelAt_eq_pixelAt]

/-- A file image of a buffer that fits, read in full, decodes to that buffer. -/
theorem decodeImage_of_isFileImage {s : State} (hinv : s.Inv) {a : SlotNum} (ha : slotExists s.params.nbuf a = true)
    (h : IsFileImage f m b p) (hbuf : b.Inv s.params.cap) (hw : b.width.toNat ≤ 2 ^ 31) (hh : b.height.toNat ≤ 2 ^ 31)
    (hlen : p + b.height.toNat * strideOf b.width.toNat ≤ f.length) :
    (decodeImage a (.ofBytes f) s).2 = .ok ∧ (decodeImage a (.ofBytes f) s).1.slot a = b := by
  have hread := readError_ofBytes (lo := 0) h.header_length_le
  have hloaded := loadHeader_inv hinv (.ofBytes f)
  have hblock := h.isHeaderBlock_loadHeader hinv
  obtain ⟨hparams, -, -⟩ := loadHeader_onlyHeader hinv (.ofBytes f)
  rw [← hparams] at ha hbuf
  obtain ⟨u, hparse, herr, -, -, ⟨huparams, hhb, -⟩, hshape⟩ :=
    succeeds_hparse_of_isHeaderBlock hloaded ha hbuf hw hh hblock
  rw [← huparams] at ha hbuf
  have ⟨hwidth, hheight, _⟩ := hshape
  have hoffset : u.hbField 10 4 = p := by rw [State.hbField, hhb, hblock.offset]
  have hok : (decodeImage a (.ofBytes f) s).2 = .ok := by
    rw [decodeImage_of_accepted hread hparse herr ha, hoffset, hwidth, hheight]
    exact decodeRows_ok f a p _ _ _ _ _ le_rfl hlen
  rcases decodeImage_accepted_cases hread hparse herr ((exec_cases hparse).inv hloaded) ha with ⟨_, hfail, -⟩ | ⟨-, hrows⟩
  · cases hok.symm.trans hfail
  · rw [hoffset, hwidth, hheight] at hrows
    exact ⟨hok, h.slot_eq_of_rowsWritten hbuf hshape hrows⟩

end

/-! ### The round trip (R124) -/

theorem encodeImage_inv {s : State} (h : s.Inv) {a : SlotNum} (ha : slotExists s.params.nbuf a = true) :
    (encodeImage a s).block.Inv := by
  obtain ⟨t, ht, ⟨⟨honly, -⟩, -⟩, -⟩ := encodeImage_spec decodeOfEncodeIsIdentity ha
  exact honly.inv ((exec_cases ht).inv h)

/-- Settles O57: what `ENCODE_IMAGE` leaves is a file image of the slot (O56), and a file image decodes to its buffer. -/
theorem decodeOfEncodedImageIsIdentity : Obligations.DecodeOfEncodedImageIsIdentity := by
  intro s a b hinv ha hb _ hw hh e r
  obtain ⟨hencode, -⟩ := encodeImageWritesFileImage
  obtain ⟨-, himage, hlen, ⟨hparams, -, -⟩, -⟩ := hencode s a hinv ha
  obtain ⟨hok, hslot⟩ := decodeImage_of_isFileImage (encodeImage_inv hinv ha) (a := b) (by rw [hparams]; exact hb) himage
    (by rw [hparams]; exact hinv.slot a) hw hh (by rw [hlen, Nat.mul_comm (strideOf _)])
  refine ⟨hok, hslot, fun hw' hh' => ?_, fun hw' hh' => ?_⟩
  · rw [hlen, hw', hh']
    decide
  · rw [hlen, hw', hh']
    decide

end Sys2Proof.Machine
end

section
/-! PROOFS. The error responses (60_exceptions.md R131, R132, R135, R137; 10_state.md R30): which command raises which kind,
which commands cannot fail, what `ERR` can hold, and that no packet's outcome depends on the response registers. -/

namespace Sys2Proof

/-- No command raises the two kinds that only the host reports (45_file_image.md R123). -/
theorem Instr.hostErrors_notMem_errorKinds (i : Instr) :
    .unexpectedEndOfData ∉ i.errorKinds ∧ .ioFailure ∉ i.errorKinds := by
  cases i <;> simp [Instr.errorKinds]

theorem Instr.slotExists_of_slotFields {i : Instr} {nbuf : Nat} (h : i.slotsExist nbuf = true) {a : SlotNum}
    (ha : i.slotFields = [a]) : slotExists nbuf a = true :=
  List.all_eq_true.1 h a (ha ▸ List.mem_singleton_self a)

theorem Instr.slotsExist_of_slotFields_nil {i : Instr} (h : i.slotFields = []) (nbuf : Nat) :
    i.slotsExist nbuf = true := by
  rw [Instr.slotsExist, h, List.all_nil]

/-- `ADDPX`, `STRIDE` and `PADLEN` name no slot (R132). -/
theorem Instr.slotFields_nil_of_opcode {i : Instr} (h : i.opcode ∈ [Opcode.addpx, .stride, .padlen]) :
    i.slotFields = [] := by
  cases i
  case stride | padlen | addpx => rfl
  all_goals simp [Instr.opcode] at h

end Sys2Proof

namespace Sys2Proof.Machine

/-! ### The errors a command raises (R131) -/

/-- Settles O14: an error comes from `State.raise` with one of the command's own kinds. -/
theorem commandsRaiseOnlyTheirErrors : Obligations.CommandsRaiseOnlyTheirErrors := by
  intro s t i hexec
  exact (exec_cases hexec).err_zero_or_raised.imp_right fun ⟨e, he, ht⟩ => ⟨e, he, ht ▸ s.raise_err e⟩

/-! ### The commands that cannot fail (R132) -/

/-- Once its slot exists, each of the twelve commands responds; for the four with a coordinate, one out of range is no
error either (42_pixel_buffer.md R98 to R101). -/
theorem exec_err_zero_of_cannotFail {i : Instr} {s : State} (hi : i.opcode ∈ Spec.cannotFail)
    (hs : i.slotsExist s.params.nbuf = true) : ∃ t, exec i s = .next t ∧ t.err = 0#8 := by
  have hslot {a : SlotNum} : i.slotFields = [a] → slotExists s.params.nbuf a = true := Instr.slotExists_of_slotFields hs
  cases i
  case stride width => exact ⟨_, exec_stride width, rfl⟩
  case padlen width => exact ⟨_, exec_padlen width, rfl⟩
  case addpx pa pb => exact ⟨_, exec_addpx pa pb, rfl⟩
  case hbuild => exact ⟨_, exec_hbuild (hslot rfl), rfl⟩
  case clear => exact ⟨_, exec_clear (hslot rfl), rfl⟩
  case fill a ch val => exact ⟨_, exec_fill (hslot rfl) ch val, rfl⟩
  case invert a ch => exact ⟨_, exec_invert (hslot rfl) ch, rfl⟩
  case rddesc a sel => exact ⟨_, exec_rddesc (hslot rfl) sel, rfl⟩
  case get a x y ch =>
    by_cases hr : InRange (s.slot a) x.toNat y.toNat
    · exact ⟨_, exec_get_inRange (hslot rfl) hr ch, rfl⟩
    · exact ⟨_, exec_get_outOfRange (hslot rfl) hr ch, rfl⟩
  case getpx a x y =>
    by_cases hr : InRange (s.slot a) x.toNat y.toNat
    · exact ⟨_, exec_getpx_inRange (hslot rfl) hr, rfl⟩
    · exact ⟨_, exec_getpx_outOfRange (hslot rfl) hr, rfl⟩
  case set a x y ch val =>
    by_cases hr : InRange (s.slot a) x.toNat y.toNat
    · exact ⟨_, exec_set_inRange (hslot rfl) hr ch val, rfl⟩
    · exact ⟨_, exec_set_outOfRange (hslot rfl) hr ch val, rfl⟩
  case setpx a x y pix =>
    by_cases hr : InRange (s.slot a) x.toNat y.toNat
    · exact ⟨_, exec_setpx_inRange (hslot rfl) hr pix, rfl⟩
    · exact ⟨_, exec_setpx_outOfRange (hslot rfl) hr pix, rfl⟩
  all_goals simp [Instr.opcode, Spec.cannotFail] at hi

/-- Settles O15: a missing slot is the twelve commands' only error, and three of them name no slot. -/
theorem twelveCommandsCannotFail : Obligations.TwelveCommandsCannotFail := by
  refine ⟨fun s i => exec_err_zero_of_cannotFail, fun s i hi => ?_⟩
  have hsub : [Opcode.addpx, .stride, .padlen] ⊆ Spec.cannotFail := by decide
  exact exec_err_zero_of_cannotFail (hsub hi)
    (Instr.slotsExist_of_slotFields_nil (Instr.slotFields_nil_of_opcode hi) s.params.nbuf)

/-! ### What `ERR` can hold (R131, R30) -/

theorem responseLegal_of_err_zero {t : State} (h : t.err = 0#8) : t.errLegal ∧ t.errorClean :=
  ⟨by simp [State.errLegal, h], fun hne => absurd h hne⟩

theorem errLegal_raise (s : State) {e : ErrorKind} (hend : e ≠ .unexpectedEndOfData) (hio : e ≠ .ioFailure) :
    (s.raise e).errLegal := by
  cases e
  case unexpectedEndOfData => exact absurd rfl hend
  case ioFailure => exact absurd rfl hio
  all_goals simp [State.errLegal, ErrorKind.code]

theorem errorClean_raise (s : State) (e : ErrorKind) : (s.raise e).errorClean := fun _ => ⟨rfl, rfl⟩

theorem CommandEffect.responseLegal {i : Instr} {s t : State} (h : CommandEffect i s t) :
    t.errLegal ∧ t.errorClean := by
  obtain hok | ⟨e, he, rfl⟩ := h.err_zero_or_raised
  · exact responseLegal_of_err_zero hok
  · obtain ⟨hend, hio⟩ := i.hostErrors_notMem_errorKinds
    exact ⟨errLegal_raise s (ne_of_mem_of_not_mem he hend) (ne_of_mem_of_not_mem he hio), errorClean_raise s e⟩

/-- Whatever the response was before, a packet leaves a legal one. -/
theorem runPacket_responseLegal {w : Packet} {s t : State} (h : runPacket w s = .next t) :
    t.errLegal ∧ t.errorClean := by
  rcases runPacket_cases w s with ⟨_, -, hrun⟩ | ⟨i, -, hrun⟩
  · cases hrun.symm.trans h
    exact ⟨errLegal_raise s (by decide) (by decide), errorClean_raise s _⟩
  · exact (exec_cases (hrun.symm.trans h)).responseLegal

/-- Settles O19: an idle step keeps the response, a reset clears it, and a packet leaves a legal one. -/
theorem stepKeepsResponseLegal : Obligations.StepKeepsResponseLegal := by
  intro s t hlegal hclean hstep
  rcases step_cases s with ⟨-, hidle⟩ | ⟨rest, -, hreset⟩ | ⟨w, rest, -, hpacket⟩
  · cases hidle.symm.trans hstep
    exact ⟨hlegal, hclean⟩
  · cases hreset.symm.trans hstep
    exact responseLegal_of_err_zero (State.afterReset_err _)
  · exact runPacket_responseLegal (hpacket.symm.trans hstep)

/-! ### No packet reads the response (R137) -/

/-- Settles O16: no command reads the response registers, and neither does the decoder's error. -/
theorem responseIsNeverRead : Obligations.ResponseIsNeverRead := by
  intro s w e f r
  have honly : OnlyResponse s { s with err := e, flag := f, res := r } := ⟨rfl, rfl, rfl, rfl⟩
  unfold runPacket
  cases decode w with
  | ok i => exact exec_eq_of_onlyResponse honly i
  | illegal _ => rfl

end Sys2Proof.Machine
end

section
/-! PROOFS. Reset, and the ports between a packet taken and its response (70_reset_and_hazards.md R145, R148;
60_exceptions.md R140). -/

namespace Sys2Proof.Machine

open Sys2Proof.Config

/-! ### The step on a reset input and on no input -/

theorem step_of_pending_reset {s : State} {rest : List HostInput} (h : s.pending = .reset :: rest) :
    step s = .next ({ s with pending := rest } : State).afterReset := by
  rw [step, stepInput, h]
  rfl

theorem step_of_pending_nil {s : State} (h : s.pending = []) : step s = .next s := by
  rw [step, stepInput, h]

/-! ### One clock edge -/

theorem clockEdge_of_rst {i : PortIn} (h : i.rst = true) (p : PortState) : clockEdge p i = resetEdge p := by
  simp [clockEdge, h]

/-- An idle block takes the packet that is offered. -/
theorem clockEdge_of_offer {p : PortState} {i : PortIn} (hp : p.executing = none) (hr : i.rst = false)
    (hv : i.cmdValid = true) : clockEdge p i = takeEdge p i.cmd := by
  simp [clockEdge, hp, hr, hv]

theorem clockEdge_of_idle {p : PortState} {i : PortIn} (hp : p.executing = none) (hr : i.rst = false)
    (hv : i.cmdValid = false) : clockEdge p i = { p with rspValid := false } := by
  simp [clockEdge, hp, hr, hv]

/-- The edge after a response ends the pulse of `rsp_valid`, whether the host offers the next packet or not. -/
theorem clockEdge_after_response {p : PortState} {i : PortIn} (hp : p.executing = none) (hr : i.rst = false) :
    (clockEdge p i).block = p.block ∧ (clockEdge p i).rspValid = false := by
  cases hv : i.cmdValid with
  | true => rw [clockEdge_of_offer hp hr hv]; exact ⟨rfl, rfl⟩
  | false => rw [clockEdge_of_idle hp hr hv]; exact ⟨rfl, rfl⟩

/-- Every packet answers a next state, so the last edge of a command leaves the block in it. -/
theorem runPacket_eq_finishEdge (p : PortState) (w : Packet) : runPacket w p.block = .next (finishEdge p w).block := by
  obtain ⟨t, hrun, -⟩ := runPacket_err_zero_or_raised w p.block
  simp [finishEdge, hrun, Result.stateOr]

/-! ### Reset at the ports -/

theorem State.afterReset_afterReset (s : State) : s.afterReset.afterReset = s.afterReset := rfl

/-- A block in its reset state with nothing executing stays so at every edge that asserts reset or offers no packet. -/
theorem clockEdges_keep_reset (s : State) {rest : List PortIn} (h : ∀ j ∈ rest, j.rst = true ∨ j.cmdValid = false)
    {p : PortState} (hb : p.block = s.afterReset) (he : p.executing = none) :
    (clockEdges p rest).block = s.afterReset ∧ (clockEdges p rest).executing = none := by
  induction rest generalizing p with
  | nil => exact ⟨hb, he⟩
  | cons j rest ih =>
    obtain ⟨hj, hrest⟩ := List.forall_mem_cons.1 h
    rw [clockEdges]
    cases hr : j.rst with
    | true =>
      rw [clockEdge_of_rst hr]
      exact ih hrest ((congrArg State.afterReset hb).trans s.afterReset_afterReset) rfl
    | false =>
      rw [clockEdge_of_idle he hr (hj.resolve_left (by simp [hr]))]
      exact ih hrest hb he

/-- Settles O12: a reset input and no input by the step's own cases; at the ports a reset edge reaches the reset state with
nothing executing, which later edges keep. -/
theorem resetGivesResetState : Obligations.ResetGivesResetState := by
  refine ⟨fun _ _ hpending => step_of_pending_reset hpending, fun _ hpending => step_of_pending_nil hpending, ?_⟩
  intro p i rest hi hrest
  rw [clockEdges, clockEdge_of_rst hi]
  exact clockEdges_keep_reset p.block hrest rfl rfl

/-! ### The response at the ports -/

/-- From the edge that takes a packet: `clockEdges_executing` for the number of cycles drawn there. -/
theorem clockEdges_takeEdge (p : PortState) (w : Packet) {inputs : List PortIn} (hr : ∀ i ∈ inputs, i.rst = false) :
    (inputs.length ≤ commandCycles p.taken → clockEdges (takeEdge p w) inputs =
      { takeEdge p w with executing := some ⟨w, commandCycles p.taken - inputs.length⟩ }) ∧
    (inputs.length = commandCycles p.taken + 1 → clockEdges (takeEdge p w) inputs = finishEdge (takeEdge p w) w) :=
  clockEdges_executing rfl rfl hr

/-- Settles O59: the number of cycles is the one drawn when the packet is taken; a run past the response is the run up to
it (`clockEdges_takeEdge`) followed by edges of an idle block. -/
theorem portsAnswerEachTakenPacket : Obligations.PortsAnswerEachTakenPacket := by
  intro p w hp
  dsimp only
  rw [clockEdge_of_offer hp rfl rfl]
  refine ⟨commandCycles p.taken, fun inputs hr => ?_⟩
  have hanswer : runPacket w p.block = .next (finishEdge (takeEdge p w) w).block := runPacket_eq_finishEdge (takeEdge p w) w
  obtain ⟨hwait, hfinish⟩ := clockEdges_takeEdge p w hr
  refine ⟨fun hlen => ?waiting, fun hlen => ?response, fun hlen => ?pulseEnds, fun hlen idle hne hidle => ?idle⟩
  case waiting =>
    rw [hwait hlen]
    exact ⟨rfl, rfl, rfl⟩
  case response =>
    rw [hfinish hlen]
    exact ⟨hanswer, rfl, rfl⟩
  case pulseEnds =>
    obtain rfl | ⟨init, last, rfl⟩ := inputs.eq_nil_or_concat'
    · simp at hlen
    · obtain ⟨hinit, hlast⟩ := List.forall_mem_append.1 hr
      obtain ⟨-, hinitFinish⟩ := clockEdges_takeEdge p w hinit
      rw [clockEdges_append, hinitFinish (by simpa using hlen)]
      obtain ⟨hblock, hvalid⟩ := clockEdge_after_response (p := finishEdge (takeEdge p w) w) rfl (hlast last (by simp))
      exact ⟨hanswer.trans (congrArg _ hblock.symm), hvalid⟩
  case idle =>
    rw [clockEdges_append, hfinish hlen, clockEdges_idle hne rfl hidle]
    exact ⟨hanswer, rfl, rfl⟩

end Sys2Proof.Machine
end
